-- ==== Sys2Proof/Word.lean ====
section
/-! DEFINITION. The word types of the ACCEL-RDM block. Each is a bit vector because the spec gives it as an
encoded object with numbered bits (30_encoding.md R70); bit 0 is the least significant bit (00_scope.md R9). -/

namespace Sys2Proof

/-- A byte is 8 bits (00_scope.md R9). A RegisterAddress is one too (00_scope.md R13). -/
abbrev Byte := BitVec 8

/-- The 7-bit bus device address, the DEV field of a request word (00_scope.md R7, 30_encoding.md R71). -/
abbrev DevAddr := BitVec 7

/-- The 32-bit transport request word (30_encoding.md R71). -/
abbrev RequestWord := BitVec 32

/-- The contents of the 4-bit STATE register (10_state.md R20). -/
abbrev StateCode := BitVec 4

/-- The contents of the 3-bit ERR register (10_state.md R23). -/
abbrev ErrCode := BitVec 3

/-- An IEEE 754 binary64 word (30_encoding.md R86). -/
abbrev F64 := BitVec 64

/-- One ASCII string of the display text, as its character codes (30_encoding.md R87). -/
abbrev Ascii := List Byte

end Sys2Proof
end

