-- ==== Sys2Proof/Syntax.lean ====
section
/-! DEFINITION. The operations of the block: one constructor per row of spec/opcode_table.json, and the STATE codes of
30_encoding.md R80 that select sixteen of them. -/

namespace Sys2Proof

/-- One constructor per row of the opcode table. The two accessor operations carry the fields of their request word
(30_encoding.md R74, R75); a state operation has no operand of its own, the STATE code alone selects it
(10_state.md R20). -/
inductive Instr where
  /-- ACC.READ(reg, count), 40_bus_accessor.md R100; count 0 is the empty read of R101. -/
  | accRead (dev : DevAddr) (reg : Byte) (count : Byte)
  /-- ACC.WRITE(reg, v), 40_bus_accessor.md R102. -/
  | accWrite (dev : DevAddr) (reg : Byte) (v : Byte)
  /-- S_ID_READ, 41_handshake.md R120. -/
  | sIdRead
  /-- S_ID_CHECK, 41_handshake.md R121. -/
  | sIdCheck
  /-- S_PWR_READ, 41_handshake.md R122. -/
  | sPwrRead
  /-- S_PWR_SET, 41_handshake.md R123. -/
  | sPwrSet
  /-- S_PWR_WRITE, 41_handshake.md R124. -/
  | sPwrWrite
  /-- S_PWR_VERIFY, 41_handshake.md R125. -/
  | sPwrVerify
  /-- S_POLL_READ, 42_sample_decoder.md R141. -/
  | sPollRead
  /-- S_DECODE, 42_sample_decoder.md R142. -/
  | sDecode
  /-- S_MAP, 43_range_mapper.md R166. -/
  | sMap
  /-- S_PUBLISH, 44_poll_loop.md R192. -/
  | sPublish
  /-- S_WAIT, 44_poll_loop.md R194. -/
  | sWait
  /-- S_STOPPED, 44_poll_loop.md R195. -/
  | sStopped
  /-- S_TERMINATED, 60_exceptions.md R226. -/
  | sTerminated
  /-- RESERVED_STATE_0xD, 60_exceptions.md R225. -/
  | reservedStateD
  /-- RESERVED_STATE_0xE, 60_exceptions.md R225. -/
  | reservedStateE
  /-- RESERVED_STATE_0xF, 60_exceptions.md R225. -/
  | reservedStateF
deriving DecidableEq, Repr

/-- The encoded form of an operation: a 4-bit STATE code or a 32-bit request word (30_encoding.md R70, R90). -/
inductive Code where
  | state (c : StateCode)
  | request (w : RequestWord)
deriving DecidableEq, Repr

/-! The STATE codes, 30_encoding.md R80. -/

abbrev stIdRead : StateCode := 0x0#4
abbrev stIdCheck : StateCode := 0x1#4
abbrev stPwrRead : StateCode := 0x2#4
abbrev stPwrSet : StateCode := 0x3#4
abbrev stPwrWrite : StateCode := 0x4#4
abbrev stPwrVerify : StateCode := 0x5#4
abbrev stPollRead : StateCode := 0x6#4
abbrev stDecode : StateCode := 0x7#4
abbrev stMap : StateCode := 0x8#4
abbrev stPublish : StateCode := 0x9#4
abbrev stWait : StateCode := 0xA#4
abbrev stStopped : StateCode := 0xB#4
abbrev stTerminated : StateCode := 0xC#4

/-- The three axes of a sample (00_scope.md R8). -/
inductive Axis where
  | x
  | y
  | z
deriving DecidableEq, Repr

end Sys2Proof
end

