-- ==== Sys2Proof/Config.lean ====
section
/-! DEFINITION. The configuration of 00_scope.md R7, the constants of R8, and the free values of the model: constants
with no body, so that nothing can be proved of their values. -/

namespace Sys2Proof

/-- The configuration parameters of 00_scope.md R7. The widths are in the types, and DATA_START_REG is below 251, so
every value of this type is a well-formed configuration. `RawConfig.check` refuses the others. -/
structure Config where
  /-- DEVICE_ADDR, 7 bits. -/
  deviceAddr : DevAddr
  /-- DEVID_REG, 8 bits. -/
  devidReg : Byte
  /-- POWER_CTL_REG, 8 bits. -/
  powerCtlReg : Byte
  /-- DATA_START_REG, 8 bits, at most 0xFA. -/
  dataStartReg : Fin 251
  /-- EXPECTED_DEVID, 8 bits. -/
  expectedDevid : Byte
  /-- POLL_INTERVAL, a duration in a unit the spec does not need (70_reset_and_hazards.md R261). -/
  pollInterval : Nat
deriving DecidableEq, Repr, Inhabited

/-- DATA_START_REG as the REG field of a request word. -/
def Config.dataStart (c : Config) : Byte := BitVec.ofNat 8 c.dataStartReg.val

/-- The configuration the block starts with. The spec gives no value (91_not_in_source.md N2 to N4, N19), so it has no
body: a statement about the reset state holds for every configuration (DESIGN CHOICE, safe, log 1). -/
opaque Config.params : Config

/-- The bits of a NaN result of a binary64 primitive. No input of the block reaches one (10_state.md R40, R41), and the
spec gives no bits for it (DESIGN CHOICE, safe, log 12). -/
opaque Config.nanBits : F64 → F64 → F64

/-- The text of FMT2 outside 0 to 32499, where 44_poll_loop.md R193 does not define it (DESIGN CHOICE, safe, log 13). -/
opaque Config.fmt2Beyond : Nat → Ascii

/-! The constants the source fixes, 00_scope.md R8. -/

/-- The mask of the measure bit, bit 3 (30_encoding.md R79). -/
abbrev Config.measureMask : Byte := 0x08#8

/-- The length of the raw block in bytes. -/
abbrev Config.rawBlockLength : Byte := 6#8

/-- The low end of the mapper's input domain. -/
abbrev Config.mapInLow : Int := -512

/-- The high end of the mapper's input domain. -/
abbrev Config.mapInHigh : Int := 512

/-- The low end of the mapper's output range. -/
abbrev Config.mapOutLow : Int := 0

/-- The high end of the mapper's output range. -/
abbrev Config.mapOutHigh : Int := 1000

/-- The output divisor. -/
abbrev Config.outDivisor : Int := 100

/-- The ceiling of the complement channels. -/
abbrev Config.complCeiling : Int := 10

end Sys2Proof
end

