-- ==== Sys2Proof/WellFormed.lean ====
section
/-! DEFINITION. What a well-formed operation and a well-formed configuration are, each as a check that refuses by name. -/

namespace Sys2Proof

/-- An operation has an encoding: every one but the empty read, for which 40_bus_accessor.md R101 says that no word is
issued (a READ word with COUNT = 0 is reserved, 30_encoding.md R76). -/
def Instr.wellFormed : Instr → Bool
  | .accRead _ _ count => count != 0#8
  | .accWrite _ _ _ => true
  | .sIdRead => true
  | .sIdCheck => true
  | .sPwrRead => true
  | .sPwrSet => true
  | .sPwrWrite => true
  | .sPwrVerify => true
  | .sPollRead => true
  | .sDecode => true
  | .sMap => true
  | .sPublish => true
  | .sWait => true
  | .sStopped => true
  | .sTerminated => true
  | .reservedStateD => true
  | .reservedStateE => true
  | .reservedStateF => true

/-- A configuration as its user writes it: six numbers (00_scope.md R7). -/
structure RawConfig where
  deviceAddr : Nat
  devidReg : Nat
  powerCtlReg : Nat
  dataStartReg : Nat
  expectedDevid : Nat
  pollInterval : Nat
deriving DecidableEq, Repr

/-- Why a configuration is refused: the value that does not fit (00_scope.md R7, 20_memory.md R58). Safe: a refused
configuration has no machine, so nothing is claimed of it. -/
inductive ConfigRefusal where
  /-- DEVICE_ADDR does not fit 7 bits. -/
  | deviceAddrTooWide
  /-- DEVID_REG does not fit 8 bits. -/
  | devidRegTooWide
  /-- POWER_CTL_REG does not fit 8 bits. -/
  | powerCtlRegTooWide
  /-- DATA_START_REG is above 0xFA: the six data registers would run past 0xFF. -/
  | dataStartRegAbove0xFA
  /-- EXPECTED_DEVID does not fit 8 bits. -/
  | expectedDevidTooWide
deriving DecidableEq, Repr

/-- 00_scope.md R7: "A configuration is well formed when every value fits its width and DATA_START_REG <= 0xFA. A model
refuses a configuration that is not well formed." -/
def RawConfig.check (r : RawConfig) : Except ConfigRefusal Config :=
  if 128 ≤ r.deviceAddr then .error .deviceAddrTooWide
  else if 256 ≤ r.devidReg then .error .devidRegTooWide
  else if 256 ≤ r.powerCtlReg then .error .powerCtlRegTooWide
  else if 256 ≤ r.expectedDevid then .error .expectedDevidTooWide
  else if h : r.dataStartReg < 251 then
    .ok { deviceAddr := BitVec.ofNat 7 r.deviceAddr
          devidReg := BitVec.ofNat 8 r.devidReg
          powerCtlReg := BitVec.ofNat 8 r.powerCtlReg
          dataStartReg := ⟨r.dataStartReg, h⟩
          expectedDevid := BitVec.ofNat 8 r.expectedDevid
          pollInterval := r.pollInterval }
  else .error .dataStartRegAbove0xFA

end Sys2Proof
end

