-- ==== Sys2Proof/Decode.lean ====
section
/-! DEFINITION. From encoded bits to operations and back: the STATE codes of 30_encoding.md R80, R81 and the request words
of R71 to R76. Decoding is total and rejects by name; no reserved word falls through to a neighbour. -/

namespace Sys2Proof

/-- Why bits spell no operation. Safe: nothing runs. -/
inductive DecodeError where
  /-- A READ word with COUNT = 0 (30_encoding.md R76). -/
  | readCountZero
  /-- A READ word with DATA other than 0x00 (30_encoding.md R76). -/
  | readDataNonzero
  /-- A WRITE word with COUNT other than 0x01 (30_encoding.md R76). -/
  | writeCountNotOne
  /-- A byte whose upper nibble is not 0: a STATE code has exactly 4 bits (30_encoding.md R70). -/
  | stateCodeTooWide
  /-- Neither one byte (a STATE code) nor four (a request word) (30_encoding.md R70, R90). -/
  | badLength
deriving DecidableEq, Repr

/-! The fields of a request word, 30_encoding.md R71. -/

/-- OP, bit 31: false is READ, true is WRITE (R73). -/
def reqIsWrite (w : RequestWord) : Bool := w.getLsbD 31

/-- DEV, bits 30:24. -/
def reqDev (w : RequestWord) : DevAddr := w.extractLsb' 24 7

/-- REG, bits 23:16. -/
def reqReg (w : RequestWord) : Byte := w.extractLsb' 16 8

/-- COUNT, bits 15:8. -/
def reqCount (w : RequestWord) : Byte := w.extractLsb' 8 8

/-- DATA, bits 7:0. -/
def reqData (w : RequestWord) : Byte := w.extractLsb' 0 8

/-- The operation of a request word (30_encoding.md R73 to R75); the reserved words of R76 are refused. -/
def decodeRequest (w : RequestWord) : Except DecodeError Instr :=
  if reqIsWrite w then
    if reqCount w = 1#8 then .ok (.accWrite (reqDev w) (reqReg w) (reqData w))
    else .error .writeCountNotOne
  else if reqCount w = 0#8 then .error .readCountZero
  else if reqData w = 0#8 then .ok (.accRead (reqDev w) (reqReg w) (reqCount w))
  else .error .readDataNonzero

/-- The operation a STATE code selects (30_encoding.md R80, R81). -/
def decodeStateCode (c : StateCode) : Instr :=
  match c.toNat with
  | 0 => .sIdRead
  | 1 => .sIdCheck
  | 2 => .sPwrRead
  | 3 => .sPwrSet
  | 4 => .sPwrWrite
  | 5 => .sPwrVerify
  | 6 => .sPollRead
  | 7 => .sDecode
  | 8 => .sMap
  | 9 => .sPublish
  | 10 => .sWait
  | 11 => .sStopped
  | 12 => .sTerminated
  | 13 => .reservedStateD
  | 14 => .reservedStateE
  | _ => .reservedStateF

/-- The operation of an encoded object. -/
def decode : Code → Except DecodeError Instr
  | .state c => .ok (decodeStateCode c)
  | .request w => decodeRequest w

/-- The object a list of bytes holds: one byte is a STATE code, four bytes are a request word with its least significant
byte first. The spec stores no request word in memory and so gives it no byte order (DESIGN CHOICE, log 18). -/
def codeOfBytes : List Byte → Except DecodeError Code
  | [b] => if b.toNat < 16 then .ok (.state (b.setWidth 4)) else .error .stateCodeTooWide
  | [b0, b1, b2, b3] => .ok (.request (b3 ++ b2 ++ b1 ++ b0))
  | _ => .error .badLength

/-- The decoder on any bytes. -/
def decodeBytes (bs : List Byte) : Except DecodeError Instr :=
  match codeOfBytes bs with
  | .ok c => decode c
  | .error e => .error e

/-- READ(dev, reg, n) is the word {0b0, dev, reg, n, 0x00} (30_encoding.md R74). -/
def readWord (dev : DevAddr) (reg n : Byte) : RequestWord := 0#1 ++ dev ++ reg ++ n ++ 0x00#8

/-- WRITE(dev, reg, v) is the word {0b1, dev, reg, 0x01, v} (30_encoding.md R75). -/
def writeWord (dev : DevAddr) (reg v : Byte) : RequestWord := 1#1 ++ dev ++ reg ++ 0x01#8 ++ v

/-- The encoder: the word of an operation (30_encoding.md R74, R75, R80, R81). -/
def encode : Instr → Code
  | .accRead dev reg count => .request (readWord dev reg count)
  | .accWrite dev reg v => .request (writeWord dev reg v)
  | .sIdRead => .state stIdRead
  | .sIdCheck => .state stIdCheck
  | .sPwrRead => .state stPwrRead
  | .sPwrSet => .state stPwrSet
  | .sPwrWrite => .state stPwrWrite
  | .sPwrVerify => .state stPwrVerify
  | .sPollRead => .state stPollRead
  | .sDecode => .state stDecode
  | .sMap => .state stMap
  | .sPublish => .state stPublish
  | .sWait => .state stWait
  | .sStopped => .state stStopped
  | .sTerminated => .state stTerminated
  | .reservedStateD => .state 0xD#4
  | .reservedStateE => .state 0xE#4
  | .reservedStateF => .state 0xF#4

/-- The bytes of a number of at most 32 bits, numbered as the opcode table numbers a row's bits: one byte for a row of at
most 8 bits, four bytes (the least significant first) for a longer one. A number that does not fit gives no bytes. -/
def tableBytes (nbits w : Nat) : List Byte :=
  if nbits ≤ 8 then (if w < 256 then [BitVec.ofNat 8 w] else [])
  else if nbits ≤ 32 ∧ w < 4294967296 then
    [BitVec.ofNat 8 w, BitVec.ofNat 8 (w / 256), BitVec.ofNat 8 (w / 65536), BitVec.ofNat 8 (w / 16777216)]
  else []

/-- The operation the decoder reads from a row's bits. -/
def decodeTableWord (nbits w : Nat) : Option Instr :=
  match decodeBytes (tableBytes nbits w) with
  | .ok i => some i
  | .error _ => none

/-- The mask and the match value of an operation's row in spec/opcode_table.json. -/
def Instr.tableRow : Instr → Nat × Nat
  | .accRead _ _ _ => (0x80000000, 0x00000000)
  | .accWrite _ _ _ => (0x80000000, 0x80000000)
  | .sIdRead => (0xF, 0x0)
  | .sIdCheck => (0xF, 0x1)
  | .sPwrRead => (0xF, 0x2)
  | .sPwrSet => (0xF, 0x3)
  | .sPwrWrite => (0xF, 0x4)
  | .sPwrVerify => (0xF, 0x5)
  | .sPollRead => (0xF, 0x6)
  | .sDecode => (0xF, 0x7)
  | .sMap => (0xF, 0x8)
  | .sPublish => (0xF, 0x9)
  | .sWait => (0xF, 0xA)
  | .sStopped => (0xF, 0xB)
  | .sTerminated => (0xF, 0xC)
  | .reservedStateD => (0xF, 0xD)
  | .reservedStateE => (0xF, 0xE)
  | .reservedStateF => (0xF, 0xF)

/-- The number an encoded object is. -/
def Code.toNat : Code → Nat
  | .state c => c.toNat
  | .request w => w.toNat

end Sys2Proof
end

