-- ==== Sys2Proof/Machine/State.lean ====
section
/-! DEFINITION. The state of the block (10_state.md), what stands outside it (inputs, the schedule of the other agents, the
record of the output ports), and the state after reset. Plain data throughout. -/

namespace Sys2Proof.Machine

/-- A working register: its contents and its validity mark (10_state.md R34). -/
structure Reg (w : Nat) where
  val : BitVec w
  valid : Bool
deriving DecidableEq, Repr

/-- A register as reset leaves it: its mark is clear (10_state.md R34), and its contents, for which the spec gives no value,
are zero (DESIGN CHOICE, unsafe, log 2). -/
def Reg.unmarked (w : Nat) : Reg w := { val := 0#w, valid := false }

/-- A register after a write: the write sets the mark (10_state.md R34). -/
def Reg.written {w : Nat} (v : BitVec w) : Reg w := { val := v, valid := true }

/-- The six registers RAW[0] to RAW[5] (10_state.md R29). -/
structure Raw where
  b0 : Reg 8
  b1 : Reg 8
  b2 : Reg 8
  b3 : Reg 8
  b4 : Reg 8
  b5 : Reg 8
deriving DecidableEq, Repr

/-- One thing for each axis: the X, Y and Z registers of a file (10_state.md R30 to R33). -/
structure Axes (α : Type) where
  x : α
  y : α
  z : α
deriving DecidableEq, Repr

/-- The names of the working registers (10_state.md R25 to R33). -/
inductive RegName where
  | idByte
  | pwrOld
  | pwrNew
  | pwrVerify
  | raw (i : Fin 6)
  | ax (a : Axis)
  | mapped (a : Axis)
  | out (a : Axis)
  | comp (a : Axis)
deriving DecidableEq, Repr

/-- A transport answer, the pair (KIND, BYTES) of 30_encoding.md R77: ACK and FAIL carry no bytes (R77, R90). -/
inductive Answer where
  | data (bytes : List Byte)
  | ack
  | fail
  | reserved (bytes : List Byte)
deriving DecidableEq, Repr

/-- The four exceptions with what each records (60_exceptions.md R220). -/
inductive Exc where
  /-- DeviceNotFound, with the ID byte that did not match (R221). -/
  | deviceNotFound (idByte : Byte)
  /-- TransportFailure, with the failed request word (R222). -/
  | transportFailure (w : RequestWord)
  /-- MalformedResponse, with the request word whose answer was malformed (R223). -/
  | malformedResponse (w : RequestWord)
  /-- IllegalState (R225). -/
  | illegalState
deriving DecidableEq, Repr

/-- One item sent on an output port (10_state.md R38, 30_encoding.md R88). -/
inductive Event where
  | txn (w : RequestWord)
  | displayClear
  | displayText (lines : List Ascii)
  | analogSet (channel : BitVec 3) (v : F64)
  | log (b : Byte)
  | diag (code : ErrCode)
deriving DecidableEq, Repr

/-- The interval timer of S_WAIT (44_poll_loop.md R194, 60_exceptions.md R231; log 10). -/
inductive Timer where
  | idle
  | running (interval : Nat)
  | expired
deriving DecidableEq, Repr

/-- One turn of one agent of 00_scope.md R12 (log 6). -/
inductive Turn where
  /-- The block's sequencer takes a step. -/
  | sequencer
  /-- The environment requests a reset (10_state.md R36). -/
  | raiseRst
  /-- The environment drives the CANCEL level (10_state.md R36). -/
  | setCancel (level : Bool)
  /-- The transport answers the transaction with this number, counted from 1 (30_encoding.md R72; log 7). -/
  | answer (txn : Nat) (a : Answer)
  /-- The interval timer expires (44_poll_loop.md R194). -/
  | timerExpires
deriving DecidableEq, Repr

/-- A call of the accessor by itself (log 14). -/
inductive Call where
  /-- A call that has a request word (40_bus_accessor.md R100, R102). -/
  | request (w : RequestWord)
  /-- ACC.READ(reg, count) with count < 1, which has no word: "No word is issued" (40_bus_accessor.md R101). -/
  | emptyRead (reg : Byte)
deriving DecidableEq, Repr

/-- Everything the spec gives the block, with the configuration, the inputs, and the model's own record fields. -/
structure State where
  /-- The configuration, constant for the whole run (10_state.md R39; log 1). -/
  cfg : Config
  /-- STATE (10_state.md R20). -/
  state : StateCode
  /-- DEV_STATE: true means measuring (10_state.md R22). -/
  devState : Bool
  /-- ERR (10_state.md R23). -/
  err : ErrCode
  /-- PENDING; `none` is NONE (10_state.md R24). -/
  pending : Option RequestWord
  /-- ID_BYTE (10_state.md R25). -/
  idByte : Reg 8
  /-- PWR_OLD (10_state.md R26). -/
  pwrOld : Reg 8
  /-- PWR_NEW (10_state.md R27). -/
  pwrNew : Reg 8
  /-- PWR_VERIFY (10_state.md R28). -/
  pwrVerify : Reg 8
  /-- RAW[0..5] (10_state.md R29). -/
  raw : Raw
  /-- AX_X, AX_Y, AX_Z (10_state.md R30). -/
  ax : Axes (Reg 16)
  /-- MAPPED_X, MAPPED_Y, MAPPED_Z (10_state.md R31). -/
  mapped : Axes (Reg 32)
  /-- OUT_X, OUT_Y, OUT_Z (10_state.md R32). -/
  out : Axes (Reg 64)
  /-- COMP_X, COMP_Y, COMP_Z (10_state.md R33). -/
  comp : Axes (Reg 64)
  /-- The interval timer (60_exceptions.md R231). -/
  timer : Timer
  /-- The RST input: a reset is requested (10_state.md R36; log 8). -/
  rst : Bool
  /-- The CANCEL input (10_state.md R36). -/
  cancel : Bool
  /-- The response input: an answer that has arrived and has not been taken (10_state.md R38; log 7). -/
  response : Option Answer
  /-- The model's fault record (60_exceptions.md R220; log 19). -/
  faultRec : Option Exc
  /-- The model's record of the reads of registers whose mark was clear, the oldest first: the model fault of
  10_state.md R34, recorded and not a stop (log 3). -/
  unmarkedReads : List RegName
  /-- The model's own: the turns still to come (log 6). -/
  schedule : List Turn
  /-- The model's own: what has left on the output ports, the oldest first (10_state.md R38, R68; log 9). -/
  events : List Event
  /-- The model's own: how many transactions have been issued (log 7). -/
  txnCount : Nat
  /-- The model's own: the call port of the accessor run by itself (log 14). -/
  call : Option Call
  /-- The model's own: what the last such call returned (log 14). -/
  ret : Option (List Byte)
deriving DecidableEq, Repr

/-- Why the machine stops with a fault. -/
inductive Fault where
  /-- ACC.READ or ACC.WRITE run by itself while another word than its own is pending: the assertion PENDING = NONE of
  40_bus_accessor.md R100 and R102 fails. Safe (log 16). -/
  | accessorBusy (w : RequestWord)
deriving DecidableEq, Repr

/-- Why an operation is refused. -/
inductive Refusal where
  /-- An operation with no meaning yet. No arm uses it. Safe. -/
  | notModelled (mnemonic : String)
  /-- The call port holds a reserved request word, which spells no transaction (30_encoding.md R76). Raised by the
  fetch. Safe. -/
  | reservedRequest (w : RequestWord)
  /-- ACC.READ or ACC.WRITE with a DEV other than DEVICE_ADDR: the block addresses one device only
  (40_bus_accessor.md R105). Safe (log 15). -/
  | foreignDevice (dev : DevAddr)
deriving DecidableEq, Repr

/-- The outcome of a step of this machine. -/
abbrev Result := Host.Outcome State Fault Refusal

/-- A register file of three unmarked registers. -/
def Axes.unmarked (w : Nat) : Axes (Reg w) :=
  { x := Reg.unmarked w, y := Reg.unmarked w, z := Reg.unmarked w }

/-- The six RAW registers with their marks clear. -/
def Raw.unmarked : Raw :=
  { b0 := Reg.unmarked 8, b1 := Reg.unmarked 8, b2 := Reg.unmarked 8
    b3 := Reg.unmarked 8, b4 := Reg.unmarked 8, b5 := Reg.unmarked 8 }

/-- The machine right after reset (10_state.md R42, 70_reset_and_hazards.md R250, R252). -/
def State.reset : State where
  cfg := Config.params
  state := stIdRead
  devState := false
  err := 0#3
  pending := none
  idByte := Reg.unmarked 8
  pwrOld := Reg.unmarked 8
  pwrNew := Reg.unmarked 8
  pwrVerify := Reg.unmarked 8
  raw := Raw.unmarked
  ax := Axes.unmarked 16
  mapped := Axes.unmarked 32
  out := Axes.unmarked 64
  comp := Axes.unmarked 64
  timer := .idle
  rst := false
  cancel := false
  response := none
  faultRec := none
  unmarkedReads := []
  schedule := []
  events := []
  txnCount := 0
  call := none
  ret := none

end Sys2Proof.Machine
end

