-- ==== Sys2Proof/Machine/Flags.lean ====
section
/-! DEFINITION. What an observer sees of the status: BUSY, the ERR code of an exception, and the STATUS word
(10_state.md R37, R40; 30_encoding.md R83, R84). No operation sets a flag as a side effect of arithmetic (10_state.md R40). -/

namespace Sys2Proof.Machine

/-- BUSY is true exactly when PENDING is not NONE (10_state.md R24). -/
def busy (s : State) : Bool := s.pending.isSome

/-- The ERR code of an exception (30_encoding.md R83). -/
def excCode : Exc → ErrCode
  | .deviceNotFound _ => 1#3
  | .transportFailure _ => 2#3
  | .malformedResponse _ => 3#3
  | .illegalState => 4#3

/-- The KIND of an answer (30_encoding.md R77). -/
def answerKind : Answer → BitVec 2
  | .data _ => 0#2
  | .ack => 1#2
  | .fail => 2#2
  | .reserved _ => 3#2

/-- The BYTES of an answer (30_encoding.md R77, R90). -/
def answerBytes : Answer → List Byte
  | .data bs => bs
  | .ack => []
  | .fail => []
  | .reserved bs => bs

/-- STATUS: STATE in bits 3:0, MEASURING in bit 4, BUSY in bit 5, ERR in bits 8:6, and 0 in bits 15:9
(30_encoding.md R84). -/
def status (s : State) : BitVec 16 :=
  0#7 ++ s.err ++ BitVec.ofBool (busy s) ++ BitVec.ofBool s.devState ++ s.state

end Sys2Proof.Machine
end

