-- ==== Sys2Proof/Machine/Operands.lean ====
section
/-! DEFINITION. Where an operation's operands come from: the working registers with their validity marks (10_state.md R34), the
bytes of a read answer (20_memory.md R53), the measure-bit mask (30_encoding.md R79) and the 16-bit samples
(42_sample_decoder.md R140). -/

namespace Sys2Proof.Machine

/-- The name of a register whose mark is clear, and nothing for a marked one (10_state.md R34). -/
def Reg.unmarkedName {w : Nat} (r : Reg w) (name : RegName) : List RegName := if r.valid then [] else [name]

/-- The registers of an axis file whose mark is clear. -/
def Axes.unmarkedNames {w : Nat} (a : Axes (Reg w)) (name : Axis → RegName) : List RegName :=
  a.x.unmarkedName (name .x) ++ a.y.unmarkedName (name .y) ++ a.z.unmarkedName (name .z)

/-- The RAW registers whose mark is clear. -/
def Raw.unmarkedNames (r : Raw) : List RegName :=
  r.b0.unmarkedName (.raw 0) ++ r.b1.unmarkedName (.raw 1) ++ r.b2.unmarkedName (.raw 2) ++
  r.b3.unmarkedName (.raw 3) ++ r.b4.unmarkedName (.raw 4) ++ r.b5.unmarkedName (.raw 5)

/-- Reading working registers: those among them whose mark is clear go on the record of the model fault of 10_state.md R34,
and the machine goes on with what the registers hold (DESIGN CHOICE, log 3). -/
def noteReads (unmarked : List RegName) (s : State) : State :=
  { s with unmarkedReads := s.unmarkedReads ++ unmarked }

/-- The bytes of RAW[0] to RAW[5]. -/
structure RawBytes where
  b0 : Byte
  b1 : Byte
  b2 : Byte
  b3 : Byte
  b4 : Byte
  b5 : Byte
deriving DecidableEq, Repr

/-- The contents of RAW[0] to RAW[5]. -/
def Raw.bytes (r : Raw) : RawBytes :=
  { b0 := r.b0.val, b1 := r.b1.val, b2 := r.b2.val, b3 := r.b3.val, b4 := r.b4.val, b5 := r.b5.val }

/-- The same function of each axis: the lanes are independent (42_sample_decoder.md R142, 43_range_mapper.md R166). -/
def Axes.map {α β : Type} (f : α → β) (a : Axes α) : Axes β := { x := f a.x, y := f a.y, z := f a.z }

/-- The contents of an axis file. -/
def Axes.vals {w : Nat} (a : Axes (Reg w)) : Axes (BitVec w) := a.map Reg.val

/-- What an axis file holds of an axis. -/
def Axes.get {α : Type} (a : Axes α) : Axis → α
  | .x => a.x
  | .y => a.y
  | .z => a.z

/-- The three registers of a file after a write of all three. -/
def Axes.written {w : Nat} (a : Axes (BitVec w)) : Axes (Reg w) := a.map Reg.written

/-- Byte `i` of an answer, b[i] of 20_memory.md R53. It is used only below the answer's length. -/
def answerByte (bs : List Byte) (i : Nat) : Byte := bs.getD i 0#8

/-- RAW after the answer of S_POLL_READ: every byte in its register (42_sample_decoder.md R141, 20_memory.md R56). -/
def rawOfAnswer (bs : List Byte) : Raw :=
  { b0 := Reg.written (answerByte bs 0), b1 := Reg.written (answerByte bs 1)
    b2 := Reg.written (answerByte bs 2), b3 := Reg.written (answerByte bs 3)
    b4 := Reg.written (answerByte bs 4), b5 := Reg.written (answerByte bs 5) }

/-- x[PWR_OLD] | 0x08: bit 3 set, the other bits unchanged (41_handshake.md R123). -/
def setMeasureBit (b : Byte) : Byte := b ||| Config.measureMask

/-- sext_16: read a 16-bit number as two's complement (00_scope.md R10). -/
def sext16 (u : Nat) : Int := if 32768 ≤ u then (u : Int) - 65536 else (u : Int)

/-- DECODE16(lo, hi), 42_sample_decoder.md R140. -/
def decode16 (lo hi : Byte) : Int := sext16 (hi.toNat * 256 + lo.toNat)

/-- The three samples of a raw block, each decoded from its own two bytes (42_sample_decoder.md R142). -/
def samplesOf (b : RawBytes) : Axes Int :=
  { x := decode16 b.b0 b.b1, y := decode16 b.b2 b.b3, z := decode16 b.b4 b.b5 }

end Sys2Proof.Machine
end

