-- ==== Sys2Proof/Machine/Ops.lean ====
section
/-! DEFINITION. The named operations the meanings share: the control transfer, the two steps of a transaction
(20_memory.md R55), taking an exception (60_exceptions.md R224), reset (70_reset_and_hazards.md R250), the turns of the other
agents (00_scope.md R12) and the fetch. -/

namespace Sys2Proof.Machine

/-! ## Control transfer and events -/

/-- The timer after `pc <- c`: on entry to S_WAIT the interval timer is started with POLL_INTERVAL
(44_poll_loop.md R194, 60_exceptions.md R231); no other transfer touches it. -/
def timerOnEntry (c : StateCode) (cfg : Config) (t : Timer) : Timer :=
  if c = stWait then .running cfg.pollInterval else t

/-- `pc <- c`, the block's only control transfer (00_scope.md R10). -/
def gotoState (c : StateCode) (s : State) : State :=
  { s with state := c, timer := timerOnEntry c s.cfg s.timer }

/-- Send events on the output ports, in this order (10_state.md R38, 20_memory.md R68). -/
def emit (es : List Event) (s : State) : State := { s with events := s.events ++ es }

/-! ## Transactions -/

/-- The issue step: PENDING holds the request word, which leaves on TXN; STATE does not change (20_memory.md R55). -/
def issueRequest (w : RequestWord) (s : State) : State :=
  { s with pending := some w, events := s.events ++ [.txn w], txnCount := s.txnCount + 1 }

/-- The block takes the answer: PENDING becomes NONE and the response input is empty again (20_memory.md R55). -/
def takeAnswer (s : State) : State := { s with pending := none, response := none }

/-- What the accessor makes of the response input. -/
inductive Reply where
  /-- No answer has arrived. -/
  | waiting
  /-- The answer raises this exception. -/
  | raised (e : Exc)
  /-- The transaction completes and returns these bytes (none for a write). -/
  | returned (bytes : List Byte)
deriving DecidableEq, Repr

/-- The answer phase of ACC.READ for `count` bytes: FAIL is tested first, then KIND and length; the bytes are never
checked (40_bus_accessor.md R100, R104; 60_exceptions.md R227). -/
def readReply (count : Nat) (w : RequestWord) : Option Answer → Reply
  | none => .waiting
  | some .fail => .raised (.transportFailure w)
  | some (.data bs) => if bs.length = count then .returned bs else .raised (.malformedResponse w)
  | some .ack => .raised (.malformedResponse w)
  | some (.reserved _) => .raised (.malformedResponse w)

/-- The answer phase of ACC.WRITE (40_bus_accessor.md R102). -/
def writeReply (w : RequestWord) : Option Answer → Reply
  | none => .waiting
  | some .fail => .raised (.transportFailure w)
  | some .ack => .returned []
  | some (.data _) => .raised (.malformedResponse w)
  | some (.reserved _) => .raised (.malformedResponse w)

/-- The answers that are legal for a request word (30_encoding.md R77). -/
def legalAnswer (w : RequestWord) : Answer → Bool
  | .data bs => !reqIsWrite w && bs.length == (reqCount w).toNat && bs.length != 0
  | .ack => reqIsWrite w
  | .fail => true
  | .reserved _ => false

/-! ## Taking an exception -/

/-- `raise E(info)`, the fatal-error sequence of 60_exceptions.md R224: ERR takes the code, PENDING is NONE, DIAG leaves,
and the block is in S_TERMINATED; nothing else of the block changes. There is no return from it (R228). The model records
E and what it recorded (R220; log 19); an answer or a call that belonged to PENDING goes with it (log 21). -/
def raiseFatal (e : Exc) (s : State) : State :=
  { s with
    err := excCode e
    pending := none
    events := s.events ++ [.diag (excCode e)]
    state := stTerminated
    response := none
    faultRec := some e
    call := none }

/-! ## The accessor as the states call it -/

/-- One pass of a state over `ACC.READ(reg, count)` (40_bus_accessor.md R100): the issue step while PENDING is NONE; after
it the answer step, in which `onBytes` does the rest of the state's operation; no step until an answer has arrived. -/
def runRead (reg count : Byte) (onBytes : List Byte → State → State) (s : State) : State :=
  match s.pending with
  | none => issueRequest (readWord s.cfg.deviceAddr reg count) s
  | some w =>
    match readReply count.toNat w s.response with
    | .waiting => s
    | .raised e => raiseFatal e (takeAnswer s)
    | .returned bs => onBytes bs (takeAnswer s)

/-- The answer step of a state over `ACC.WRITE` (40_bus_accessor.md R102). -/
def finishWrite (w : RequestWord) (onDone : State → State) (s : State) : State :=
  match writeReply w s.response with
  | .waiting => s
  | .raised e => raiseFatal e (takeAnswer s)
  | .returned _ => onDone (takeAnswer s)

/-- A state that has no transaction acts only while PENDING is NONE: "While PENDING is not NONE the block has no step other
than taking the answer and reset" (20_memory.md R55; DEDUCED for such a state, log 5). -/
def whenIdle (s : State) (act : State) : State :=
  match s.pending with
  | none => act
  | some _ => s

/-! ## The accessor run by itself -/

/-- A call returns to the call port (log 14). -/
def returnCall (bs : List Byte) (s : State) : State := { s with call := none, ret := some bs }

/-- A call of the accessor by itself, with its request word and its answer phase: the issue step, then the answer step
(40_bus_accessor.md R100, R102). Another word pending breaks the assertion of the issue phase (log 16). The call's own word
pending is taken as the call's transaction, whoever issued it: R100 and R102 do not say what a call does when a state has
issued that word (DESIGN CHOICE, log 31). -/
def runCall (w : RequestWord) (reply : Option Answer → Reply) (s : State) : Result :=
  match s.pending with
  | none => .next (issueRequest w s)
  | some p =>
    if p = w then
      match reply s.response with
      | .waiting => .next s
      | .raised e => .next (raiseFatal e (takeAnswer s))
      | .returned bs => .next (returnCall bs (takeAnswer s))
    else .fault (.accessorBusy p)

/-! ## Reset and the other agents -/

/-- The reset step (70_reset_and_hazards.md R250): the registers of 10_state.md R42, every validity mark clear, the timer
stopped, and no event. The request is served (log 8), an answer to an abandoned transaction is discarded (R253), and what
stands outside the block (configuration, CANCEL, the schedule, the record of the ports) stays. -/
def takeReset (s : State) : State :=
  { State.reset with
    cfg := s.cfg
    cancel := s.cancel
    schedule := s.schedule
    events := s.events
    txnCount := s.txnCount }

/-- An answer that arrives belongs to the pending transaction, the last one issued, and is the first to it; any other is
discarded (30_encoding.md R72, 70_reset_and_hazards.md R253; log 7). -/
def answerAccepted (n : Nat) (s : State) : Bool :=
  s.pending.isSome && s.response.isNone && n == s.txnCount

/-- The expiry of the interval timer (44_poll_loop.md R194). A timer that is not running does not expire. -/
def expireTimer : Timer → Timer
  | .idle => .idle
  | .running _ => .expired
  | .expired => .expired

/-- The turn of an agent other than the sequencer (00_scope.md R12). -/
def takeTurn (t : Turn) (s : State) : State :=
  match t with
  | .sequencer => s
  | .raiseRst => { s with rst := true }
  | .setCancel level => { s with cancel := level }
  | .answer n a => if answerAccepted n s then { s with response := some a } else s
  | .timerExpires => { s with timer := expireTimer s.timer }

/-! ## Fetch -/

/-- The operation of the sequencer's next step: the one in the call port when a call stands there, else the one STATE
selects (10_state.md R20, 20_memory.md R67; log 14). The empty read has no word and so is not decoded
(40_bus_accessor.md R101). -/
def fetch (s : State) : Except Refusal Instr :=
  match s.call with
  | none => .ok (decodeStateCode s.state)
  | some (.request w) =>
    match decodeRequest w with
    | .ok i => .ok i
    | .error _ => .error (.reservedRequest w)
  | some (.emptyRead reg) => .ok (.accRead s.cfg.deviceAddr reg 0#8)

/-- Place an encoded operation where the next step fetches: a code of at most 8 bits in STATE (entering that state), a
longer one in the call port, under a configuration whose DEVICE_ADDR is the word's DEV. No other turn stands before it
(log 23). -/
def placeWord (nbits w : Nat) (s : State) : State :=
  if nbits ≤ 8 then
    gotoState (BitVec.ofNat 4 w) { s with rst := false, schedule := [], call := none }
  else
    { s with
      rst := false
      schedule := []
      call := some (.request (BitVec.ofNat 32 w))
      cfg := { s.cfg with deviceAddr := reqDev (BitVec.ofNat 32 w) } }

end Sys2Proof.Machine
end

