-- ==== Sys2Proof/Machine/Accessor.lean ====
section
/-! DEFINITION. The bus register accessor run by itself: ACC.READ and ACC.WRITE (40_bus_accessor.md). The states call it
through `runRead` and `finishWrite` of Ops. -/

namespace Sys2Proof.Machine

/-- ACC.READ(reg, count): 40_bus_accessor.md R101 for count 0, R100 for the others. An empty read called while a transaction
is pending returns at once too, and PENDING is kept: R101 speaks of PENDING = NONE only, and 20_memory.md R55 has no such step
(DESIGN CHOICE, log 30). It takes no device operand, so `dev` decides nothing (log 30). -/
def execAccRead (dev : DevAddr) (reg count : Byte) (s : State) : Result :=
  if count = 0#8 then .next (returnCall [] s)
  else if dev = s.cfg.deviceAddr then
    runCall (readWord dev reg count) (readReply count.toNat (readWord dev reg count)) s
  else .refused (.foreignDevice dev)

/-- ACC.WRITE(reg, v): 40_bus_accessor.md R102. -/
def execAccWrite (dev : DevAddr) (reg v : Byte) (s : State) : Result :=
  if dev = s.cfg.deviceAddr then runCall (writeWord dev reg v) (writeReply (writeWord dev reg v)) s
  else .refused (.foreignDevice dev)

end Sys2Proof.Machine
end

