-- ==== Sys2Proof/Machine/Fatal.lean ====
section
/-! DEFINITION. S_TERMINATED and the reserved STATE codes (60_exceptions.md R225, R226; 30_encoding.md R81). -/

namespace Sys2Proof.Machine

/-- S_TERMINATED, 60_exceptions.md R226: the state has no step; only reset leaves it (log 4). -/
def execSTerminated (s : State) : Result := .next s

/-- Any step in a reserved state raises IllegalState, whether or not a transaction is pending (60_exceptions.md R225;
log 20). -/
def raiseIllegalState (s : State) : Result := .next (raiseFatal .illegalState s)

/-- RESERVED_STATE_0xD, 60_exceptions.md R225. -/
def execReservedStateD (s : State) : Result := raiseIllegalState s

/-- RESERVED_STATE_0xE, 60_exceptions.md R225. -/
def execReservedStateE (s : State) : Result := raiseIllegalState s

/-- RESERVED_STATE_0xF, 60_exceptions.md R225. -/
def execReservedStateF (s : State) : Result := raiseIllegalState s

end Sys2Proof.Machine
end

