-- ==== Sys2Proof/Machine/Handshake.lean ====
section
/-! DEFINITION. The device handshake: the states S_ID_READ to S_PWR_VERIFY (41_handshake.md). -/

namespace Sys2Proof.Machine

/-- S_ID_READ, 41_handshake.md R120. -/
def execSIdRead (s : State) : Result :=
  .next (runRead s.cfg.devidReg 1#8
    (fun bs t => gotoState stIdCheck { t with idByte := Reg.written (answerByte bs 0) }) s)

/-- S_ID_CHECK, 41_handshake.md R121: exact 8-bit equality, else DeviceNotFound. -/
def execSIdCheck (s : State) : Result :=
  .next (whenIdle s <|
    if s.idByte.val = s.cfg.expectedDevid then gotoState stPwrRead (noteReads (s.idByte.unmarkedName .idByte) s)
    else raiseFatal (.deviceNotFound s.idByte.val) (noteReads (s.idByte.unmarkedName .idByte) s))

/-- S_PWR_READ, 41_handshake.md R122. -/
def execSPwrRead (s : State) : Result :=
  .next (runRead s.cfg.powerCtlReg 1#8
    (fun bs t => gotoState stPwrSet { t with pwrOld := Reg.written (answerByte bs 0) }) s)

/-- S_PWR_SET, 41_handshake.md R123. -/
def execSPwrSet (s : State) : Result :=
  .next (whenIdle s <|
    gotoState stPwrWrite
      { noteReads (s.pwrOld.unmarkedName .pwrOld) s with pwrNew := Reg.written (setMeasureBit s.pwrOld.val) })

/-- S_PWR_WRITE, 41_handshake.md R124: PWR_NEW is read in the issue step only. -/
def execSPwrWrite (s : State) : Result :=
  .next (match s.pending with
    | none =>
      issueRequest (writeWord s.cfg.deviceAddr s.cfg.powerCtlReg s.pwrNew.val)
        (noteReads (s.pwrNew.unmarkedName .pwrNew) s)
    | some w => finishWrite w (gotoState stPwrVerify) s)

/-- S_PWR_VERIFY, 41_handshake.md R125: the re-read byte is logged and compared with nothing. -/
def execSPwrVerify (s : State) : Result :=
  .next (runRead s.cfg.powerCtlReg 1#8
    (fun bs t => gotoState stPollRead
      (emit [.log (answerByte bs 0)]
        { t with pwrVerify := Reg.written (answerByte bs 0), devState := true })) s)

end Sys2Proof.Machine
end

