-- ==== Sys2Proof/Machine/Binary64.lean ====
section
/-! DEFINITION. The binary64 primitives of 00_scope.md R10: f64, f64_div, f64_sub and f64_lt of IEEE 754, rounded to
nearest, ties to even, on the layout of 30_encoding.md R86. Each works on exact integers and rounds once. -/

namespace Sys2Proof.Machine

/-! ## The fields, 30_encoding.md R86 -/

/-- Bit 63. -/
def f64Sign (v : F64) : Bool := v.getLsbD 63

/-- The biased exponent, bits 62:52. -/
def f64ExpField (v : F64) : Nat := v.toNat / 4503599627370496 % 2048

/-- The fraction, bits 51:0. -/
def f64Fraction (v : F64) : Nat := v.toNat % 4503599627370496

/-- Exponent and fraction together: the word without its sign. -/
def f64Magnitude (v : F64) : Nat := v.toNat % 9223372036854775808

/-- The magnitude of infinity, 0x7FF0000000000000. -/
def f64InfMagnitude : Nat := 9218868437227405312

/-- The word with this sign and this magnitude. -/
def f64OfMagnitude (neg : Bool) (mag : Nat) : F64 :=
  BitVec.ofNat 64 ((if neg then 9223372036854775808 else 0) + mag)

def f64IsNaN (v : F64) : Bool := f64InfMagnitude < f64Magnitude v

def f64IsInf (v : F64) : Bool := f64Magnitude v == f64InfMagnitude

def f64IsZero (v : F64) : Bool := f64Magnitude v == 0

def f64IsFinite (v : F64) : Bool := f64Magnitude v < f64InfMagnitude

/-- +0.0, bit pattern 0x0000000000000000 (00_scope.md R10). -/
abbrev f64PosZero : F64 := 0x0000000000000000#64

/-! ## The exact value of a finite word: (-1)^sign * num / den -/

/-- The integer significand, with the hidden bit of a normal number. -/
def f64Significand (v : F64) : Nat :=
  if f64ExpField v = 0 then f64Fraction v else 4503599627370496 + f64Fraction v

/-- The exponent of the significand's lowest bit, plus 1074. -/
def f64Scale (v : F64) : Nat := if f64ExpField v = 0 then 0 else f64ExpField v - 1

/-- The numerator of the absolute value. -/
def f64Num (v : F64) : Nat :=
  if 1074 ≤ f64Scale v then f64Significand v * 2 ^ (f64Scale v - 1074) else f64Significand v

/-- The denominator of the absolute value. -/
def f64Den (v : F64) : Nat := if 1074 ≤ f64Scale v then 1 else 2 ^ (1074 - f64Scale v)

/-- The numerator with its sign. -/
def f64SignedNum (v : F64) : Int := if f64Sign v then -(f64Num v : Int) else (f64Num v : Int)

/-! ## Rounding -/

/-- num / den to the nearest integer, ties to even. -/
def roundDiv (num den : Nat) : Nat :=
  if 2 * (num % den) < den then num / den
  else if den < 2 * (num % den) then num / den + 1
  else num / den + num / den % 2

/-- The numerator of num / den / 2^q over the denominator of `scaleDen`. -/
def scaleNum (num : Nat) (q : Int) : Nat := if 0 ≤ q then num else num * 2 ^ (-q).toNat

/-- The denominator that goes with `scaleNum`. -/
def scaleDen (den : Nat) (q : Int) : Nat := if 0 ≤ q then den * 2 ^ q.toNat else den

/-- The exponent of num / den: the e with 2^e ≤ num / den < 2^(e+1), for num and den above 0. -/
def ratioExp (num den : Nat) : Int :=
  let e : Int := (Nat.log2 num : Int) - (Nat.log2 den : Int)
  if scaleDen den e ≤ scaleNum num e then e else e - 1

/-- The exponent a result is rounded at: that of a normal number, and never below the subnormals'. -/
def roundExp (num den : Nat) : Int := max (ratioExp num den) (-1022)

/-- The magnitude nearest to num / den. The integer significand is added to the exponent field, so a carry out of it moves
to the next exponent; at or above 2^1024 the result is infinity. -/
def nearestMagnitude (num den : Nat) : Nat :=
  let e := roundExp num den
  min ((e + 1022).toNat * 4503599627370496 + roundDiv (scaleNum num (e - 52)) (scaleDen den (e - 52))) f64InfMagnitude

/-- The binary64 word nearest to num / den with this sign. -/
def roundRatio (neg : Bool) (num den : Nat) : F64 :=
  f64OfMagnitude neg (if num = 0 then 0 else nearestMagnitude num den)

/-! ## The primitives, 00_scope.md R10 -/

/-- f64(n): the binary64 value of an integer, exact below 2^53. -/
def f64OfInt (n : Int) : F64 := roundRatio (decide (n < 0)) n.natAbs 1

/-- f64_div(a, b). -/
def f64Div (a b : F64) : F64 :=
  if f64IsNaN a || f64IsNaN b then Config.nanBits a b
  else if f64IsInf a then
    (if f64IsInf b then Config.nanBits a b else f64OfMagnitude (f64Sign a ^^ f64Sign b) f64InfMagnitude)
  else if f64IsInf b then f64OfMagnitude (f64Sign a ^^ f64Sign b) 0
  else if f64IsZero b then
    (if f64IsZero a then Config.nanBits a b else f64OfMagnitude (f64Sign a ^^ f64Sign b) f64InfMagnitude)
  else roundRatio (f64Sign a ^^ f64Sign b) (f64Num a * f64Den b) (f64Den a * f64Num b)

/-- The exact difference of two finite words, over `f64Den a * f64Den b`. -/
def f64ExactDiff (a b : F64) : Int :=
  f64SignedNum a * (f64Den b : Int) - f64SignedNum b * (f64Den a : Int)

/-- f64_sub(a, b). An exact zero is +0.0, but (-0.0) - (+0.0) is -0.0, as IEEE 754 has it for this rounding. -/
def f64Sub (a b : F64) : F64 :=
  if f64IsNaN a || f64IsNaN b then Config.nanBits a b
  else if f64IsInf a then (if f64IsInf b && (f64Sign a == f64Sign b) then Config.nanBits a b else a)
  else if f64IsInf b then f64OfMagnitude (!f64Sign b) f64InfMagnitude
  else if f64ExactDiff a b = 0 then f64OfMagnitude (f64IsZero a && f64Sign a && !f64Sign b) 0
  else roundRatio (decide (f64ExactDiff a b < 0)) (f64ExactDiff a b).natAbs (f64Den a * f64Den b)

/-- A finite or infinite word as a number that orders as its value does; both zeros are 0. -/
def f64Order (v : F64) : Int := if f64Sign v then -(f64Magnitude v : Int) else (f64Magnitude v : Int)

/-- f64_lt(a, b): false when an operand is a NaN. -/
def f64Lt (a b : F64) : Bool := !f64IsNaN a && !f64IsNaN b && decide (f64Order a < f64Order b)

end Sys2Proof.Machine
end

