-- ==== Sys2Proof/Machine/Mapper.lean ====
section
/-! DEFINITION. The range mapper: MAPRANGE, TOOUT, CLAMP, OUTVAL, COMPL and the state S_MAP (43_range_mapper.md). -/

namespace Sys2Proof.Machine

/-- MAPRANGE(s), 43_range_mapper.md R160: the source's formula with the floor division of 00_scope.md R10. -/
def mapRange (s : Int) : Int :=
  Int.fdiv ((s - Config.mapInLow) * (Config.mapOutHigh - Config.mapOutLow)) (Config.mapInHigh - Config.mapInLow)
    + Config.mapOutLow

/-- The shift form of MAPRANGE that 43_range_mapper.md R161 gives a hardware datapath. -/
def mapRangeShift (s : Int) : Int :=
  Int.fdiv ((s + 512) * 2 ^ 10 - (s + 512) * 2 ^ 4 - (s + 512) * 2 ^ 3) (2 ^ 10)

/-- TOOUT(m), 43_range_mapper.md R162. -/
def toOut (m : Int) : F64 := f64Div (f64OfInt m) (f64OfInt Config.outDivisor)

/-- CLAMP(v), 43_range_mapper.md R163: only the negative side. -/
def clamp (v : F64) : F64 := if f64Lt v f64PosZero then f64PosZero else v

/-- OUTVAL(s), 43_range_mapper.md R164. -/
def outVal (s : Int) : F64 := clamp (toOut (mapRange s))

/-- COMPL(v), 43_range_mapper.md R165: no clamp. -/
def compl (v : F64) : F64 := f64Sub (f64OfInt Config.complCeiling) v

/-- S_MAP, 43_range_mapper.md R166: the complement is taken of the clamped value. -/
def execSMap (s : State) : Result :=
  .next (whenIdle s <|
    gotoState stPublish
      { noteReads (s.ax.unmarkedNames .ax) s with
        mapped := Axes.written (s.ax.vals.map fun v => BitVec.ofInt 32 (mapRange v.toInt))
        out := Axes.written (s.ax.vals.map fun v => outVal v.toInt)
        comp := Axes.written (s.ax.vals.map fun v => compl (outVal v.toInt)) })

end Sys2Proof.Machine
end

