-- ==== Sys2Proof/Machine/PollLoop.lean ====
section
/-! DEFINITION. The poll loop's own states: S_PUBLISH with the display text, S_WAIT and S_STOPPED (44_poll_loop.md). -/

namespace Sys2Proof.Machine

/-! ## The display text, 44_poll_loop.md R193 and 30_encoding.md R87 -/

/-- The ASCII code of a decimal digit. -/
def digit (n : Nat) : Byte := BitVec.ofNat 8 (0x30 + n % 10)

/-- The decimal digits of `n` before `tail`; `fuel` bounds their number. -/
def decimalOnto : Nat → Nat → Ascii → Ascii
  | 0, _, tail => tail
  | fuel + 1, n, tail =>
    if n < 10 then digit n :: tail else decimalOnto fuel (n / 10) (digit n :: tail)

/-- The decimal digits of `n`, with no leading zeros and "0" for zero. -/
def decimal (n : Nat) : Ascii := decimalOnto (n + 1) n []

/-- FMT2(k): the digits of k // 100, then ".", then two digits of k mod 100. The spec defines it up to 32499; above, the
text is free (log 13). -/
def fmt2 (k : Nat) : Ascii :=
  if k ≤ 32499 then decimal (k / 100) ++ [0x2E#8, digit (k % 100 / 10), digit (k % 10)]
  else Config.fmt2Beyond k

/-- The letter of an axis. -/
def axisLetter : Axis → Byte
  | .x => 0x58#8
  | .y => 0x59#8
  | .z => 0x5A#8

/-- LINE(A) for the MAPPED value of the axis: letter, ':', space, FMT2(max(MAPPED, 0)). -/
def displayLine (a : Axis) (mapped : BitVec 32) : Ascii :=
  [axisLetter a, 0x3A#8, 0x20#8] ++ fmt2 (max mapped.toInt 0).toNat

/-- The three lines, in the order X, Y, Z. -/
def displayLines (m : Axes (BitVec 32)) : List Ascii :=
  [displayLine .x m.x, displayLine .y m.y, displayLine .z m.z]

/-- The eight events of a publish, in their order, with the channels of 44_poll_loop.md R199. -/
def publishEvents (m : Axes (BitVec 32)) (o c : Axes F64) : List Event :=
  [ .displayClear, .displayText (displayLines m),
    .analogSet 1#3 o.x, .analogSet 2#3 o.y, .analogSet 3#3 o.z,
    .analogSet 4#3 c.x, .analogSet 5#3 c.y, .analogSet 6#3 c.z ]

/-! ## The states -/

/-- S_PUBLISH, 44_poll_loop.md R192: one step, eight events, and on to S_WAIT. -/
def execSPublish (s : State) : Result :=
  .next (whenIdle s <|
    gotoState stWait (emit (publishEvents s.mapped.vals s.out.vals s.comp.vals)
      (noteReads (s.mapped.unmarkedNames .mapped ++ s.out.unmarkedNames .out ++ s.comp.unmarkedNames .comp) s)))

/-- S_WAIT, 44_poll_loop.md R194: enabled when the timer has expired. Until then the block has no step (log 4). -/
def execSWait (s : State) : Result :=
  .next (whenIdle s <| if s.timer = .expired then gotoState stPollRead s else s)

/-- S_STOPPED, 44_poll_loop.md R195: the state has no step; only reset leaves it (log 4). -/
def execSStopped (s : State) : Result := .next s

end Sys2Proof.Machine
end

