-- ==== Sys2Proof/Machine/Sample.lean ====
section
/-! DEFINITION. The sample read and the decoder: S_POLL_READ and S_DECODE (42_sample_decoder.md). -/

namespace Sys2Proof.Machine

/-- S_POLL_READ, 42_sample_decoder.md R141: CANCEL is sampled in the issue step only (44_poll_loop.md R196). -/
def execSPollRead (s : State) : Result :=
  .next (if s.pending.isNone && s.cancel then gotoState stStopped s
    else runRead s.cfg.dataStart Config.rawBlockLength
      (fun bs t => gotoState stDecode { t with raw := rawOfAnswer bs }) s)

/-- S_DECODE, 42_sample_decoder.md R142. -/
def execSDecode (s : State) : Result :=
  .next (whenIdle s <|
    gotoState stMap
      { noteReads s.raw.unmarkedNames s with
        ax := Axes.written ((samplesOf s.raw.bytes).map (BitVec.ofInt 16)) })

end Sys2Proof.Machine
end

