-- ==== Sys2Proof/Machine/Dispatch.lean ====
section
/-! DEFINITION. One arm per operation. -/

namespace Sys2Proof.Machine

def exec (i : Instr) (s : State) : Host.Outcome State Fault Refusal :=
  match i with
  | .accRead dev reg count => Sys2Proof.Machine.execAccRead dev reg count s
  | .accWrite dev reg v => Sys2Proof.Machine.execAccWrite dev reg v s
  | .sIdRead => Sys2Proof.Machine.execSIdRead s
  | .sIdCheck => Sys2Proof.Machine.execSIdCheck s
  | .sPwrRead => Sys2Proof.Machine.execSPwrRead s
  | .sPwrSet => Sys2Proof.Machine.execSPwrSet s
  | .sPwrWrite => Sys2Proof.Machine.execSPwrWrite s
  | .sPwrVerify => Sys2Proof.Machine.execSPwrVerify s
  | .sPollRead => Sys2Proof.Machine.execSPollRead s
  | .sDecode => Sys2Proof.Machine.execSDecode s
  | .sMap => Sys2Proof.Machine.execSMap s
  | .sPublish => Sys2Proof.Machine.execSPublish s
  | .sWait => Sys2Proof.Machine.execSWait s
  | .sStopped => Sys2Proof.Machine.execSStopped s
  | .sTerminated => Sys2Proof.Machine.execSTerminated s
  | .reservedStateD => Sys2Proof.Machine.execReservedStateD s
  | .reservedStateE => Sys2Proof.Machine.execReservedStateE s
  | .reservedStateF => Sys2Proof.Machine.execReservedStateF s

end Sys2Proof.Machine
end

