-- ==== Sys2Proof/Machine/Step.lean ====
section
/-! DEFINITION. One step of the machine: one atomic transition of one agent (00_scope.md R11, R12). -/

namespace Sys2Proof.Machine

/-- A step of the sequencer: the operation it fetches. -/
def runSequencer (s : State) : Result :=
  match fetch s with
  | .ok i => exec i s
  | .error r => .refused r

/-- A requested reset is taken before every other step (60_exceptions.md R227). Else the agent whose turn the schedule
names moves; with no turn left, the sequencer (log 6). -/
def step (s : State) : Host.Outcome State Fault Refusal :=
  if s.rst then .next (takeReset s)
  else
    match s.schedule with
    | [] => runSequencer s
    | .sequencer :: later => runSequencer { s with schedule := later }
    | .raiseRst :: later => .next (takeTurn .raiseRst { s with schedule := later })
    | .setCancel level :: later => .next (takeTurn (.setCancel level) { s with schedule := later })
    | .answer n a :: later => .next (takeTurn (.answer n a) { s with schedule := later })
    | .timerExpires :: later => .next (takeTurn .timerExpires { s with schedule := later })

/-- The state whose next step fetches and runs the operation with these bits (log 23). -/
def State.withFetchWord (s : State) (nbits w : Nat) : State := placeWord nbits w s

end Sys2Proof.Machine
end

