-- ==== Sys2Proof/Safety.lean ====
section
/-! DEFINITION. What a run of the block keeps: the legal STATE codes and transitions (10_state.md R20, R21), the request each
state issues (30_encoding.md R80, R82), the invariant of the block (70_reset_and_hazards.md R255 and what 10_state.md R24 and
R34 need), and the launch states of a run (44_poll_loop.md R198). -/

namespace Sys2Proof.Machine

/-! ## STATE and its transitions -/

/-- A code of 30_encoding.md R80: not one of the reserved 0xD, 0xE and 0xF (R81). -/
def LegalCode (c : StateCode) : Prop := c.toNat ≤ 12

/-- The transitions of 10_state.md R21 that are not a reset. -/
def legalTransitions : List (StateCode × StateCode) :=
  [ (stIdRead, stIdCheck),
    (stIdCheck, stPwrRead), (stIdCheck, stTerminated),
    (stPwrRead, stPwrSet),
    (stPwrSet, stPwrWrite),
    (stPwrWrite, stPwrVerify),
    (stPwrVerify, stPollRead),
    (stPollRead, stDecode), (stPollRead, stStopped),
    (stDecode, stMap),
    (stMap, stPublish),
    (stPublish, stWait),
    (stWait, stPollRead),
    (stIdRead, stTerminated), (stPwrRead, stTerminated), (stPwrWrite, stTerminated),
    (stPwrVerify, stTerminated), (stPollRead, stTerminated) ]

/-! ## Requests -/

/-- The request word a state issues (30_encoding.md R80, R82): W_ID, W_PR, W_PW(PWR_NEW), W_PR, W_DATA, or none. -/
def requestOf (s : State) : Option RequestWord :=
  if s.state = stIdRead then some (readWord s.cfg.deviceAddr s.cfg.devidReg 1#8)
  else if s.state = stPwrRead ∨ s.state = stPwrVerify then
    some (readWord s.cfg.deviceAddr s.cfg.powerCtlReg 1#8)
  else if s.state = stPwrWrite then
    some (writeWord s.cfg.deviceAddr s.cfg.powerCtlReg s.pwrNew.val)
  else if s.state = stPollRead then some (readWord s.cfg.deviceAddr s.cfg.dataStart 6#8)
  else none

/-! ## Marks -/

/-- All three registers of an axis file hold a value. -/
def Axes.AllValid {w : Nat} (a : Axes (Reg w)) : Prop := a.x.valid = true ∧ a.y.valid = true ∧ a.z.valid = true

/-- All six RAW registers hold a value. -/
def Raw.AllValid (r : Raw) : Prop :=
  r.b0.valid = true ∧ r.b1.valid = true ∧ r.b2.valid = true ∧
  r.b3.valid = true ∧ r.b4.valid = true ∧ r.b5.valid = true

/-- The validity mark of a register, by its name (10_state.md R34). -/
def markOf (s : State) : RegName → Bool
  | .idByte => s.idByte.valid
  | .pwrOld => s.pwrOld.valid
  | .pwrNew => s.pwrNew.valid
  | .pwrVerify => s.pwrVerify.valid
  | .raw 0 => s.raw.b0.valid
  | .raw 1 => s.raw.b1.valid
  | .raw 2 => s.raw.b2.valid
  | .raw 3 => s.raw.b3.valid
  | .raw 4 => s.raw.b4.valid
  | .raw 5 => s.raw.b5.valid
  | .ax a => (s.ax.get a).valid
  | .mapped a => (s.mapped.get a).valid
  | .out a => (s.out.get a).valid
  | .comp a => (s.comp.get a).valid

/-- The working registers an operation reads while PENDING is NONE, in the order of its rule (41_handshake.md R121, R123,
R124, 42_sample_decoder.md R142, 43_range_mapper.md R166, 44_poll_loop.md R192). -/
def readsOf : Instr → List RegName
  | .accRead _ _ _ => []
  | .accWrite _ _ _ => []
  | .sIdRead => []
  | .sIdCheck => [.idByte]
  | .sPwrRead => []
  | .sPwrSet => [.pwrOld]
  | .sPwrWrite => [.pwrNew]
  | .sPwrVerify => []
  | .sPollRead => []
  | .sDecode => [.raw 0, .raw 1, .raw 2, .raw 3, .raw 4, .raw 5]
  | .sMap => [.ax .x, .ax .y, .ax .z]
  | .sPublish =>
    [.mapped .x, .mapped .y, .mapped .z, .out .x, .out .y, .out .z, .comp .x, .comp .y, .comp .z]
  | .sWait => []
  | .sStopped => []
  | .sTerminated => []
  | .reservedStateD => []
  | .reservedStateE => []
  | .reservedStateF => []

/-- The registers an operation reads whose mark is clear: what the model records of the model fault of 10_state.md R34
(log 3). -/
def unmarkedReadsOf (i : Instr) (s : State) : List RegName := (readsOf i).filter fun r => !markOf s r

/-! ## The fault record -/

/-- The error came in the poll loop: a failed or malformed answer to the six-byte read, the one request only S_POLL_READ
issues (30_encoding.md R80). -/
def Exc.InPollLoop : Exc → Prop
  | .deviceNotFound _ => False
  | .transportFailure w => reqCount w = 6#8 ∧ reqIsWrite w = false
  | .malformedResponse w => reqCount w = 6#8 ∧ reqIsWrite w = false
  | .illegalState => False

/-- ERR is the code of the recorded exception, and 0 when none is recorded (10_state.md R23). -/
def errOf : Option Exc → ErrCode
  | none => 0#3
  | some e => excCode e

/-! ## The invariant -/

/-- What every state of a run satisfies. -/
structure Inv (s : State) : Prop where
  /-- No call stands in the call port: the fixed sequence uses none (40_bus_accessor.md). -/
  noCall : s.call = none
  /-- STATE holds a code of 30_encoding.md R80 (R81). -/
  legal : LegalCode s.state
  /-- DEV_STATE is 0 in S_ID_READ to S_PWR_VERIFY (70_reset_and_hazards.md R255). -/
  devInHandshake : s.state.toNat ≤ 5 → s.devState = false
  /-- DEV_STATE is 1 in S_POLL_READ to S_WAIT and in S_STOPPED (70_reset_and_hazards.md R255). -/
  devInPolling : 6 ≤ s.state.toNat → s.state.toNat ≤ 11 → s.devState = true
  /-- In S_TERMINATED, DEV_STATE is 1 exactly when the error came in the poll loop (70_reset_and_hazards.md R255). -/
  devInTerminated : ∀ e, s.faultRec = some e → (s.devState = true ↔ e.InPollLoop)
  /-- An error is recorded exactly in S_TERMINATED (60_exceptions.md R224, R226). -/
  recorded : s.state = stTerminated ↔ s.faultRec.isSome = true
  /-- ERR is the code of the recorded error. -/
  errCode : s.err = errOf s.faultRec
  /-- PENDING is NONE or the request word of the state (20_memory.md R55, 30_encoding.md R82). -/
  pendingWord : ∀ w, s.pending = some w → requestOf s = some w
  /-- No answer waits without a request (30_encoding.md R72). -/
  answerPaired : s.response.isSome = true → s.pending.isSome = true
  /-- No register was read while its mark was clear: the model fault of 10_state.md R34 has not happened. -/
  noUnmarkedRead : s.unmarkedReads = []
  /-- The registers the state reads hold a value (10_state.md R34). -/
  idByteValid : s.state = stIdCheck → s.idByte.valid = true
  pwrOldValid : s.state = stPwrSet → s.pwrOld.valid = true
  pwrNewValid : s.state = stPwrWrite → s.pwrNew.valid = true
  rawValid : s.state = stDecode → s.raw.AllValid
  axValid : s.state = stMap → s.ax.AllValid
  publishValid : s.state = stPublish → s.mapped.AllValid ∧ s.out.AllValid ∧ s.comp.AllValid
  /-- In S_WAIT the interval timer has been started (44_poll_loop.md R194). -/
  timerStarted : s.state = stWait → s.timer ≠ .idle

/-! ## Runs -/

/-- The machine at a reset, with a configuration and the turns to come (44_poll_loop.md R198, 70_reset_and_hazards.md R254):
how a run starts. -/
def launch (cfg : Config) (turns : List Turn) : State := { State.reset with cfg := cfg, schedule := turns }

/-- No turn of the schedule requests a reset. -/
def NoReset (turns : List Turn) : Prop := Turn.raiseRst ∉ turns

/-- No turn of the schedule is an answer of the transport: a silent transport (70_reset_and_hazards.md R260). -/
def Silent (turns : List Turn) : Prop := ∀ n a, Turn.answer n a ∉ turns

/-- The events of a list that go to the display or the analog sink (10_state.md R38). -/
def sinkEvents : List Event → List Event
  | [] => []
  | .txn _ :: es => sinkEvents es
  | .displayClear :: es => .displayClear :: sinkEvents es
  | .displayText l :: es => .displayText l :: sinkEvents es
  | .analogSet c v :: es => .analogSet c v :: sinkEvents es
  | .log _ :: es => sinkEvents es
  | .diag _ :: es => sinkEvents es

/-- The request words of a list of events, in order (60_exceptions.md R234). -/
def txnWords : List Event → List RequestWord
  | [] => []
  | .txn w :: es => w :: txnWords es
  | .displayClear :: es => txnWords es
  | .displayText _ :: es => txnWords es
  | .analogSet _ _ :: es => txnWords es
  | .log _ :: es => txnWords es
  | .diag _ :: es => txnWords es

/-! ## The end of a fatal step, as statements spell it -/

/-- 60_exceptions.md R224 written out: ERR, PENDING, the DIAG event and STATE, with the model's record of the exception
(log 19) and of what belonged to PENDING (log 21); every other field is that of `s`. -/
def fatalEnd (code : ErrCode) (e : Exc) (s : State) : State :=
  { s with
    err := code
    pending := none
    response := none
    events := s.events ++ [.diag code]
    state := 0xC#4
    faultRec := some e
    call := none }

/-- Apply a function to the next state of an outcome. -/
def onNext (f : State → State) : Result → Result
  | .next t => .next (f t)
  | .fault r => .fault r
  | .refused r => .refused r

/-! ## Binary64 values as rational numbers -/

/-- The number a finite binary64 word stands for (30_encoding.md R86). -/
def f64Value (v : F64) : ℚ := (f64SignedNum v : ℚ) / (f64Den v : ℚ)

/-- `v` is the finite word nearest to `x`, and the one with an even last bit where two are equally near: "rounded to
nearest, ties to even" (00_scope.md R10). -/
def IsNearestEven (v : F64) (x : ℚ) : Prop :=
  f64IsFinite v = true ∧
  ∀ u : F64, f64IsFinite u = true →
    |f64Value v - x| ≤ |f64Value u - x| ∧
    (|f64Value v - x| = |f64Value u - x| → f64Value u ≠ f64Value v → v.toNat % 2 = 0)

/-! ## The display text as numbers -/

/-- The number a list of ASCII digits spells. -/
def digitsValue (ds : Ascii) : Nat := ds.foldl (fun n b => 10 * n + (b.toNat - 0x30)) 0

/-- An ASCII decimal digit. -/
def IsDigit (b : Byte) : Prop := 0x30 ≤ b.toNat ∧ b.toNat ≤ 0x39

end Sys2Proof.Machine
end

