-- ==== Sys2Proof/Certificates/Slice0/Obligations.lean ====
section
/-! DEFINITION. The statements about the model. Each docstring names the rule of spec/ it formalises. Where a statement rests
on a choice of the model, it says so and names the log entry. -/

open Sys2Proof Sys2Proof.Machine

/-! ## Encodings -/

/-- 30_encoding.md R74, R75, R80, R81: decoding the encoding of a well-formed operation gives it back. -/
def Obligations.DecodeEncodeRoundTrip : Prop :=
  ∀ i : Instr, i.wellFormed = true → decode (encode i) = .ok i

/-- 30_encoding.md R76, R90: an encoded object that decodes is the encoding of the operation it decodes to, and that
operation is well formed; so no two objects share an operation. -/
def Obligations.EncodeDecodeRoundTrip : Prop :=
  ∀ (c : Code) (i : Instr), decode c = .ok i → encode i = c ∧ i.wellFormed = true

/-- 30_encoding.md R76: the request words the decoder refuses are the reserved ones, and no step whose call port is empty
issues a reserved word. -/
def Obligations.ReservedRequestWords : Prop :=
  (∀ w : RequestWord, (∃ e, decodeRequest w = .error e) ↔
    (w.getLsbD 31 = false ∧ w.extractLsb' 8 8 = 0#8) ∨
    (w.getLsbD 31 = false ∧ w.extractLsb' 0 8 ≠ 0#8) ∨
    (w.getLsbD 31 = true ∧ w.extractLsb' 8 8 ≠ 1#8)) ∧
  (∀ (s t : State) (w : RequestWord), s.call = none → step s = .next t → t.events = s.events ++ [.txn w] →
    ∃ i, decodeRequest w = .ok i)

/-- A few words written out from 30_encoding.md R74, R75, R80 (the words of 40_bus_accessor.md R100, R102 under CFG-T). -/
def Obligations.SampleWordsDecode : Prop :=
  decodeTableWord 32 0x53320600 = some (.accRead 0x53#7 0x32#8 6#8) ∧
  decodeTableWord 32 0xD32D0108 = some (.accWrite 0x53#7 0x2D#8 0x08#8) ∧
  decodeTableWord 8 0x0 = some .sIdRead ∧
  decodeTableWord 8 0x6 = some .sPollRead ∧
  decodeTableWord 8 0x8 = some .sMap ∧
  decodeTableWord 8 0x9 = some .sPublish ∧
  decodeTableWord 8 0xC = some .sTerminated ∧
  decodeTableWord 8 0xF = some .reservedStateF

/-- 00_scope.md R7: the check accepts exactly the configurations whose values fit their widths with
DATA_START_REG <= 0xFA, and keeps every value. -/
def Obligations.ConfigurationCheck : Prop :=
  ∀ r : RawConfig,
    ((∃ c, r.check = .ok c) ↔
      r.deviceAddr < 2 ^ 7 ∧ r.devidReg < 2 ^ 8 ∧ r.powerCtlReg < 2 ^ 8 ∧ r.dataStartReg ≤ 0xFA ∧
      r.expectedDevid < 2 ^ 8) ∧
    (∀ c, r.check = .ok c →
      c.deviceAddr.toNat = r.deviceAddr ∧ c.devidReg.toNat = r.devidReg ∧ c.powerCtlReg.toNat = r.powerCtlReg ∧
      c.dataStart.toNat = r.dataStartReg ∧ c.expectedDevid.toNat = r.expectedDevid ∧
      c.pollInterval = r.pollInterval)

/-! ## A step runs the decoded operation -/

/-- 10_state.md R20: when no reset is requested and the turn is the sequencer's, a step is `exec` of the operation that the
object under the fetch decodes to (STATE while no call stands in the call port, else the word of the call, log 14), at the
state whose schedule has lost that turn (log 6). -/
def Obligations.StepRunsDecodedInstruction : Prop :=
  ∀ (s : State) (later : List Turn) (c : Code) (i : Instr),
    s.rst = false →
    ((s.schedule = [] ∧ later = []) ∨ s.schedule = .sequencer :: later) →
    ((s.call = none ∧ c = .state s.state) ∨ ∃ w, s.call = some (.request w) ∧ c = .request w) →
    decode c = .ok i →
    i.wellFormed = true →
    step s = exec i { s with schedule := later }

/-! ## The accessor by itself -/

/-- 40_bus_accessor.md R100, 20_memory.md R55: ACC.READ with count at least 1 issues its word, waits, and completes with the
bytes of a DATA answer of the right length; FAIL and malformed answers take the fatal-error sequence. That the call port
empties and that the bytes stand in `ret` is the model's choice (log 14). For reg + count - 1 above 0xFF the statement rests on
log 17, since R100 and 20_memory.md R58 leave such a read out of the model. Where a state, and not the call, has issued the
pending word `w`, that the call takes the transaction as its own is the model's choice (log 31). -/
def Obligations.AccReadTransaction : Prop :=
  ∀ (s : State) (reg count : Byte) (w : RequestWord), count ≠ 0#8 →
    w = 0#1 ++ s.cfg.deviceAddr ++ reg ++ count ++ 0x00#8 →
    (s.pending = none →
      exec (.accRead s.cfg.deviceAddr reg count) s =
        .next { s with pending := some w, events := s.events ++ [.txn w], txnCount := s.txnCount + 1 }) ∧
    (s.pending = some w → s.response = none →
      exec (.accRead s.cfg.deviceAddr reg count) s = .next s) ∧
    (∀ bs : List Byte, s.pending = some w → s.response = some (.data bs) → bs.length = count.toNat →
      exec (.accRead s.cfg.deviceAddr reg count) s =
        .next { s with pending := none, response := none, call := none, ret := some bs }) ∧
    (s.pending = some w → s.response = some .fail →
      exec (.accRead s.cfg.deviceAddr reg count) s = .next (fatalEnd 2#3 (.transportFailure w) s)) ∧
    (∀ a : Answer, s.pending = some w → s.response = some a → a ≠ .fail →
      (∀ bs, a = .data bs → bs.length ≠ count.toNat) →
      exec (.accRead s.cfg.deviceAddr reg count) s = .next (fatalEnd 3#3 (.malformedResponse w) s))

/-- 40_bus_accessor.md R101: ACC.READ with count 0 returns the empty list in the calling step; PENDING stays as it is, no
event leaves; and the call, which has no word, runs as the sequencer's step. (The call port, where a call returns to, and the
turn are the model's own, logs 14 and 6. That the call also completes at once while a transaction is pending, where R101 and
20_memory.md R55 leave the case open, is the model's choice, log 30.) -/
def Obligations.EmptyReadReturnsAtOnce : Prop :=
  (∀ (s : State) (dev : DevAddr) (reg : Byte),
    exec (.accRead dev reg 0#8) s = .next { s with call := none, ret := some [] }) ∧
  (∀ (s : State) (reg : Byte) (later : List Turn), s.rst = false →
    ((s.schedule = [] ∧ later = []) ∨ s.schedule = .sequencer :: later) → s.call = some (.emptyRead reg) →
    step s = .next { s with schedule := later, call := none, ret := some [] })

/-- 40_bus_accessor.md R102, 20_memory.md R54, R55: ACC.WRITE issues its word, waits, and completes on ACK; FAIL and
malformed answers take the fatal-error sequence. R102 gives a write no return value; that the call port empties and that `ret` is
the empty list is the model's choice (log 14); so is it, where a state has issued the pending word `w`, that the call takes the
transaction as its own (log 31). -/
def Obligations.AccWriteTransaction : Prop :=
  ∀ (s : State) (reg v : Byte) (w : RequestWord), w = 1#1 ++ s.cfg.deviceAddr ++ reg ++ 0x01#8 ++ v →
    (s.pending = none →
      exec (.accWrite s.cfg.deviceAddr reg v) s =
        .next { s with pending := some w, events := s.events ++ [.txn w], txnCount := s.txnCount + 1 }) ∧
    (s.pending = some w → s.response = none → exec (.accWrite s.cfg.deviceAddr reg v) s = .next s) ∧
    (s.pending = some w → s.response = some .ack →
      exec (.accWrite s.cfg.deviceAddr reg v) s =
        .next { s with pending := none, response := none, call := none, ret := some [] }) ∧
    (s.pending = some w → s.response = some .fail →
      exec (.accWrite s.cfg.deviceAddr reg v) s = .next (fatalEnd 2#3 (.transportFailure w) s)) ∧
    (∀ a : Answer, s.pending = some w → s.response = some a → a ≠ .fail → a ≠ .ack →
      exec (.accWrite s.cfg.deviceAddr reg v) s = .next (fatalEnd 3#3 (.malformedResponse w) s))

/-- Where the accessor run by itself stops, which is the model's reading (log 15, log 16): a word with another DEV than
DEVICE_ADDR is refused (40_bus_accessor.md R105), and a call while another transaction is pending breaks the assertion
PENDING = NONE of R100 and R102. -/
def Obligations.AccessorStops : Prop :=
  ∀ (s : State) (dev : DevAddr) (reg count v : Byte), count ≠ 0#8 →
    (dev ≠ s.cfg.deviceAddr →
      exec (.accRead dev reg count) s = .refused (.foreignDevice dev) ∧
      exec (.accWrite dev reg v) s = .refused (.foreignDevice dev)) ∧
    (∀ p, dev = s.cfg.deviceAddr → s.pending = some p → p ≠ 0#1 ++ dev ++ reg ++ count ++ 0x00#8 →
      exec (.accRead dev reg count) s = .fault (.accessorBusy p)) ∧
    (∀ p, dev = s.cfg.deviceAddr → s.pending = some p → p ≠ 1#1 ++ dev ++ reg ++ 0x01#8 ++ v →
      exec (.accWrite dev reg v) s = .fault (.accessorBusy p))

/-! ## The handshake -/

/-- 41_handshake.md R120: S_ID_READ issues W_ID; a one-byte answer goes to ID_BYTE and the state to S_ID_CHECK. -/
def Obligations.IdReadTransaction : Prop :=
  ∀ s : State,
    (∀ w : RequestWord, s.pending = none → w = 0#1 ++ s.cfg.deviceAddr ++ s.cfg.devidReg ++ 1#8 ++ 0x00#8 →
      exec .sIdRead s =
        .next { s with pending := some w, events := s.events ++ [.txn w], txnCount := s.txnCount + 1 }) ∧
    (∀ (w : RequestWord) (b : Byte), s.pending = some w → s.response = some (.data [b]) →
      exec .sIdRead s =
        .next { s with pending := none, response := none, idByte := ⟨b, true⟩, state := 0x1#4 })

/-- 41_handshake.md R121, 60_exceptions.md R224: S_ID_CHECK goes on exactly when ID_BYTE equals EXPECTED_DEVID, and every
other byte takes the fatal-error sequence with code 1. (The record of a read of an unmarked ID_BYTE is the model's, log 3.) -/
def Obligations.IdCheckComparesExactly : Prop :=
  ∀ s : State, s.pending = none →
    (s.idByte.val = s.cfg.expectedDevid →
      exec .sIdCheck s =
        .next { s with state := 0x2#4, unmarkedReads := s.unmarkedReads ++ unmarkedReadsOf .sIdCheck s }) ∧
    (s.idByte.val ≠ s.cfg.expectedDevid →
      exec .sIdCheck s =
        .next (fatalEnd 1#3 (.deviceNotFound s.idByte.val)
          { s with unmarkedReads := s.unmarkedReads ++ unmarkedReadsOf .sIdCheck s }))

/-- 41_handshake.md R122: S_PWR_READ issues W_PR; a one-byte answer goes to PWR_OLD and the state to S_PWR_SET. -/
def Obligations.PwrReadTransaction : Prop :=
  ∀ s : State,
    (∀ w : RequestWord, s.pending = none → w = 0#1 ++ s.cfg.deviceAddr ++ s.cfg.powerCtlReg ++ 1#8 ++ 0x00#8 →
      exec .sPwrRead s =
        .next { s with pending := some w, events := s.events ++ [.txn w], txnCount := s.txnCount + 1 }) ∧
    (∀ (w : RequestWord) (b : Byte), s.pending = some w → s.response = some (.data [b]) →
      exec .sPwrRead s =
        .next { s with pending := none, response := none, pwrOld := ⟨b, true⟩, state := 0x3#4 })

/-- 41_handshake.md R123: S_PWR_SET writes PWR_NEW with bit 3 set and bits 7:4 and 2:0 those of PWR_OLD, and goes to
S_PWR_WRITE; nothing else changes. (The record of a read of an unmarked PWR_OLD is the model's, log 3.) -/
def Obligations.PwrSetSetsBitThree : Prop :=
  ∀ s : State, s.pending = none →
    ∃ new : Byte,
      exec .sPwrSet s =
        .next { s with
          pwrNew := ⟨new, true⟩, state := 0x4#4
          unmarkedReads := s.unmarkedReads ++ unmarkedReadsOf .sPwrSet s } ∧
      new.getLsbD 3 = true ∧ ∀ i, i ≠ 3 → new.getLsbD i = s.pwrOld.val.getLsbD i

/-- 41_handshake.md R124: S_PWR_WRITE issues W_PW(PWR_NEW); ACK goes to S_PWR_VERIFY. (The record of a read of an unmarked
PWR_NEW is the model's, log 3.) -/
def Obligations.PwrWriteTransaction : Prop :=
  ∀ s : State,
    (∀ w : RequestWord, s.pending = none →
      w = 1#1 ++ s.cfg.deviceAddr ++ s.cfg.powerCtlReg ++ 0x01#8 ++ s.pwrNew.val →
      exec .sPwrWrite s =
        .next { s with
          pending := some w, events := s.events ++ [.txn w], txnCount := s.txnCount + 1
          unmarkedReads := s.unmarkedReads ++ unmarkedReadsOf .sPwrWrite s }) ∧
    (∀ w : RequestWord, s.pending = some w → s.response = some .ack →
      exec .sPwrWrite s = .next { s with pending := none, response := none, state := 0x5#4 })

/-- 41_handshake.md R125: S_PWR_VERIFY issues W_PR; whatever byte comes back goes to PWR_VERIFY and to LOG, DEV_STATE is 1
and the state S_POLL_READ. -/
def Obligations.PwrVerifyTransaction : Prop :=
  ∀ s : State,
    (∀ w : RequestWord, s.pending = none → w = 0#1 ++ s.cfg.deviceAddr ++ s.cfg.powerCtlReg ++ 1#8 ++ 0x00#8 →
      exec .sPwrVerify s =
        .next { s with pending := some w, events := s.events ++ [.txn w], txnCount := s.txnCount + 1 }) ∧
    (∀ (w : RequestWord) (b : Byte), s.pending = some w → s.response = some (.data [b]) →
      exec .sPwrVerify s =
        .next { s with pending := none, response := none, pwrVerify := ⟨b, true⟩,
                       events := s.events ++ [.log b], devState := true, state := 0x6#4 })

/-! ## The sample read, the decoder and the mapper -/

/-- 42_sample_decoder.md R141: S_POLL_READ stops when CANCEL is 1 in its issue step, else issues W_DATA; a six-byte answer
goes to RAW whole, whatever CANCEL is then, and the state to S_DECODE. -/
def Obligations.PollReadTransaction : Prop :=
  ∀ s : State,
    (s.pending = none → s.cancel = true → exec .sPollRead s = .next { s with state := 0xB#4 }) ∧
    (∀ w : RequestWord, s.pending = none → s.cancel = false →
      w = 0#1 ++ s.cfg.deviceAddr ++ s.cfg.dataStart ++ 6#8 ++ 0x00#8 →
      exec .sPollRead s =
        .next { s with pending := some w, events := s.events ++ [.txn w], txnCount := s.txnCount + 1 }) ∧
    (∀ (w : RequestWord) (b0 b1 b2 b3 b4 b5 : Byte), s.pending = some w →
      s.response = some (.data [b0, b1, b2, b3, b4, b5]) →
      exec .sPollRead s =
        .next { s with
          pending := none, response := none, state := 0x7#4
          raw := { b0 := ⟨b0, true⟩, b1 := ⟨b1, true⟩, b2 := ⟨b2, true⟩
                   b3 := ⟨b3, true⟩, b4 := ⟨b4, true⟩, b5 := ⟨b5, true⟩ } })

/-- 42_sample_decoder.md R142, 30_encoding.md R85: S_DECODE puts the two bytes of each axis, low byte first, in its AX
register and goes to S_MAP. (The record of reads of unmarked RAW registers is the model's, log 3.) -/
def Obligations.DecodeFillsSamples : Prop :=
  ∀ s : State, s.pending = none →
    exec .sDecode s =
      .next { s with
        state := 0x8#4
        ax := { x := ⟨s.raw.b1.val ++ s.raw.b0.val, true⟩
                y := ⟨s.raw.b3.val ++ s.raw.b2.val, true⟩
                z := ⟨s.raw.b5.val ++ s.raw.b4.val, true⟩ }
        unmarkedReads := s.unmarkedReads ++ unmarkedReadsOf .sDecode s }

/-- 43_range_mapper.md R166: S_MAP writes MAPPED, OUT and COMP of each axis from its AX register alone, the complement of
the clamped value, and goes to S_PUBLISH. (The record of reads of unmarked AX registers is the model's, log 3.) -/
def Obligations.MapFillsOutputs : Prop :=
  ∀ s : State, s.pending = none →
    ∃ m : Axes (Reg 32),
      exec .sMap s =
        .next { s with
          state := 0x9#4
          mapped := m
          out := { x := ⟨clamp (toOut (mapRange s.ax.x.val.toInt)), true⟩
                   y := ⟨clamp (toOut (mapRange s.ax.y.val.toInt)), true⟩
                   z := ⟨clamp (toOut (mapRange s.ax.z.val.toInt)), true⟩ }
          comp := { x := ⟨compl (clamp (toOut (mapRange s.ax.x.val.toInt))), true⟩
                    y := ⟨compl (clamp (toOut (mapRange s.ax.y.val.toInt))), true⟩
                    z := ⟨compl (clamp (toOut (mapRange s.ax.z.val.toInt))), true⟩ }
          unmarkedReads := s.unmarkedReads ++ unmarkedReadsOf .sMap s } ∧
      m.AllValid ∧
      m.x.val.toInt = mapRange s.ax.x.val.toInt ∧
      m.y.val.toInt = mapRange s.ax.y.val.toInt ∧
      m.z.val.toInt = mapRange s.ax.z.val.toInt

/-- 42_sample_decoder.md R144: decode is a bijection between 6-byte blocks and triples of AxisSamples, and the bytes the rule
writes decode to the values they encode, with the source's example. -/
def Obligations.DecodeIsBijective : Prop :=
  (∀ a b : RawBytes, samplesOf a = samplesOf b → a = b) ∧
  (∀ v0 v1 v2 : Int, -32768 ≤ v0 → v0 ≤ 32767 → -32768 ≤ v1 → v1 ≤ 32767 → -32768 ≤ v2 → v2 ≤ 32767 →
    samplesOf { b0 := BitVec.ofInt 8 v0, b1 := BitVec.ofInt 8 (v0 >>> (8 : Nat))
                b2 := BitVec.ofInt 8 v1, b3 := BitVec.ofInt 8 (v1 >>> (8 : Nat))
                b4 := BitVec.ofInt 8 v2, b5 := BitVec.ofInt 8 (v2 >>> (8 : Nat)) } =
      { x := v0, y := v1, z := v2 }) ∧
  (∀ b : RawBytes, ∀ a : Axis, -32768 ≤ (samplesOf b).get a ∧ (samplesOf b).get a ≤ 32767) ∧
  samplesOf { b0 := 0x00#8, b1 := 0x00#8, b2 := 0x00#8, b3 := 0x01#8, b4 := 0x00#8, b5 := 0xFF#8 } =
    { x := 0, y := 256, z := -256 }

/-- 43_range_mapper.md R161: floor division by 1024 is an arithmetic shift right by 10, and MAPRANGE is the shift form of the
rule for every AxisSample. -/
def Obligations.MapRangeShiftForm : Prop :=
  (∀ n : Int, Int.fdiv n 1024 = n >>> (10 : Nat)) ∧
  (∀ s : Int, -32768 ≤ s → s ≤ 32767 →
    mapRange s = ((s + 512) * 2 ^ 10 - (s + 512) * 2 ^ 4 - (s + 512) * 2 ^ 3) >>> (10 : Nat))

/-- 43_range_mapper.md R160: MAPRANGE rounds toward negative infinity; with the corner values of the rule. -/
def Obligations.MapRangeIsFloor : Prop :=
  (∀ s : Int, 1024 * mapRange s ≤ (s + 512) * 1000 ∧ (s + 512) * 1000 < 1024 * (mapRange s + 1)) ∧
  mapRange (-513) = -1 ∧ mapRange (-512) = 0 ∧ mapRange (-511) = 0 ∧ mapRange 0 = 500 ∧ mapRange 1 = 500 ∧
  mapRange 256 = 750 ∧ mapRange 512 = 1000 ∧ mapRange 513 = 1000

/-- 43_range_mapper.md R167: the ranges of MAPRANGE, OUTVAL and COMPL over every AxisSample. Values are compared as the
binary64 order does (`f64Order`). -/
def Obligations.MapperRanges : Prop :=
  (∀ s : Int, -32768 ≤ s → s ≤ 32767 →
    (-31500 ≤ mapRange s ∧ mapRange s ≤ 32499) ∧
    (0 ≤ mapRange s ↔ -512 ≤ s) ∧
    (mapRange s ≤ 1000 ↔ s ≤ 513) ∧
    f64IsFinite (outVal s) = true ∧ f64Sign (outVal s) = false ∧
    f64Order (outVal s) ≤ f64Order 0x40744FD70A3D70A4#64 ∧
    (f64Order (outVal s) ≤ f64Order 0x4024000000000000#64 ↔ s ≤ 513) ∧
    f64IsFinite (compl (outVal s)) = true ∧
    f64Order 0xC073AFD70A3D70A4#64 ≤ f64Order (compl (outVal s)) ∧
    f64Order (compl (outVal s)) ≤ f64Order 0x4024000000000000#64) ∧
  mapRange (-32768) = -31500 ∧ mapRange 32767 = 32499

/-- 43_range_mapper.md R168: MAPRANGE and OUTVAL are monotone; the exact values at -512, 512 and 0; OUTVAL is never below
+0.0; CLAMP changes nothing for s at least -512; COMPL is the correctly rounded 10 - v of every OutputValue. -/
def Obligations.MapperLaws : Prop :=
  (∀ s t : Int, -32768 ≤ s → s ≤ t → t ≤ 32767 →
    mapRange s ≤ mapRange t ∧ f64Order (outVal s) ≤ f64Order (outVal t)) ∧
  outVal (-512) = 0x0000000000000000#64 ∧ outVal 512 = 0x4024000000000000#64 ∧ outVal 0 = 0x4014000000000000#64 ∧
  (∀ s : Int, -32768 ≤ s → s ≤ 32767 →
    f64Lt (outVal s) 0x0000000000000000#64 = false ∧
    (-512 ≤ s → clamp (toOut (mapRange s)) = toOut (mapRange s)) ∧
    IsNearestEven (compl (outVal s)) (10 - f64Value (outVal s)))

/-- 43_range_mapper.md R169: truncating division gives the same OUTVAL for every AxisSample, and the same display text after
the clamp of the text. -/
def Obligations.TruncationChangesNoOutput : Prop :=
  ∀ s : Int, -32768 ≤ s → s ≤ 32767 →
    clamp (toOut (Int.tdiv ((s + 512) * 1000) 1024)) = outVal s ∧
    max (Int.tdiv ((s + 512) * 1000) 1024) 0 = max (mapRange s) 0 ∧
    (Int.tdiv ((s + 512) * 1000) 1024 ≠ mapRange s →
      Int.tdiv ((s + 512) * 1000) 1024 ≤ 0 ∧ mapRange s ≤ 0)

/-- 43_range_mapper.md R162, R164: TOOUT is the binary64 value nearest to m / 100, and OUTVAL the one nearest to
max(MAPRANGE(s), 0) / 100. -/
def Obligations.OutputsAreNearest : Prop :=
  (∀ m : Int, -31500 ≤ m → m ≤ 32499 → IsNearestEven (toOut m) ((m : ℚ) / 100)) ∧
  (∀ s : Int, -32768 ≤ s → s ≤ 32767 →
    IsNearestEven (outVal s) ((max (mapRange s) 0 : Int) / 100 : ℚ))

/-- 00_scope.md R10: on finite operands f64_div and f64_sub are rounded to nearest, ties to even, wherever the result is
finite; f64 is exact below 2^53; f64_lt compares the values. Infinities, NaN and results that overflow are left out: no
register of a run holds one (10_state.md R40). -/
def Obligations.Binary64PrimitivesRound : Prop :=
  (∀ a b : F64, f64IsFinite a = true → f64IsFinite b = true →
    (f64Value b ≠ 0 → f64IsFinite (f64Div a b) = true → IsNearestEven (f64Div a b) (f64Value a / f64Value b)) ∧
    (f64IsFinite (f64Sub a b) = true → IsNearestEven (f64Sub a b) (f64Value a - f64Value b)) ∧
    (f64Lt a b = true ↔ f64Value a < f64Value b)) ∧
  (∀ n : Int, n.natAbs < 2 ^ 53 → f64IsFinite (f64OfInt n) = true ∧ f64Value (f64OfInt n) = n)

/-! ## Publish, wait and stop -/

/-- 44_poll_loop.md R192, R199: S_PUBLISH emits CLEAR, TEXT and SET 1 to 6 in this order with OUT and COMP as they are, and
enters S_WAIT, which starts the interval timer with POLL_INTERVAL (R194). (The record of reads of unmarked registers is the
model's, log 3.) -/
def Obligations.PublishSendsEight : Prop :=
  ∀ s : State, s.pending = none →
    exec .sPublish s =
      .next { s with
        state := 0xA#4
        timer := .running s.cfg.pollInterval
        unmarkedReads := s.unmarkedReads ++ unmarkedReadsOf .sPublish s
        events := s.events ++
          [ .displayClear,
            .displayText [ [0x58#8, 0x3A#8, 0x20#8] ++ fmt2 (max s.mapped.x.val.toInt 0).toNat,
                           [0x59#8, 0x3A#8, 0x20#8] ++ fmt2 (max s.mapped.y.val.toInt 0).toNat,
                           [0x5A#8, 0x3A#8, 0x20#8] ++ fmt2 (max s.mapped.z.val.toInt 0).toNat ],
            .analogSet 1#3 s.out.x.val, .analogSet 2#3 s.out.y.val, .analogSet 3#3 s.out.z.val,
            .analogSet 4#3 s.comp.x.val, .analogSet 5#3 s.comp.y.val, .analogSet 6#3 s.comp.z.val ] }

/-- 44_poll_loop.md R193: FMT2(k) is the digits of k // 100 with no leading zeros, ".", and two digits of k mod 100. -/
def Obligations.Fmt2SpellsHundredths : Prop :=
  ∀ k : Nat, k ≤ 32499 →
    ∃ (first : Byte) (ds : Ascii) (d1 d0 : Byte),
      fmt2 k = (first :: ds) ++ [0x2E#8, d1, d0] ∧
      (∀ b ∈ first :: ds, IsDigit b) ∧ IsDigit d1 ∧ IsDigit d0 ∧
      digitsValue (first :: ds) = k / 100 ∧ digitsValue [d1, d0] = k % 100 ∧
      (first = 0x30#8 → ds = [])

/-- 44_poll_loop.md R194: S_WAIT goes to S_POLL_READ when the timer has expired and not before; CANCEL does not matter. (A
step before the expiry leaves the block as it is, log 4.) -/
def Obligations.WaitEndsOnExpiry : Prop :=
  ∀ s : State, s.pending = none →
    (s.timer = .expired → exec .sWait s = .next { s with state := 0x6#4 }) ∧
    (s.timer ≠ .expired → exec .sWait s = .next s)

/-- 44_poll_loop.md R195, 60_exceptions.md R226: S_STOPPED and S_TERMINATED have no step: nothing changes (the model's next
state is the same state, log 4). -/
def Obligations.FinalStatesStay : Prop :=
  ∀ s : State, exec .sStopped s = .next s ∧ exec .sTerminated s = .next s

/-! ## Exceptions -/

/-- 60_exceptions.md R225, 30_encoding.md R81: a step in a reserved state raises IllegalState, code 4. With a
transaction pending R225 ("any step") and 20_memory.md R55 (no step) disagree; that R225 wins there is the model's choice
(log 20). -/
def Obligations.ReservedStatesRaise : Prop :=
  ∀ s : State, ∀ i ∈ [Instr.reservedStateD, Instr.reservedStateE, Instr.reservedStateF],
    exec i s = .next (fatalEnd 4#3 .illegalState s)

/-- 60_exceptions.md R222, R223, R227, 30_encoding.md R78: in every state with a transaction a FAIL answer raises
TransportFailure, and any other answer that is not legal raises MalformedResponse; neither writes a register. -/
def Obligations.BadAnswersAreFatal : Prop :=
  ∀ (s : State) (w : RequestWord), s.pending = some w →
    (s.response = some .fail →
      ∀ i ∈ [Instr.sIdRead, .sPwrRead, .sPwrWrite, .sPwrVerify, .sPollRead],
        exec i s = .next (fatalEnd 2#3 (.transportFailure w) s)) ∧
    (∀ a, s.response = some a → a ≠ .fail → (∀ bs, a = .data bs → bs.length ≠ 1) →
      ∀ i ∈ [Instr.sIdRead, .sPwrRead, .sPwrVerify],
        exec i s = .next (fatalEnd 3#3 (.malformedResponse w) s)) ∧
    (∀ a, s.response = some a → a ≠ .fail → (∀ bs, a = .data bs → bs.length ≠ 6) →
      exec .sPollRead s = .next (fatalEnd 3#3 (.malformedResponse w) s)) ∧
    (∀ a, s.response = some a → a ≠ .fail → a ≠ .ack →
      exec .sPwrWrite s = .next (fatalEnd 3#3 (.malformedResponse w) s))

/-- 30_encoding.md R77, R78: on a pending request word that the decoder accepts, the answer phase raises an exception exactly
when the answer is FAIL or not legal for the word. -/
def Obligations.AnswerLegality : Prop :=
  ∀ (w : RequestWord) (a : Answer) (i : Instr), decodeRequest w = .ok i →
    ((∃ e, (if reqIsWrite w then writeReply w (some a) else readReply (reqCount w).toNat w (some a)) = .raised e) ↔
      a = .fail ∨ legalAnswer w a = false)

/-- 20_memory.md R55: while the transport has not answered, a state with a transaction stays as it is. -/
def Obligations.NoAnswerNoStep : Prop :=
  ∀ (s : State) (w : RequestWord), s.pending = some w → s.response = none →
    ∀ i ∈ [Instr.sIdRead, .sPwrRead, .sPwrWrite, .sPwrVerify, .sPollRead], exec i s = .next s

/-- 20_memory.md R55 as the model reads it for a state without a transaction (log 5, which no run reaches): while PENDING is
not NONE it has no step. -/
def Obligations.PendingHoldsOtherStates : Prop :=
  ∀ (s : State) (w : RequestWord), s.pending = some w →
    ∀ i ∈ [Instr.sIdCheck, .sPwrSet, .sDecode, .sMap, .sPublish, .sWait, .sStopped, .sTerminated],
      exec i s = .next s

/-- 10_state.md R34 as the model has it (log 3, the model's choice): an operation that reads working registers whose mark is
clear goes on, with what they hold, and puts exactly those registers on the record of the model fault, in the order of its
rule; no other operation adds to the record; and the six operations that read registers always have a next state. -/
def Obligations.UnmarkedReadsAreRecorded : Prop :=
  (∀ (i : Instr) (s t : State), exec i s = .next t →
    t.unmarkedReads = s.unmarkedReads ++ (if s.pending = none then unmarkedReadsOf i s else [])) ∧
  (∀ i ∈ [Instr.sIdCheck, .sPwrSet, .sPwrWrite, .sDecode, .sMap, .sPublish], ∀ s : State, ∃ t, exec i s = .next t)

/-! ## Reset -/

/-- 10_state.md R42: the reset values the spec gives. -/
def Obligations.ResetValues : Prop :=
  State.reset.state = 0x0#4 ∧ State.reset.devState = false ∧ State.reset.err = 0#3 ∧ State.reset.pending = none ∧
  busy State.reset = false ∧
  State.reset.idByte.valid = false ∧ State.reset.pwrOld.valid = false ∧ State.reset.pwrNew.valid = false ∧
  State.reset.pwrVerify.valid = false ∧
  State.reset.raw.b0.valid = false ∧ State.reset.raw.b1.valid = false ∧ State.reset.raw.b2.valid = false ∧
  State.reset.raw.b3.valid = false ∧ State.reset.raw.b4.valid = false ∧ State.reset.raw.b5.valid = false ∧
  (∀ a : Axis, (State.reset.ax.get a).valid = false ∧ (State.reset.mapped.get a).valid = false ∧
    (State.reset.out.get a).valid = false ∧ (State.reset.comp.get a).valid = false) ∧
  State.reset.timer = .idle ∧ status State.reset = 0x0000#16

/-- 70_reset_and_hazards.md R251: the first step after reset issues the device-ID read. -/
def Obligations.FirstStepReadsId : Prop :=
  ∃ t, step State.reset = .next t ∧
    t.events = [.txn (0#1 ++ Config.params.deviceAddr ++ Config.params.devidReg ++ 1#8 ++ 0x00#8)] ∧
    t.pending = some (0#1 ++ Config.params.deviceAddr ++ Config.params.devidReg ++ 1#8 ++ 0x00#8) ∧
    t.state = 0x0#4

/-- 70_reset_and_hazards.md R250, 60_exceptions.md R227: a requested reset is the step in every state, whatever turn,
answer or expiry is waiting; its effect is the rule's, it emits nothing, and the configuration and CANCEL stay. -/
def Obligations.ResetTakesPriority : Prop :=
  ∀ s : State, s.rst = true →
    ∃ t, step s = .next t ∧
      t.state = 0x0#4 ∧ t.devState = false ∧ t.err = 0#3 ∧ t.pending = none ∧
      t.idByte.valid = false ∧ t.pwrOld.valid = false ∧ t.pwrNew.valid = false ∧ t.pwrVerify.valid = false ∧
      t.raw.b0.valid = false ∧ t.raw.b1.valid = false ∧ t.raw.b2.valid = false ∧
      t.raw.b3.valid = false ∧ t.raw.b4.valid = false ∧ t.raw.b5.valid = false ∧
      (∀ a : Axis, (t.ax.get a).valid = false ∧ (t.mapped.get a).valid = false ∧
        (t.out.get a).valid = false ∧ (t.comp.get a).valid = false) ∧
      t.timer = .idle ∧ t.events = s.events ∧ t.cfg = s.cfg ∧ t.cancel = s.cancel

/-- 70_reset_and_hazards.md R253: a reset with a transaction pending abandons it; no answer is taken after it, W_ID is issued
next, and an answer to the abandoned transaction (which carries its number, log 7) is still discarded then. -/
def Obligations.ResetAbandonsTransaction : Prop :=
  ∀ (s : State) (w : RequestWord), s.rst = true → s.pending = some w →
    ∃ t, step s = .next t ∧ t.pending = none ∧ t.response = none ∧
      (∀ n a, takeTurn (.answer n a) t = t) ∧
      ∃ u, exec (decodeStateCode t.state) t = .next u ∧
        u.pending = some (0#1 ++ s.cfg.deviceAddr ++ s.cfg.devidReg ++ 1#8 ++ 0x00#8) ∧
        u.events = s.events ++ [.txn (0#1 ++ s.cfg.deviceAddr ++ s.cfg.devidReg ++ 1#8 ++ 0x00#8)] ∧
        ∀ n a, n ≤ s.txnCount → takeTurn (.answer n a) u = u

/-! ## STATUS -/

/-- 30_encoding.md R84: STATUS is STATE | (DEV_STATE << 4) | (BUSY << 5) | (ERR << 6), with the rule's four examples. -/
def Obligations.StatusWord : Prop :=
  (∀ s : State, (status s).toNat =
    s.state.toNat + 16 * s.devState.toNat + 32 * s.pending.isSome.toNat + 64 * s.err.toNat) ∧
  status State.reset = 0x0000#16 ∧
  (∀ (s : State) (b : Byte), s.devState = false → status (fatalEnd 1#3 (.deviceNotFound b) s) = 0x004C#16) ∧
  (∀ s : State, s.state = 0x6#4 → s.devState = true → s.err = 0#3 → s.pending.isSome = true →
    status s = 0x0036#16) ∧
  (∀ (s : State) (w : RequestWord), s.devState = true →
    status (fatalEnd 2#3 (.transportFailure w) s) = 0x009C#16)

/-! ## The invariant and runs -/

/-- The state after reset satisfies the invariant of the block. -/
def Obligations.ResetHasInvariant : Prop := Inv State.reset

/-- 70_reset_and_hazards.md R255, 10_state.md R24, R34: every step keeps the invariant, from every state that has it, for
every configuration and every turn of every agent. -/
def Obligations.StepKeepsInvariant : Prop :=
  ∀ s t : State, Inv s → step s = .next t → Inv t

/-- With an empty call port every state has a next state. That clause is the model's choice: a read of an unmarked register,
which 10_state.md R34 calls a model fault, goes on (log 3); where 20_memory.md R55, 44_poll_loop.md R194, R195 and
60_exceptions.md R226 give the block no step, the model's step leaves it unchanged (logs 4 and 5); and a reserved state raises
IllegalState with a transaction pending too (log 20). And, as 10_state.md R34 and 30_encoding.md R81 say, from a state with the
invariant the step reads no register whose mark is clear: the model's record of such reads (log 3) stays empty. -/
def Obligations.InvariantNeverStops : Prop :=
  (∀ s : State, s.call = none → ∃ t, step s = .next t) ∧
  (∀ s : State, Inv s → ∃ t, step s = .next t ∧ t.unmarkedReads = [])

/-- 10_state.md R34: no run of the block, for any well-formed configuration, any answers of the transport and any use of the
inputs, stops or reads a working register before a write has marked it (the model's record of such reads, log 3, is empty),
and every state of it has the invariant. That the run has a next state where the block has no step is the model's choice
(log 4), and the schedule is the model's own (log 6). -/
def Obligations.RunsNeverStop : Prop :=
  ∀ (cfg : Config) (turns : List Turn) (k : Nat),
    ∃ t, Host.Core.run Sys2Proof.core k (launch cfg turns) = .next t ∧ Inv t ∧ t.unmarkedReads = []

/-- 10_state.md R21: STATE changes only along the legal transitions or by reset, and each legal transition is taken from
some state with the invariant. -/
def Obligations.LegalTransitionsExactly : Prop :=
  (∀ s t : State, s.call = none → LegalCode s.state → step s = .next t →
    t.state = s.state ∨ (s.state, t.state) ∈ legalTransitions ∨ (s.rst = true ∧ t.state = 0x0#4)) ∧
  (∀ p ∈ legalTransitions, ∃ s t : State, Inv s ∧ s.state = p.1 ∧ s.rst = false ∧ step s = .next t ∧ t.state = p.2) ∧
  (∀ s : State, s.rst = true → ∃ t, step s = .next t ∧ t.state = 0x0#4)

/-- 10_state.md R39: no step writes the configuration. -/
def Obligations.ConfigurationConstant : Prop :=
  ∀ s t : State, step s = .next t → t.cfg = s.cfg

/-- 20_memory.md R68: events leave in the order of the steps: a step only adds events after those that have left. -/
def Obligations.EventsOnlyAppended : Prop :=
  ∀ s t : State, step s = .next t → ∃ es, t.events = s.events ++ es

/-- 10_state.md R24, 20_memory.md R51, 30_encoding.md R82, 70_reset_and_hazards.md R256: from a state with the invariant a
step adds no request to the ports, or it adds the one request of its state, while PENDING is NONE, and makes it PENDING. -/
def Obligations.RequestsAreTheStatesOwn : Prop :=
  ∀ s t : State, Inv s → step s = .next t →
    txnWords t.events = txnWords s.events ∨
    ∃ w, requestOf s = some w ∧ s.pending = none ∧ t.pending = some w ∧ t.events = s.events ++ [.txn w]

/-- 44_poll_loop.md R197: a step sends the sinks nothing, or it is S_PUBLISH's and sends exactly eight events. -/
def Obligations.SinksHearOnlyPublish : Prop :=
  ∀ s t : State, s.call = none → step s = .next t →
    sinkEvents t.events = sinkEvents s.events ∨
    (s.state = 0x9#4 ∧ ∃ es, t.events = s.events ++ es ∧ es.length = 8 ∧ sinkEvents es = es)

/-- 44_poll_loop.md R196: CANCEL is read nowhere but in the issue step of S_POLL_READ: any other operation does the same
whatever CANCEL is. -/
def Obligations.CancelReadOnlyAtPollIssue : Prop :=
  ∀ (i : Instr) (s : State) (level : Bool), ¬ (i = .sPollRead ∧ s.pending = none) →
    exec i { s with cancel := level } = onNext (fun t => { t with cancel := level }) (exec i s)

/-- 10_state.md R22: DEV_STATE becomes 1 only in the answer step of S_PWR_VERIFY and 0 only by reset. -/
def Obligations.DevStateWriters : Prop :=
  ∀ s t : State, step s = .next t → t.devState ≠ s.devState →
    (s.rst = true ∧ t.devState = false) ∨
    (t.devState = true ∧ s.rst = false ∧ s.state = 0x5#4 ∧
      ∃ w b, s.pending = some w ∧ s.response = some (.data [b]))

/-- 10_state.md R23, 60_exceptions.md R224: from a state with the invariant, ERR changes only by reset, or from 0 by the
fatal-error sequence. -/
def Obligations.ErrWriters : Prop :=
  ∀ s t : State, Inv s → step s = .next t → t.err ≠ s.err →
    (s.rst = true ∧ t.err = 0#3) ∨
    (s.err = 0#3 ∧ t.state = 0xC#4 ∧ t.pending = none ∧ t.events = s.events ++ [.diag t.err])

/-- 60_exceptions.md R226, R228, 44_poll_loop.md R195: with no reset requested, a run from S_TERMINATED or S_STOPPED stays
there for ever, with every register and every port as it was; only the inputs and the timer can change. -/
def Obligations.FinalStatesAbsorb : Prop :=
  ∀ (s : State) (k : Nat), s.state = 0xC#4 ∨ s.state = 0xB#4 → s.call = none → s.rst = false → NoReset s.schedule →
    ∃ (later : List Turn) (cancel : Bool) (response : Option Answer) (timer : Timer),
      Host.Core.run Sys2Proof.core k s =
        .next { s with schedule := later, cancel := cancel, response := response, timer := timer }

/-- 70_reset_and_hazards.md R260, 20_memory.md R55: under a transport that never answers, a pending transaction stays
pending for ever: STATE, PENDING, ERR and the ports do not change, and no timeout is raised. -/
def Obligations.SilentTransportWaitsForever : Prop :=
  ∀ (s : State) (w : RequestWord) (k : Nat), s.pending = some w → s.response = none → s.call = none →
    LegalCode s.state → s.rst = false → NoReset s.schedule → Silent s.schedule →
    ∃ t, Host.Core.run Sys2Proof.core k s = .next t ∧
      t.state = s.state ∧ t.pending = some w ∧ busy t = true ∧ t.err = s.err ∧ t.events = s.events

/-- 41_handshake.md R126: in every run without a second reset, once DEV_STATE is 1 the transactions made are W_ID, W_PR,
W_PW(PWR_OLD | 0x08), W_PR, in this order; and after them only W_DATA, the one request that 20_memory.md R51 and
42_sample_decoder.md R141 leave the poll loop. -/
def Obligations.HandshakeMakesFourTransactions : Prop :=
  ∀ (cfg : Config) (turns : List Turn) (k : Nat) (t : State), NoReset turns →
    Host.Core.run Sys2Proof.core k (launch cfg turns) = .next t → t.devState = true →
    ∃ n : Nat, txnWords t.events =
      [ 0#1 ++ cfg.deviceAddr ++ cfg.devidReg ++ 1#8 ++ 0x00#8,
        0#1 ++ cfg.deviceAddr ++ cfg.powerCtlReg ++ 1#8 ++ 0x00#8,
        1#1 ++ cfg.deviceAddr ++ cfg.powerCtlReg ++ 0x01#8 ++ (t.pwrOld.val ||| 0x08#8),
        0#1 ++ cfg.deviceAddr ++ cfg.powerCtlReg ++ 1#8 ++ 0x00#8 ] ++
      List.replicate n (0#1 ++ cfg.deviceAddr ++ cfg.dataStart ++ 6#8 ++ 0x00#8)

/-- 41_handshake.md R120 to R126: the handshake completes: with these answers, whatever the two power-control bytes are, it
ends in S_POLL_READ with DEV_STATE 1, and its events are the four transactions and the LOG. (The list of turns and the numbers
of the answers are the model's, logs 6 and 7.) -/
def Obligations.HandshakeSucceeds : Prop :=
  ∀ (cfg : Config) (old verify : Byte) (later : List Turn),
    ∃ t, Host.Core.run Sys2Proof.core 14
        (launch cfg ([ .sequencer, .answer 1 (.data [cfg.expectedDevid]), .sequencer, .sequencer,
                       .sequencer, .answer 2 (.data [old]), .sequencer, .sequencer,
                       .sequencer, .answer 3 .ack, .sequencer,
                       .sequencer, .answer 4 (.data [verify]), .sequencer ] ++ later)) = .next t ∧
      t.state = 0x6#4 ∧ t.devState = true ∧ t.err = 0#3 ∧ t.pending = none ∧ t.schedule = later ∧
      t.idByte = ⟨cfg.expectedDevid, true⟩ ∧ t.pwrOld = ⟨old, true⟩ ∧ t.pwrNew = ⟨old ||| 0x08#8, true⟩ ∧
      t.pwrVerify = ⟨verify, true⟩ ∧
      t.events =
        [ .txn (0#1 ++ cfg.deviceAddr ++ cfg.devidReg ++ 1#8 ++ 0x00#8),
          .txn (0#1 ++ cfg.deviceAddr ++ cfg.powerCtlReg ++ 1#8 ++ 0x00#8),
          .txn (1#1 ++ cfg.deviceAddr ++ cfg.powerCtlReg ++ 0x01#8 ++ (old ||| 0x08#8)),
          .txn (0#1 ++ cfg.deviceAddr ++ cfg.powerCtlReg ++ 1#8 ++ 0x00#8),
          .log verify ]

/-- 41_handshake.md R127: in every run without a second reset in which the ID byte read differs from EXPECTED_DEVID, the one
transaction is W_ID, and the block is about to compare it or has ended in S_TERMINATED with DEV_STATE 0 and one more event,
DIAG(1); and it does end so. (The list of turns and the number of the answer are the model's, logs 6 and 7.) -/
def Obligations.WrongIdEndsTheRun : Prop :=
  (∀ (cfg : Config) (turns : List Turn) (k : Nat) (t : State) (b : Byte), NoReset turns →
    Host.Core.run Sys2Proof.core k (launch cfg turns) = .next t → t.idByte = ⟨b, true⟩ → b ≠ cfg.expectedDevid →
    t.devState = false ∧
    ((t.state = 0x1#4 ∧ t.events = [.txn (0#1 ++ cfg.deviceAddr ++ cfg.devidReg ++ 1#8 ++ 0x00#8)]) ∨
     (t.state = 0xC#4 ∧ t.err = 1#3 ∧
      t.events = [.txn (0#1 ++ cfg.deviceAddr ++ cfg.devidReg ++ 1#8 ++ 0x00#8), .diag 1#3]))) ∧
  (∀ (cfg : Config) (b : Byte) (later : List Turn), b ≠ cfg.expectedDevid →
    ∃ t, Host.Core.run Sys2Proof.core 4
        (launch cfg ([.sequencer, .answer 1 (.data [b]), .sequencer, .sequencer] ++ later)) = .next t ∧
      t.idByte = ⟨b, true⟩ ∧ t.state = 0xC#4 ∧ t.err = 1#3)

/-- 44_poll_loop.md R191, R192, R197: one iteration, from S_POLL_READ to S_POLL_READ, for every six bytes: one W_DATA
transaction and then exactly the eight sink events of the values those bytes decode and map to. (The list of turns and the
number of the answer are the model's, logs 6 and 7.) -/
def Obligations.IterationPublishesItsSamples : Prop :=
  ∀ (s : State) (b0 b1 b2 b3 b4 b5 : Byte) (later : List Turn),
    s.state = 0x6#4 → s.pending = none → s.response = none → s.call = none → s.cancel = false → s.rst = false →
    s.schedule = [ .sequencer, .answer (s.txnCount + 1) (.data [b0, b1, b2, b3, b4, b5]), .sequencer, .sequencer,
                   .sequencer, .sequencer, .timerExpires, .sequencer ] ++ later →
    ∃ t, Host.Core.run Sys2Proof.core 8 s = .next t ∧
      t.state = 0x6#4 ∧ t.pending = none ∧ t.devState = s.devState ∧ t.err = s.err ∧ t.schedule = later ∧
      t.events = s.events ++
        [ .txn (0#1 ++ s.cfg.deviceAddr ++ s.cfg.dataStart ++ 6#8 ++ 0x00#8),
          .displayClear,
          .displayText
            [ [0x58#8, 0x3A#8, 0x20#8] ++ fmt2 (max (mapRange (decode16 b0 b1)) 0).toNat,
              [0x59#8, 0x3A#8, 0x20#8] ++ fmt2 (max (mapRange (decode16 b2 b3)) 0).toNat,
              [0x5A#8, 0x3A#8, 0x20#8] ++ fmt2 (max (mapRange (decode16 b4 b5)) 0).toNat ],
          .analogSet 1#3 (outVal (decode16 b0 b1)), .analogSet 2#3 (outVal (decode16 b2 b3)),
          .analogSet 3#3 (outVal (decode16 b4 b5)),
          .analogSet 4#3 (compl (outVal (decode16 b0 b1))), .analogSet 5#3 (compl (outVal (decode16 b2 b3))),
          .analogSet 6#3 (compl (outVal (decode16 b4 b5))) ]
end

