-- ==== Sys2Proof/Laws/Binary64.lean ====
section
/-! SUPPORT. What the rounding of the binary64 primitives does, once and for all: `roundRatio` gives the nearest word, ties to
even (`roundRatio_nearest`), and a word's value grows with its magnitude (`magUnits_lt`). -/

namespace Sys2Proof.Machine

/-! ### Rounding a quotient of natural numbers -/

/-- `roundDiv` is the nearest natural number, an even one where two are equally near. -/
theorem roundDiv_nearest (a b : Nat) (hb : 0 < b) (j : Nat) :
    ((roundDiv a b : ℤ) * b - a).natAbs ≤ ((j : ℤ) * b - a).natAbs ∧
    (((roundDiv a b : ℤ) * b - a).natAbs = ((j : ℤ) * b - a).natAbs → j ≠ roundDiv a b → roundDiv a b % 2 = 0) := by
  have hm : (a % b : ℕ) < b := Nat.mod_lt a hb
  have ha : (a : ℤ) = ↑(a / b) * b + ↑(a % b) := by rw [mul_comm]; exact_mod_cast (Nat.div_add_mod a b).symm
  have hr : (roundDiv a b = a / b ∧ 2 * (a % b) < b) ∨ (roundDiv a b = a / b + 1 ∧ b < 2 * (a % b)) ∨
      (roundDiv a b % 2 = 0 ∧ 2 * (a % b) = b ∧ (roundDiv a b = a / b ∨ roundDiv a b = a / b + 1)) := by
    unfold roundDiv
    split
    · exact .inl ⟨rfl, by assumption⟩
    · split
      · exact .inr (.inl ⟨rfl, by assumption⟩)
      · exact .inr (.inr ⟨by omega, by omega, by omega⟩)
  have keq : j = a / b ∨ (j : ℤ) * b ≤ ↑(a / b) * b - b ∨ j = a / b + 1 ∨ ↑(a / b) * b + 2 * b ≤ (j : ℤ) * b := by
    have hb0 : (0 : ℤ) ≤ b := by positivity
    rcases Nat.lt_trichotomy j (a / b) with h | h | h
    · have h1 : (j + 1 : ℤ) * b ≤ ↑(a / b) * b := mul_le_mul_of_nonneg_right (by exact_mod_cast h) hb0
      right; left; linarith
    · left; exact h
    · rcases Nat.lt_or_ge (a / b + 1) j with h' | h'
      · have h1 : ((a / b : ℕ) + 2 : ℤ) * b ≤ j * b := mul_le_mul_of_nonneg_right (by exact_mod_cast h') hb0
        right; right; right; linarith
      · right; right; left; omega
  have succ_mul' : ((a / b + 1 : ℕ) : ℤ) * b = ↑(a / b) * b + b := by push_cast; ring
  generalize roundDiv a b = r at *
  rcases keq with h | h | h | h <;> rcases hr with ⟨e, h'⟩ | ⟨e, h'⟩ | ⟨ev, h', e | e⟩ <;> subst e <;>
    (try subst h) <;> (try rw [succ_mul']) <;>
    generalize ((a / b : ℕ) : ℤ) * b = T at * <;> (try generalize (j : ℤ) * b = J at *) <;>
    constructor <;> (try intro h1 h2) <;> omega

theorem roundDiv_le {a b n : Nat} (h : a < n * b) : roundDiv a b ≤ n := by
  have : a / b < n := Nat.div_lt_of_lt_mul (by rwa [mul_comm] at h)
  unfold roundDiv
  split
  · omega
  split <;> omega

theorem le_roundDiv {a b n : Nat} (hb : 0 < b) (h : n * b ≤ a) : n ≤ roundDiv a b := by
  have : n ≤ a / b := (Nat.le_div_iff_mul_le hb).mpr h
  unfold roundDiv
  split
  · omega
  split <;> omega

/-- The number of units in 1: a unit is 2^-1074, the smallest subnormal. -/
def unitsPerOne : Nat := 2 ^ 1074

theorem unitsPerOne_pos : 0 < unitsPerOne := Nat.two_pow_pos _

theorem two_pow_mul_units (d : Nat) : 2 ^ d * unitsPerOne = 2 ^ (d + 1074) := by
  rw [pow_add]; rfl

theorem unitsPerOne_eq {i j : Nat} (h : i + j = 1074) : 2 ^ i * 2 ^ j = unitsPerOne := by
  rw [← pow_add, h]; rfl

/-- The value of a magnitude in units of 2^-1074, the smallest subnormal. -/
def magUnits (m : Nat) : Nat :=
  (if m / 4503599627370496 % 2048 = 0 then m % 4503599627370496 else 4503599627370496 + m % 4503599627370496) *
    2 ^ (if m / 4503599627370496 % 2048 = 0 then 0 else m / 4503599627370496 % 2048 - 1)

/-- k·P + r is the magnitude of r·2^k units, for a significand r of a normal number or a subnormal one. -/
theorem magUnits_mk {k r : Nat} (hr : r ≤ 9007199254740992) (hk : k = 0 ∨ 4503599627370496 ≤ r)
    (hfin : k * 4503599627370496 + r < f64InfMagnitude) : magUnits (k * 4503599627370496 + r) = r * 2 ^ k := by
  unfold f64InfMagnitude at hfin
  unfold magUnits
  rcases Nat.lt_or_ge r 4503599627370496 with h | h
  · have : k = 0 := by omega
    subst this
    have h1 : (0 * 4503599627370496 + r) / 4503599627370496 % 2048 = 0 := by omega
    rw [h1]; simp; omega
  · rcases Nat.lt_or_ge r 9007199254740992 with h' | h'
    · have h1 : (k * 4503599627370496 + r) / 4503599627370496 % 2048 = k + 1 := by omega
      have h2 : 4503599627370496 + (k * 4503599627370496 + r) % 4503599627370496 = r := by omega
      rw [h1, h2]; simp
    · have h0 : r = 9007199254740992 := by omega
      subst h0
      have h1 : (k * 4503599627370496 + 9007199254740992) / 4503599627370496 % 2048 = k + 2 := by omega
      have h2 : 4503599627370496 + (k * 4503599627370496 + 9007199254740992) % 4503599627370496 = 4503599627370496 := by omega
      rw [h1, h2]
      simp [pow_succ]; omega

/-- A finite magnitude is a multiple of 2^k units, or lies below P·2^k of them. -/
theorem magUnits_grid (k m : Nat) : (∃ j, magUnits m = j * 2 ^ k) ∨ (0 < k ∧ magUnits m < 4503599627370496 * 2 ^ k) := by
  unfold magUnits
  generalize hs : (if m / 4503599627370496 % 2048 = 0 then 0 else m / 4503599627370496 % 2048 - 1) = s
  generalize hg : (if m / 4503599627370496 % 2048 = 0 then m % 4503599627370496 else 4503599627370496 + m % 4503599627370496) = g
  have hlt : g < 2 * 4503599627370496 := by subst hg; split <;> omega
  rcases Nat.lt_or_ge s k with h | h
  · right
    refine ⟨by omega, ?_⟩
    obtain ⟨d, rfl⟩ := Nat.exists_eq_add_of_lt h
    calc g * 2 ^ s < 2 * 4503599627370496 * 2 ^ s := Nat.mul_lt_mul_of_pos_right hlt (by positivity)
      _ = 4503599627370496 * 2 ^ (s + 1) := by ring
      _ ≤ _ := Nat.mul_le_mul_left _ (Nat.pow_le_pow_right (by norm_num) (by omega))
  · left
    obtain ⟨d, rfl⟩ := Nat.exists_eq_add_of_le h
    exact ⟨g * 2 ^ d, by ring⟩

theorem scaleDen_pos {den : Nat} (hd : 0 < den) (q : Int) : 0 < scaleDen den q := by
  unfold scaleDen; split <;> positivity

theorem scale_eq (num den : Nat) (q : Int) :
    (scaleNum num q : ℚ) * den * 2 ^ q = num * scaleDen den q := by
  unfold scaleNum scaleDen
  split
  · rename_i h
    obtain ⟨n, rfl⟩ := Int.eq_ofNat_of_zero_le h
    simp; ring
  · rename_i h
    obtain ⟨n, hn⟩ := Int.eq_ofNat_of_zero_le (show 0 ≤ -q by omega)
    have : q = -(n : ℤ) := by omega
    subst this
    simp; field_simp

theorem ratioExp_spec {num den : Nat} (hn : 0 < num) (hd : 0 < den) :
    (den : ℚ) * 2 ^ ratioExp num den ≤ num ∧ (num : ℚ) < den * 2 ^ (ratioExp num den + 1) := by
  have two : (2 : ℚ) ≠ 0 := by norm_num
  have n1 : (2 : ℚ) ^ (Nat.log2 num : ℤ) ≤ num := by
    rw [zpow_natCast]; exact_mod_cast Nat.log2_self_le hn.ne'
  have n2 : (num : ℚ) < 2 ^ ((Nat.log2 num : ℤ) + 1) := by
    have := @Nat.lt_log2_self num
    rw [zpow_add₀ two, zpow_natCast, zpow_one]; rw [pow_succ] at this; exact_mod_cast this
  have d1 : (2 : ℚ) ^ (Nat.log2 den : ℤ) ≤ den := by
    rw [zpow_natCast]; exact_mod_cast Nat.log2_self_le hd.ne'
  have d2 : (den : ℚ) < 2 ^ ((Nat.log2 den : ℤ) + 1) := by
    have := @Nat.lt_log2_self den
    rw [zpow_add₀ two, zpow_natCast, zpow_one]; rw [pow_succ] at this; exact_mod_cast this
  have hden : (0 : ℚ) < den := by exact_mod_cast hd
  unfold ratioExp
  simp only
  generalize he : ((Nat.log2 num : ℤ) - (Nat.log2 den : ℤ)) = e
  have cond : scaleDen den e ≤ scaleNum num e ↔ (den : ℚ) * 2 ^ e ≤ num := by
    have h := scale_eq num den e
    have hs : (0 : ℚ) < scaleDen den e := by exact_mod_cast scaleDen_pos hd e
    rw [← Nat.cast_le (α := ℚ)]
    have hp : (0 : ℚ) < den * 2 ^ e := by positivity
    constructor
    · intro h'
      have : (scaleDen den e : ℚ) * (den * 2 ^ e) ≤ num * scaleDen den e := by
        rw [← h]; nlinarith
      nlinarith
    · intro h'
      have : (scaleDen den e : ℚ) * (den * 2 ^ e) ≤ scaleNum num e * (den * 2 ^ e) := by
        rw [← mul_assoc (scaleNum num e : ℚ), h]; nlinarith
      exact le_of_mul_le_mul_right this hp
  have up : (num : ℚ) < den * 2 ^ (e + 1) := by
    calc (num : ℚ) < 2 ^ ((Nat.log2 num : ℤ) + 1) := n2
      _ = 2 ^ (Nat.log2 den : ℤ) * 2 ^ (e + 1) := by rw [← zpow_add₀ two]; congr 1; omega
      _ ≤ _ := mul_le_mul_of_nonneg_right d1 (by positivity)
  have lo : (den : ℚ) * 2 ^ (e - 1) ≤ num := by
    calc (den : ℚ) * 2 ^ (e - 1) ≤ 2 ^ ((Nat.log2 den : ℤ) + 1) * 2 ^ (e - 1) :=
          mul_le_mul_of_nonneg_right d2.le (by positivity)
      _ = 2 ^ (Nat.log2 num : ℤ) := by rw [← zpow_add₀ two]; congr 1; omega
      _ ≤ _ := n1
  split
  · exact ⟨cond.mp ‹_›, up⟩
  · refine ⟨lo, ?_⟩
    rw [sub_add_cancel]
    exact lt_of_not_ge (fun h => ‹¬ _› (cond.mpr h))

theorem even_mk {k r : Nat} (h : r % 2 = 0) : (k * 4503599627370496 + r) % 2 = 0 := by omega

theorem nearestMagnitude_spec {num den : Nat} (hn : 0 < num) (hd : 0 < den)
    (hM : nearestMagnitude num den < f64InfMagnitude) (m : Nat) :
    ((magUnits (nearestMagnitude num den) : ℤ) * den - num * unitsPerOne).natAbs ≤
      ((magUnits m : ℤ) * den - num * unitsPerOne).natAbs ∧
    (((magUnits (nearestMagnitude num den) : ℤ) * den - num * unitsPerOne).natAbs =
      ((magUnits m : ℤ) * den - num * unitsPerOne).natAbs → magUnits m ≠ magUnits (nearestMagnitude num den) →
      nearestMagnitude num den % 2 = 0) := by
  have two : (2 : ℚ) ≠ 0 := by norm_num
  obtain ⟨lo, up⟩ := ratioExp_spec hn hd
  unfold nearestMagnitude at *
  simp only at *
  generalize he : roundExp num den = e at *
  have he1 : -1022 ≤ e := by rw [← he]; exact le_max_right _ _
  have he2 : ratioExp num den ≤ e := by rw [← he]; exact le_max_left _ _
  have he3 : e = -1022 ∨ e = ratioExp num den := by
    rw [← he]; unfold roundExp; omega
  obtain ⟨k, hk⟩ := Int.eq_ofNat_of_zero_le (show 0 ≤ e + 1022 by omega)
  have hkn : (e + 1022).toNat = k := by omega
  rw [hkn] at hM ⊢
  have hb := scaleDen_pos hd (e - 52)
  have hs := scale_eq num den (e - 52)
  -- a common factor brings the rounded fraction to units
  obtain ⟨c, hc, hcb, hca⟩ : ∃ c : ℕ, 0 < c ∧ scaleDen den (e - 52) * c = den * 2 ^ k ∧
      scaleNum num (e - 52) * c = num * unitsPerOne := by
    unfold scaleDen scaleNum
    split
    · refine ⟨unitsPerOne, Nat.two_pow_pos _, ?_, rfl⟩
      rw [mul_assoc, ← unitsPerOne_eq (i := 1074) (j := 0) rfl, ← pow_add, ← pow_add]; congr 2; omega
    · refine ⟨2 ^ k, Nat.two_pow_pos _, rfl, ?_⟩
      rw [mul_assoc, unitsPerOne_eq (by omega)]
  generalize scaleDen den (e - 52) = b at *
  generalize scaleNum num (e - 52) = a at *
  have hden : (0 : ℚ) < den := by exact_mod_cast hd
  have hbq : (0 : ℚ) < b := by exact_mod_cast hb
  have hp : (0 : ℚ) < den * 2 ^ (e - 52) := by positivity
  have hup : a < 9007199254740992 * b := by
    have h1 : (2 : ℚ) ^ (ratioExp num den + 1) ≤ 2 ^ (e + 1) := zpow_le_zpow_right₀ (by norm_num) (by omega)
    have h2 : (2 : ℚ) ^ (e + 1) = 2 ^ (e - 52) * 9007199254740992 := by
      rw [show e + 1 = (e - 52) + (53 : ℕ) by omega, zpow_add₀ two, zpow_natCast]; norm_num
    have h3 : (num : ℚ) < den * (2 ^ (e - 52) * 9007199254740992) := by
      rw [← h2]; exact lt_of_lt_of_le up (mul_le_mul_of_nonneg_left h1 hden.le)
    have h4 : (a : ℚ) * (den * 2 ^ (e - 52)) < (9007199254740992 * b) * (den * 2 ^ (e - 52)) := by
      rw [← mul_assoc (a : ℚ), hs]
      calc (num : ℚ) * b < den * (2 ^ (e - 52) * 9007199254740992) * b := mul_lt_mul_of_pos_right h3 hbq
        _ = _ := by ring
    exact_mod_cast lt_of_mul_lt_mul_right h4 hp.le
  have hlow : k = 0 ∨ 4503599627370496 * b ≤ a := by
    rcases Nat.eq_zero_or_pos k with h | h
    · exact .inl h
    · right
      have h0 : e = ratioExp num den := by clear hup hM; omega
      have h2 : (2 : ℚ) ^ e = 2 ^ (e - 52) * 4503599627370496 := by
        rw [show (2 : ℚ) ^ e = 2 ^ ((e - 52) + (52 : ℕ)) by congr 1; omega, zpow_add₀ two, zpow_natCast]; norm_num
      have h3 : (den : ℚ) * (2 ^ (e - 52) * 4503599627370496) ≤ num := by rw [← h2, h0]; exact lo
      have h4 : (4503599627370496 * b : ℚ) * (den * 2 ^ (e - 52)) ≤ a * (den * 2 ^ (e - 52)) := by
        rw [← mul_assoc (a : ℚ), hs]
        calc (4503599627370496 * b : ℚ) * (den * 2 ^ (e - 52))
            = den * (2 ^ (e - 52) * 4503599627370496) * b := by ring
          _ ≤ _ := mul_le_mul_of_nonneg_right h3 hbq.le
      exact_mod_cast le_of_mul_le_mul_right h4 hp
  have hr1 := roundDiv_le hup
  have hr2 : k = 0 ∨ 4503599627370496 ≤ roundDiv a b := hlow.imp id (le_roundDiv hb)
  have hnear := roundDiv_nearest a b hb
  generalize roundDiv a b = r at *
  have hmin : min (k * 4503599627370496 + r) f64InfMagnitude = k * 4503599627370496 + r :=
    min_eq_left (le_of_not_ge fun h => by rw [min_eq_right h] at hM; exact lt_irrefl _ hM)
  rw [hmin] at hM ⊢
  rw [magUnits_mk hr1 hr2 hM]
  have toUnits : ∀ j : ℕ, (((j * 2 ^ k : ℕ) : ℤ) * den - num * unitsPerOne).natAbs = ((j : ℤ) * b - a).natAbs * c := by
    intro j
    have hcb' : (b : ℤ) * c = den * 2 ^ k := by exact_mod_cast hcb
    have hca' : (a : ℤ) * c = num * unitsPerOne := by exact_mod_cast hca
    have : ((j * 2 ^ k : ℕ) : ℤ) * den - num * unitsPerOne = ((j : ℤ) * b - a) * c := by
      rw [← hca', sub_mul, mul_assoc (j : ℤ), hcb']; push_cast; ring
    rw [this, Int.natAbs_mul, Int.natAbs_natCast]
  rcases magUnits_grid k m with ⟨j, hj⟩ | ⟨hkp, hlt⟩
  · rw [hj, toUnits, toUnits]
    obtain ⟨h1, h2⟩ := hnear j
    refine ⟨Nat.mul_le_mul_right _ h1, fun he hne => ?_⟩
    have := h2 (Nat.eq_of_mul_eq_mul_right hc he) (fun h => hne (by rw [h]))
    exact even_mk this
  · have hk0 : 4503599627370496 * b ≤ a := hlow.resolve_left (by omega)
    have h1 := (hnear 4503599627370496).1
    have h2 : (((r * 2 ^ k : ℕ) : ℤ) * den - num * unitsPerOne).natAbs ≤
        (((4503599627370496 * 2 ^ k : ℕ) : ℤ) * den - num * unitsPerOne).natAbs := by
      rw [toUnits, toUnits]; exact Nat.mul_le_mul_right _ h1
    have h3 : 4503599627370496 * 2 ^ k * den ≤ num * unitsPerOne := by
      rw [← hca, mul_assoc, mul_comm (2 ^ k), ← hcb, ← mul_assoc]; exact Nat.mul_le_mul_right _ hk0
    have h4 : magUnits m * den < 4503599627370496 * 2 ^ k * den := Nat.mul_lt_mul_of_pos_right hlt hd
    have h5 : (((4503599627370496 * 2 ^ k : ℕ) : ℤ) * den - num * unitsPerOne).natAbs <
        ((magUnits m : ℤ) * den - num * unitsPerOne).natAbs := by
      have h3' : ((4503599627370496 * 2 ^ k : ℕ) : ℤ) * den ≤ num * unitsPerOne := by exact_mod_cast h3
      have h4' : (magUnits m : ℤ) * den < ((4503599627370496 * 2 ^ k : ℕ) : ℤ) * den := by exact_mod_cast h4
      generalize ((4503599627370496 * 2 ^ k : ℕ) : ℤ) * den = A at *
      generalize (magUnits m : ℤ) * den = B at *
      generalize (num : ℤ) * unitsPerOne = C at *
      omega
    exact ⟨(h2.trans_lt h5).le, fun he => absurd he (h2.trans_lt h5).ne⟩

/-! ### Words as numbers of units -/

theorem f64Magnitude_lt (v : F64) : f64Magnitude v < 9223372036854775808 := Nat.mod_lt _ (by norm_num)

/-- A word's value is its magnitude's units over `unitsPerOne`, with its sign. -/
theorem f64Value_eq (v : F64) :
    f64Value v = (if f64Sign v then -1 else 1) * (magUnits (f64Magnitude v) : ℚ) / unitsPerOne := by
  have he : f64ExpField v = f64Magnitude v / 4503599627370496 % 2048 := by
    unfold f64ExpField f64Magnitude; omega
  have hf : f64Fraction v = f64Magnitude v % 4503599627370496 := by
    unfold f64Fraction f64Magnitude; omega
  have hu : magUnits (f64Magnitude v) = f64Significand v * 2 ^ f64Scale v := by
    unfold magUnits f64Significand f64Scale; rw [he, hf]
  have hnd : (f64Num v : ℚ) / f64Den v = (magUnits (f64Magnitude v) : ℚ) / unitsPerOne := by
    rw [hu]
    unfold f64Num f64Den
    generalize f64Significand v = g
    have hU : (unitsPerOne : ℚ) ≠ 0 := by exact_mod_cast unitsPerOne_pos.ne'
    generalize f64Scale v = s
    split
    · obtain ⟨d, rfl⟩ := Nat.exists_eq_add_of_le' ‹1074 ≤ s›
      rw [div_eq_div_iff (by norm_num) hU, Nat.add_sub_cancel]
      have h : (2 : ℚ) ^ d * unitsPerOne = 2 ^ (d + 1074) := by exact_mod_cast two_pow_mul_units d
      rw [Nat.cast_mul, Nat.cast_mul, Nat.cast_pow, Nat.cast_pow, Nat.cast_ofNat, mul_assoc, h, Nat.cast_one, mul_one]
    · have h := unitsPerOne_eq (i := s) (j := 1074 - s) (by omega)
      have hp : ((2 ^ (1074 - s) : ℕ) : ℚ) ≠ 0 := by exact_mod_cast (Nat.two_pow_pos _).ne'
      have h' : ((2 ^ s : ℕ) : ℚ) * (2 ^ (1074 - s) : ℕ) = unitsPerOne := by exact_mod_cast h
      rw [div_eq_div_iff hp hU, Nat.cast_mul, mul_assoc, h']
  unfold f64Value f64SignedNum
  split
  · push_cast; rw [neg_div, hnd]; ring
  · push_cast; rw [hnd]; ring

/-- Of two finite magnitudes the greater is worth more. -/
theorem magUnits_lt {m n : Nat} (h : m < n) (hn : n < f64InfMagnitude) : magUnits m < magUnits n := by
  unfold f64InfMagnitude at hn
  have h1 : m / 4503599627370496 % 2048 = m / 4503599627370496 := by omega
  have h2 : n / 4503599627370496 % 2048 = n / 4503599627370496 := by omega
  have h3 : m / 4503599627370496 ≤ n / 4503599627370496 := by omega
  unfold magUnits
  rw [h1, h2]
  have hm := Nat.mod_lt m (show 0 < 4503599627370496 by norm_num)
  rcases Nat.lt_or_ge (m / 4503599627370496) (n / 4503599627370496) with hlt | hge
  · have hE : n / 4503599627370496 ≠ 0 := by omega
    rw [if_neg hE, if_neg hE]
    have hlow : 4503599627370496 * 2 ^ (n / 4503599627370496 - 1) ≤
        (4503599627370496 + n % 4503599627370496) * 2 ^ (n / 4503599627370496 - 1) :=
      Nat.mul_le_mul_right _ (Nat.le_add_right _ _)
    refine lt_of_lt_of_le ?_ hlow
    split
    · rw [pow_zero, mul_one]
      exact lt_of_lt_of_le hm (Nat.le_mul_of_pos_right _ (Nat.two_pow_pos _))
    · calc (4503599627370496 + m % 4503599627370496) * 2 ^ (m / 4503599627370496 - 1)
          < (4503599627370496 * 2) * 2 ^ (m / 4503599627370496 - 1) :=
            Nat.mul_lt_mul_of_pos_right (by omega) (Nat.two_pow_pos _)
        _ = 4503599627370496 * 2 ^ (m / 4503599627370496 - 1 + 1) := by rw [pow_succ]; ring
        _ ≤ _ := Nat.mul_le_mul_left _ (Nat.pow_le_pow_right (by norm_num) (by omega))
  · have hEq : m / 4503599627370496 = n / 4503599627370496 := by omega
    rw [hEq]
    refine Nat.mul_lt_mul_of_pos_right ?_ (Nat.two_pow_pos _)
    split <;> omega

/-! ### The rounding -/

theorem f64Sign_ofMagnitude (neg : Bool) {m : Nat} (h : m < 9223372036854775808) :
    f64Sign (f64OfMagnitude neg m) = neg := by
  unfold f64Sign f64OfMagnitude
  rw [BitVec.getLsbD, BitVec.toNat_ofNat, Nat.testBit_eq_decide_div_mod_eq]
  cases neg <;> simp <;> omega

theorem f64Magnitude_ofMagnitude (neg : Bool) {m : Nat} (h : m < 9223372036854775808) :
    f64Magnitude (f64OfMagnitude neg m) = m := by
  unfold f64Magnitude f64OfMagnitude
  rw [BitVec.toNat_ofNat]
  cases neg <;> simp <;> omega

theorem magUnits_zero : magUnits 0 = 0 := by unfold magUnits; norm_num

/-- The nearest magnitude, as a distance between rational numbers. -/
theorem nearestMagnitude_distance (num : Nat) {den : Nat} (hd : 0 < den) {M : Nat}
    (hM : M = if num = 0 then 0 else nearestMagnitude num den) (hf : M < f64InfMagnitude) (m : Nat) :
    |(magUnits M : ℚ) / unitsPerOne - num / den| ≤ |(magUnits m : ℚ) / unitsPerOne - num / den| ∧
    (|(magUnits M : ℚ) / unitsPerOne - num / den| = |(magUnits m : ℚ) / unitsPerOne - num / den| →
      magUnits m ≠ magUnits M → M % 2 = 0) := by
  have hU : (0 : ℚ) < unitsPerOne := by exact_mod_cast unitsPerOne_pos
  have hD : (0 : ℚ) < den := by exact_mod_cast hd
  have dist : ∀ w : Nat, |(w : ℚ) / unitsPerOne - num / den| =
      (((w : ℤ) * den - num * unitsPerOne).natAbs : ℚ) / (unitsPerOne * den) := by
    intro w
    rw [Nat.cast_natAbs, Int.cast_abs, div_sub_div _ _ hU.ne' hD.ne', abs_div, abs_of_pos (mul_pos hU hD)]
    push_cast
    rw [mul_comm (unitsPerOne : ℚ) (num : ℚ)]
  rw [dist, dist, div_le_div_iff_of_pos_right (mul_pos hU hD), div_left_inj' (mul_pos hU hD).ne', Nat.cast_le,
    Nat.cast_inj]
  by_cases h0 : num = 0
  · subst h0
    rw [if_pos rfl] at hM
    subst hM
    rw [magUnits_zero]
    have e : (((0 : ℕ) : ℤ) * den - ((0 : ℕ) : ℤ) * unitsPerOne).natAbs = 0 := by
      rw [Nat.cast_zero, zero_mul, zero_mul]; rfl
    rw [e]
    exact ⟨Nat.zero_le _, fun _ _ => rfl⟩
  · rw [if_neg h0] at hM
    subst hM
    exact nearestMagnitude_spec (Nat.pos_of_ne_zero h0) hd hf m

/-- Everything `roundRatio` can do when its result is finite: it has the sign it is given, and it is the word nearest to the
ratio, ties to even (00_scope.md R10). -/
theorem roundRatio_nearest (neg : Bool) (num : Nat) {den : Nat} (hd : 0 < den)
    (hf : f64IsFinite (roundRatio neg num den) = true) :
    f64Sign (roundRatio neg num den) = neg ∧
    IsNearestEven (roundRatio neg num den) ((if neg then -1 else 1) * ((num : ℚ) / den)) := by
  obtain ⟨M, hM⟩ : ∃ M, M = if num = 0 then 0 else nearestMagnitude num den := ⟨_, rfl⟩
  have hv : roundRatio neg num den = f64OfMagnitude neg M := by rw [hM]; rfl
  have hle : M ≤ f64InfMagnitude := by
    rw [hM]
    split
    · exact Nat.zero_le _
    · exact min_le_right _ _
  have hlt : M < 9223372036854775808 := lt_of_le_of_lt hle (by norm_num [f64InfMagnitude])
  have hsign := f64Sign_ofMagnitude neg hlt
  have hmag := f64Magnitude_ofMagnitude neg hlt
  rw [hv] at hf ⊢
  have hfin : M < f64InfMagnitude := by
    unfold f64IsFinite at hf
    rw [hmag] at hf
    exact of_decide_eq_true hf
  have hpar : (f64OfMagnitude neg M).toNat % 2 = M % 2 := by
    unfold f64OfMagnitude
    rw [BitVec.toNat_ofNat]
    cases neg <;> simp <;> omega
  refine ⟨hsign, hf, fun u hu => ?_⟩
  rw [f64Value_eq, f64Value_eq u, hsign, hmag, hpar]
  have near := nearestMagnitude_distance num hd hM hfin
  have hy : (0 : ℚ) ≤ (num : ℚ) / den := by positivity
  have hV : (0 : ℚ) ≤ (magUnits M : ℚ) / unitsPerOne := div_nonneg (Nat.cast_nonneg _) (Nat.cast_nonneg _)
  have hW : (0 : ℚ) ≤ (magUnits (f64Magnitude u) : ℚ) / unitsPerOne :=
    div_nonneg (Nat.cast_nonneg _) (Nat.cast_nonneg _)
  have h0 := near 0
  rw [magUnits_zero] at h0
  have h1 := near (f64Magnitude u)
  have hne : ∀ {w : Nat}, (w : ℚ) / unitsPerOne ≠ (magUnits M : ℚ) / unitsPerOne → w ≠ magUnits M := by
    rintro w h rfl; exact h rfl
  have hne0 := @hne 0
  have hne1 := @hne (magUnits (f64Magnitude u))
  simp only [mul_div_assoc]
  simp only [Nat.cast_zero, zero_div] at h0 hne0
  generalize (magUnits M : ℚ) / unitsPerOne = V at *
  generalize (magUnits (f64Magnitude u) : ℚ) / unitsPerOne = W at *
  generalize (num : ℚ) / den = y at *
  have habs0 : |0 - y| = y := by rw [zero_sub, abs_neg, abs_of_nonneg hy]
  rw [habs0] at h0
  have hopp : |W + y| = W + y := abs_of_nonneg (add_nonneg hW hy)
  have opposite : |V - y| ≤ W + y ∧ (|V - y| = W + y → W = 0 ∧ |V - y| = y) :=
    ⟨by linarith [h0.1], fun h => ⟨by linarith [h0.1], by linarith [h0.1]⟩⟩
  cases neg <;> cases f64Sign u <;> simp only [Bool.false_eq_true, if_true, if_false, one_mul, neg_mul]
  · exact ⟨h1.1, fun he hn => h1.2 he (hne1 hn)⟩
  · have e : |-W - y| = W + y := by rw [← hopp, ← abs_neg]; congr 1; ring
    rw [e]
    exact ⟨opposite.1, fun he hn => h0.2 (opposite.2 he).2 (hne0 (by rw [← neg_zero, ← (opposite.2 he).1]; exact hn))⟩
  · have e1 : |-V - -y| = |V - y| := by rw [← abs_neg]; congr 1; ring
    have e2 : |W - -y| = W + y := by rw [← hopp]; congr 1; ring
    rw [e1, e2]
    exact ⟨opposite.1, fun he hn => h0.2 (opposite.2 he).2 (hne0 (fun h => hn (by rw [(opposite.2 he).1, ← h, neg_zero])))⟩
  · have e1 : |-V - -y| = |V - y| := by rw [← abs_neg]; congr 1; ring
    have e2 : |-W - -y| = |W - y| := by rw [← abs_neg]; congr 1; ring
    rw [e1, e2]
    exact ⟨h1.1, fun he hn => h1.2 he (hne1 (fun h => hn (by rw [h])))⟩

end Sys2Proof.Machine
end

