-- ==== Sys2Proof/Laws/Encoding.lean ====
section
/-! SUPPORT. What the fields of a request word are: the small lemmas of `readWord`, `writeWord` and the field readers. -/

namespace Sys2Proof

@[simp] theorem reqIsWrite_readWord (dev : DevAddr) (reg n : Byte) : reqIsWrite (readWord dev reg n) = false := by
  simp only [reqIsWrite, readWord, BitVec.getLsbD_append]
  simp

@[simp] theorem reqDev_readWord (dev : DevAddr) (reg n : Byte) : reqDev (readWord dev reg n) = dev := by
  ext i hi
  simp only [reqDev, readWord, BitVec.getElem_extractLsb', BitVec.getLsbD_append]
  have : ¬ 24 + i < 8 := by omega
  have : ¬ 24 + i - 8 < 8 := by omega
  have : ¬ 24 + i - 8 - 8 < 8 := by omega
  have h : 24 + i - 8 - 8 - 8 = i := by omega
  simp [*]

@[simp] theorem reqReg_readWord (dev : DevAddr) (reg n : Byte) : reqReg (readWord dev reg n) = reg := by
  ext i hi
  simp only [reqReg, readWord, BitVec.getElem_extractLsb', BitVec.getLsbD_append]
  have : ¬ 16 + i < 8 := by omega
  have : ¬ 16 + i - 8 < 8 := by omega
  have h : 16 + i - 8 - 8 = i := by omega
  simp [*]

@[simp] theorem reqCount_readWord (dev : DevAddr) (reg n : Byte) : reqCount (readWord dev reg n) = n := by
  ext i hi
  simp only [reqCount, readWord, BitVec.getElem_extractLsb', BitVec.getLsbD_append]
  have : ¬ 8 + i < 8 := by omega
  have h : 8 + i - 8 = i := by omega
  simp [*]

@[simp] theorem reqData_readWord (dev : DevAddr) (reg n : Byte) : reqData (readWord dev reg n) = 0#8 := by
  ext i hi
  simp only [reqData, readWord, BitVec.getElem_extractLsb', BitVec.getLsbD_append]
  simp [hi]

@[simp] theorem reqIsWrite_writeWord (dev : DevAddr) (reg v : Byte) : reqIsWrite (writeWord dev reg v) = true := by
  simp only [reqIsWrite, writeWord, BitVec.getLsbD_append]
  simp

@[simp] theorem reqDev_writeWord (dev : DevAddr) (reg v : Byte) : reqDev (writeWord dev reg v) = dev := by
  ext i hi
  simp only [reqDev, writeWord, BitVec.getElem_extractLsb', BitVec.getLsbD_append]
  have : ¬ 24 + i < 8 := by omega
  have : ¬ 24 + i - 8 < 8 := by omega
  have : ¬ 24 + i - 8 - 8 < 8 := by omega
  have h : 24 + i - 8 - 8 - 8 = i := by omega
  simp [*]

@[simp] theorem reqReg_writeWord (dev : DevAddr) (reg v : Byte) : reqReg (writeWord dev reg v) = reg := by
  ext i hi
  simp only [reqReg, writeWord, BitVec.getElem_extractLsb', BitVec.getLsbD_append]
  have : ¬ 16 + i < 8 := by omega
  have : ¬ 16 + i - 8 < 8 := by omega
  have h : 16 + i - 8 - 8 = i := by omega
  simp [*]

@[simp] theorem reqCount_writeWord (dev : DevAddr) (reg v : Byte) : reqCount (writeWord dev reg v) = 1#8 := by
  ext i hi
  simp only [reqCount, writeWord, BitVec.getElem_extractLsb', BitVec.getLsbD_append]
  have : ¬ 8 + i < 8 := by omega
  have h : 8 + i - 8 = i := by omega
  simp [*]

@[simp] theorem reqData_writeWord (dev : DevAddr) (reg v : Byte) : reqData (writeWord dev reg v) = v := by
  ext i hi
  simp only [reqData, writeWord, BitVec.getElem_extractLsb', BitVec.getLsbD_append]
  simp [hi]

/-- Everything the decoder of a request word can answer (30_encoding.md R73 to R76). -/
theorem decodeRequest_cases (w : RequestWord) :
    (reqIsWrite w = true ∧ reqCount w = 1#8 ∧ decodeRequest w = .ok (.accWrite (reqDev w) (reqReg w) (reqData w))) ∨
    (reqIsWrite w = false ∧ reqCount w ≠ 0#8 ∧ reqData w = 0#8 ∧
      decodeRequest w = .ok (.accRead (reqDev w) (reqReg w) (reqCount w))) ∨
    (((reqIsWrite w = false ∧ reqCount w = 0#8) ∨ (reqIsWrite w = false ∧ reqData w ≠ 0#8) ∨
      (reqIsWrite w = true ∧ reqCount w ≠ 1#8)) ∧ ∃ e, decodeRequest w = .error e) := by
  unfold decodeRequest
  by_cases hw : reqIsWrite w = true
  · by_cases hc : reqCount w = 1#8 <;> simp [hw, hc]
  · by_cases hc : reqCount w = 0#8
    · simp [hw, hc]
    · by_cases hd : reqData w = 0#8 <;> simp [hw, hc, hd]

end Sys2Proof
end

