-- ==== Sys2Proof/Laws/State.lean ====
section
/-! SUPPORT. One lemma for each field of State under each named update of Machine/Ops.lean and at reset, true by rfl, so that no
later proof unfolds a record update. -/

namespace Sys2Proof.Machine

/-! ### `pc <- c` -/

@[simp] theorem gotoState_cfg (c : StateCode) (s : State) : (gotoState c s).cfg = s.cfg := rfl
@[simp] theorem gotoState_state (c : StateCode) (s : State) : (gotoState c s).state = c := rfl
@[simp] theorem gotoState_devState (c : StateCode) (s : State) : (gotoState c s).devState = s.devState := rfl
@[simp] theorem gotoState_err (c : StateCode) (s : State) : (gotoState c s).err = s.err := rfl
@[simp] theorem gotoState_pending (c : StateCode) (s : State) : (gotoState c s).pending = s.pending := rfl
@[simp] theorem gotoState_idByte (c : StateCode) (s : State) : (gotoState c s).idByte = s.idByte := rfl
@[simp] theorem gotoState_pwrOld (c : StateCode) (s : State) : (gotoState c s).pwrOld = s.pwrOld := rfl
@[simp] theorem gotoState_pwrNew (c : StateCode) (s : State) : (gotoState c s).pwrNew = s.pwrNew := rfl
@[simp] theorem gotoState_pwrVerify (c : StateCode) (s : State) : (gotoState c s).pwrVerify = s.pwrVerify := rfl
@[simp] theorem gotoState_raw (c : StateCode) (s : State) : (gotoState c s).raw = s.raw := rfl
@[simp] theorem gotoState_ax (c : StateCode) (s : State) : (gotoState c s).ax = s.ax := rfl
@[simp] theorem gotoState_mapped (c : StateCode) (s : State) : (gotoState c s).mapped = s.mapped := rfl
@[simp] theorem gotoState_out (c : StateCode) (s : State) : (gotoState c s).out = s.out := rfl
@[simp] theorem gotoState_comp (c : StateCode) (s : State) : (gotoState c s).comp = s.comp := rfl
@[simp] theorem gotoState_timer (c : StateCode) (s : State) : (gotoState c s).timer = timerOnEntry c s.cfg s.timer := rfl
@[simp] theorem gotoState_rst (c : StateCode) (s : State) : (gotoState c s).rst = s.rst := rfl
@[simp] theorem gotoState_cancel (c : StateCode) (s : State) : (gotoState c s).cancel = s.cancel := rfl
@[simp] theorem gotoState_response (c : StateCode) (s : State) : (gotoState c s).response = s.response := rfl
@[simp] theorem gotoState_faultRec (c : StateCode) (s : State) : (gotoState c s).faultRec = s.faultRec := rfl
@[simp] theorem gotoState_unmarkedReads (c : StateCode) (s : State) : (gotoState c s).unmarkedReads = s.unmarkedReads := rfl
@[simp] theorem gotoState_schedule (c : StateCode) (s : State) : (gotoState c s).schedule = s.schedule := rfl
@[simp] theorem gotoState_events (c : StateCode) (s : State) : (gotoState c s).events = s.events := rfl
@[simp] theorem gotoState_txnCount (c : StateCode) (s : State) : (gotoState c s).txnCount = s.txnCount := rfl
@[simp] theorem gotoState_call (c : StateCode) (s : State) : (gotoState c s).call = s.call := rfl
@[simp] theorem gotoState_ret (c : StateCode) (s : State) : (gotoState c s).ret = s.ret := rfl

/-! ### Reading working registers -/

@[simp] theorem noteReads_cfg (names : List RegName) (s : State) : (noteReads names s).cfg = s.cfg := rfl
@[simp] theorem noteReads_state (names : List RegName) (s : State) : (noteReads names s).state = s.state := rfl
@[simp] theorem noteReads_devState (names : List RegName) (s : State) : (noteReads names s).devState = s.devState := rfl
@[simp] theorem noteReads_err (names : List RegName) (s : State) : (noteReads names s).err = s.err := rfl
@[simp] theorem noteReads_pending (names : List RegName) (s : State) : (noteReads names s).pending = s.pending := rfl
@[simp] theorem noteReads_idByte (names : List RegName) (s : State) : (noteReads names s).idByte = s.idByte := rfl
@[simp] theorem noteReads_pwrOld (names : List RegName) (s : State) : (noteReads names s).pwrOld = s.pwrOld := rfl
@[simp] theorem noteReads_pwrNew (names : List RegName) (s : State) : (noteReads names s).pwrNew = s.pwrNew := rfl
@[simp] theorem noteReads_pwrVerify (names : List RegName) (s : State) : (noteReads names s).pwrVerify = s.pwrVerify := rfl
@[simp] theorem noteReads_raw (names : List RegName) (s : State) : (noteReads names s).raw = s.raw := rfl
@[simp] theorem noteReads_ax (names : List RegName) (s : State) : (noteReads names s).ax = s.ax := rfl
@[simp] theorem noteReads_mapped (names : List RegName) (s : State) : (noteReads names s).mapped = s.mapped := rfl
@[simp] theorem noteReads_out (names : List RegName) (s : State) : (noteReads names s).out = s.out := rfl
@[simp] theorem noteReads_comp (names : List RegName) (s : State) : (noteReads names s).comp = s.comp := rfl
@[simp] theorem noteReads_timer (names : List RegName) (s : State) : (noteReads names s).timer = s.timer := rfl
@[simp] theorem noteReads_rst (names : List RegName) (s : State) : (noteReads names s).rst = s.rst := rfl
@[simp] theorem noteReads_cancel (names : List RegName) (s : State) : (noteReads names s).cancel = s.cancel := rfl
@[simp] theorem noteReads_response (names : List RegName) (s : State) : (noteReads names s).response = s.response := rfl
@[simp] theorem noteReads_faultRec (names : List RegName) (s : State) : (noteReads names s).faultRec = s.faultRec := rfl
@[simp] theorem noteReads_unmarkedReads (names : List RegName) (s : State) : (noteReads names s).unmarkedReads = s.unmarkedReads ++ names := rfl
@[simp] theorem noteReads_schedule (names : List RegName) (s : State) : (noteReads names s).schedule = s.schedule := rfl
@[simp] theorem noteReads_events (names : List RegName) (s : State) : (noteReads names s).events = s.events := rfl
@[simp] theorem noteReads_txnCount (names : List RegName) (s : State) : (noteReads names s).txnCount = s.txnCount := rfl
@[simp] theorem noteReads_call (names : List RegName) (s : State) : (noteReads names s).call = s.call := rfl
@[simp] theorem noteReads_ret (names : List RegName) (s : State) : (noteReads names s).ret = s.ret := rfl

/-! ### Events -/

@[simp] theorem emit_cfg (es : List Event) (s : State) : (emit es s).cfg = s.cfg := rfl
@[simp] theorem emit_state (es : List Event) (s : State) : (emit es s).state = s.state := rfl
@[simp] theorem emit_devState (es : List Event) (s : State) : (emit es s).devState = s.devState := rfl
@[simp] theorem emit_err (es : List Event) (s : State) : (emit es s).err = s.err := rfl
@[simp] theorem emit_pending (es : List Event) (s : State) : (emit es s).pending = s.pending := rfl
@[simp] theorem emit_idByte (es : List Event) (s : State) : (emit es s).idByte = s.idByte := rfl
@[simp] theorem emit_pwrOld (es : List Event) (s : State) : (emit es s).pwrOld = s.pwrOld := rfl
@[simp] theorem emit_pwrNew (es : List Event) (s : State) : (emit es s).pwrNew = s.pwrNew := rfl
@[simp] theorem emit_pwrVerify (es : List Event) (s : State) : (emit es s).pwrVerify = s.pwrVerify := rfl
@[simp] theorem emit_raw (es : List Event) (s : State) : (emit es s).raw = s.raw := rfl
@[simp] theorem emit_ax (es : List Event) (s : State) : (emit es s).ax = s.ax := rfl
@[simp] theorem emit_mapped (es : List Event) (s : State) : (emit es s).mapped = s.mapped := rfl
@[simp] theorem emit_out (es : List Event) (s : State) : (emit es s).out = s.out := rfl
@[simp] theorem emit_comp (es : List Event) (s : State) : (emit es s).comp = s.comp := rfl
@[simp] theorem emit_timer (es : List Event) (s : State) : (emit es s).timer = s.timer := rfl
@[simp] theorem emit_rst (es : List Event) (s : State) : (emit es s).rst = s.rst := rfl
@[simp] theorem emit_cancel (es : List Event) (s : State) : (emit es s).cancel = s.cancel := rfl
@[simp] theorem emit_response (es : List Event) (s : State) : (emit es s).response = s.response := rfl
@[simp] theorem emit_faultRec (es : List Event) (s : State) : (emit es s).faultRec = s.faultRec := rfl
@[simp] theorem emit_unmarkedReads (es : List Event) (s : State) : (emit es s).unmarkedReads = s.unmarkedReads := rfl
@[simp] theorem emit_schedule (es : List Event) (s : State) : (emit es s).schedule = s.schedule := rfl
@[simp] theorem emit_events (es : List Event) (s : State) : (emit es s).events = s.events ++ es := rfl
@[simp] theorem emit_txnCount (es : List Event) (s : State) : (emit es s).txnCount = s.txnCount := rfl
@[simp] theorem emit_call (es : List Event) (s : State) : (emit es s).call = s.call := rfl
@[simp] theorem emit_ret (es : List Event) (s : State) : (emit es s).ret = s.ret := rfl

/-! ### The issue step -/

@[simp] theorem issueRequest_cfg (w : RequestWord) (s : State) : (issueRequest w s).cfg = s.cfg := rfl
@[simp] theorem issueRequest_state (w : RequestWord) (s : State) : (issueRequest w s).state = s.state := rfl
@[simp] theorem issueRequest_devState (w : RequestWord) (s : State) : (issueRequest w s).devState = s.devState := rfl
@[simp] theorem issueRequest_err (w : RequestWord) (s : State) : (issueRequest w s).err = s.err := rfl
@[simp] theorem issueRequest_pending (w : RequestWord) (s : State) : (issueRequest w s).pending = some w := rfl
@[simp] theorem issueRequest_idByte (w : RequestWord) (s : State) : (issueRequest w s).idByte = s.idByte := rfl
@[simp] theorem issueRequest_pwrOld (w : RequestWord) (s : State) : (issueRequest w s).pwrOld = s.pwrOld := rfl
@[simp] theorem issueRequest_pwrNew (w : RequestWord) (s : State) : (issueRequest w s).pwrNew = s.pwrNew := rfl
@[simp] theorem issueRequest_pwrVerify (w : RequestWord) (s : State) : (issueRequest w s).pwrVerify = s.pwrVerify := rfl
@[simp] theorem issueRequest_raw (w : RequestWord) (s : State) : (issueRequest w s).raw = s.raw := rfl
@[simp] theorem issueRequest_ax (w : RequestWord) (s : State) : (issueRequest w s).ax = s.ax := rfl
@[simp] theorem issueRequest_mapped (w : RequestWord) (s : State) : (issueRequest w s).mapped = s.mapped := rfl
@[simp] theorem issueRequest_out (w : RequestWord) (s : State) : (issueRequest w s).out = s.out := rfl
@[simp] theorem issueRequest_comp (w : RequestWord) (s : State) : (issueRequest w s).comp = s.comp := rfl
@[simp] theorem issueRequest_timer (w : RequestWord) (s : State) : (issueRequest w s).timer = s.timer := rfl
@[simp] theorem issueRequest_rst (w : RequestWord) (s : State) : (issueRequest w s).rst = s.rst := rfl
@[simp] theorem issueRequest_cancel (w : RequestWord) (s : State) : (issueRequest w s).cancel = s.cancel := rfl
@[simp] theorem issueRequest_response (w : RequestWord) (s : State) : (issueRequest w s).response = s.response := rfl
@[simp] theorem issueRequest_faultRec (w : RequestWord) (s : State) : (issueRequest w s).faultRec = s.faultRec := rfl
@[simp] theorem issueRequest_unmarkedReads (w : RequestWord) (s : State) : (issueRequest w s).unmarkedReads = s.unmarkedReads := rfl
@[simp] theorem issueRequest_schedule (w : RequestWord) (s : State) : (issueRequest w s).schedule = s.schedule := rfl
@[simp] theorem issueRequest_events (w : RequestWord) (s : State) : (issueRequest w s).events = s.events ++ [.txn w] := rfl
@[simp] theorem issueRequest_txnCount (w : RequestWord) (s : State) : (issueRequest w s).txnCount = s.txnCount + 1 := rfl
@[simp] theorem issueRequest_call (w : RequestWord) (s : State) : (issueRequest w s).call = s.call := rfl
@[simp] theorem issueRequest_ret (w : RequestWord) (s : State) : (issueRequest w s).ret = s.ret := rfl

/-! ### Taking the answer -/

@[simp] theorem takeAnswer_cfg (s : State) : (takeAnswer s).cfg = s.cfg := rfl
@[simp] theorem takeAnswer_state (s : State) : (takeAnswer s).state = s.state := rfl
@[simp] theorem takeAnswer_devState (s : State) : (takeAnswer s).devState = s.devState := rfl
@[simp] theorem takeAnswer_err (s : State) : (takeAnswer s).err = s.err := rfl
@[simp] theorem takeAnswer_pending (s : State) : (takeAnswer s).pending = none := rfl
@[simp] theorem takeAnswer_idByte (s : State) : (takeAnswer s).idByte = s.idByte := rfl
@[simp] theorem takeAnswer_pwrOld (s : State) : (takeAnswer s).pwrOld = s.pwrOld := rfl
@[simp] theorem takeAnswer_pwrNew (s : State) : (takeAnswer s).pwrNew = s.pwrNew := rfl
@[simp] theorem takeAnswer_pwrVerify (s : State) : (takeAnswer s).pwrVerify = s.pwrVerify := rfl
@[simp] theorem takeAnswer_raw (s : State) : (takeAnswer s).raw = s.raw := rfl
@[simp] theorem takeAnswer_ax (s : State) : (takeAnswer s).ax = s.ax := rfl
@[simp] theorem takeAnswer_mapped (s : State) : (takeAnswer s).mapped = s.mapped := rfl
@[simp] theorem takeAnswer_out (s : State) : (takeAnswer s).out = s.out := rfl
@[simp] theorem takeAnswer_comp (s : State) : (takeAnswer s).comp = s.comp := rfl
@[simp] theorem takeAnswer_timer (s : State) : (takeAnswer s).timer = s.timer := rfl
@[simp] theorem takeAnswer_rst (s : State) : (takeAnswer s).rst = s.rst := rfl
@[simp] theorem takeAnswer_cancel (s : State) : (takeAnswer s).cancel = s.cancel := rfl
@[simp] theorem takeAnswer_response (s : State) : (takeAnswer s).response = none := rfl
@[simp] theorem takeAnswer_faultRec (s : State) : (takeAnswer s).faultRec = s.faultRec := rfl
@[simp] theorem takeAnswer_unmarkedReads (s : State) : (takeAnswer s).unmarkedReads = s.unmarkedReads := rfl
@[simp] theorem takeAnswer_schedule (s : State) : (takeAnswer s).schedule = s.schedule := rfl
@[simp] theorem takeAnswer_events (s : State) : (takeAnswer s).events = s.events := rfl
@[simp] theorem takeAnswer_txnCount (s : State) : (takeAnswer s).txnCount = s.txnCount := rfl
@[simp] theorem takeAnswer_call (s : State) : (takeAnswer s).call = s.call := rfl
@[simp] theorem takeAnswer_ret (s : State) : (takeAnswer s).ret = s.ret := rfl

/-! ### The fatal-error sequence -/

@[simp] theorem raiseFatal_cfg (e : Exc) (s : State) : (raiseFatal e s).cfg = s.cfg := rfl
@[simp] theorem raiseFatal_state (e : Exc) (s : State) : (raiseFatal e s).state = stTerminated := rfl
@[simp] theorem raiseFatal_devState (e : Exc) (s : State) : (raiseFatal e s).devState = s.devState := rfl
@[simp] theorem raiseFatal_err (e : Exc) (s : State) : (raiseFatal e s).err = excCode e := rfl
@[simp] theorem raiseFatal_pending (e : Exc) (s : State) : (raiseFatal e s).pending = none := rfl
@[simp] theorem raiseFatal_idByte (e : Exc) (s : State) : (raiseFatal e s).idByte = s.idByte := rfl
@[simp] theorem raiseFatal_pwrOld (e : Exc) (s : State) : (raiseFatal e s).pwrOld = s.pwrOld := rfl
@[simp] theorem raiseFatal_pwrNew (e : Exc) (s : State) : (raiseFatal e s).pwrNew = s.pwrNew := rfl
@[simp] theorem raiseFatal_pwrVerify (e : Exc) (s : State) : (raiseFatal e s).pwrVerify = s.pwrVerify := rfl
@[simp] theorem raiseFatal_raw (e : Exc) (s : State) : (raiseFatal e s).raw = s.raw := rfl
@[simp] theorem raiseFatal_ax (e : Exc) (s : State) : (raiseFatal e s).ax = s.ax := rfl
@[simp] theorem raiseFatal_mapped (e : Exc) (s : State) : (raiseFatal e s).mapped = s.mapped := rfl
@[simp] theorem raiseFatal_out (e : Exc) (s : State) : (raiseFatal e s).out = s.out := rfl
@[simp] theorem raiseFatal_comp (e : Exc) (s : State) : (raiseFatal e s).comp = s.comp := rfl
@[simp] theorem raiseFatal_timer (e : Exc) (s : State) : (raiseFatal e s).timer = s.timer := rfl
@[simp] theorem raiseFatal_rst (e : Exc) (s : State) : (raiseFatal e s).rst = s.rst := rfl
@[simp] theorem raiseFatal_cancel (e : Exc) (s : State) : (raiseFatal e s).cancel = s.cancel := rfl
@[simp] theorem raiseFatal_response (e : Exc) (s : State) : (raiseFatal e s).response = none := rfl
@[simp] theorem raiseFatal_faultRec (e : Exc) (s : State) : (raiseFatal e s).faultRec = some e := rfl
@[simp] theorem raiseFatal_unmarkedReads (e : Exc) (s : State) : (raiseFatal e s).unmarkedReads = s.unmarkedReads := rfl
@[simp] theorem raiseFatal_schedule (e : Exc) (s : State) : (raiseFatal e s).schedule = s.schedule := rfl
@[simp] theorem raiseFatal_events (e : Exc) (s : State) : (raiseFatal e s).events = s.events ++ [.diag (excCode e)] := rfl
@[simp] theorem raiseFatal_txnCount (e : Exc) (s : State) : (raiseFatal e s).txnCount = s.txnCount := rfl
@[simp] theorem raiseFatal_call (e : Exc) (s : State) : (raiseFatal e s).call = none := rfl
@[simp] theorem raiseFatal_ret (e : Exc) (s : State) : (raiseFatal e s).ret = s.ret := rfl

/-! ### The return of a call -/

@[simp] theorem returnCall_cfg (bs : List Byte) (s : State) : (returnCall bs s).cfg = s.cfg := rfl
@[simp] theorem returnCall_state (bs : List Byte) (s : State) : (returnCall bs s).state = s.state := rfl
@[simp] theorem returnCall_devState (bs : List Byte) (s : State) : (returnCall bs s).devState = s.devState := rfl
@[simp] theorem returnCall_err (bs : List Byte) (s : State) : (returnCall bs s).err = s.err := rfl
@[simp] theorem returnCall_pending (bs : List Byte) (s : State) : (returnCall bs s).pending = s.pending := rfl
@[simp] theorem returnCall_idByte (bs : List Byte) (s : State) : (returnCall bs s).idByte = s.idByte := rfl
@[simp] theorem returnCall_pwrOld (bs : List Byte) (s : State) : (returnCall bs s).pwrOld = s.pwrOld := rfl
@[simp] theorem returnCall_pwrNew (bs : List Byte) (s : State) : (returnCall bs s).pwrNew = s.pwrNew := rfl
@[simp] theorem returnCall_pwrVerify (bs : List Byte) (s : State) : (returnCall bs s).pwrVerify = s.pwrVerify := rfl
@[simp] theorem returnCall_raw (bs : List Byte) (s : State) : (returnCall bs s).raw = s.raw := rfl
@[simp] theorem returnCall_ax (bs : List Byte) (s : State) : (returnCall bs s).ax = s.ax := rfl
@[simp] theorem returnCall_mapped (bs : List Byte) (s : State) : (returnCall bs s).mapped = s.mapped := rfl
@[simp] theorem returnCall_out (bs : List Byte) (s : State) : (returnCall bs s).out = s.out := rfl
@[simp] theorem returnCall_comp (bs : List Byte) (s : State) : (returnCall bs s).comp = s.comp := rfl
@[simp] theorem returnCall_timer (bs : List Byte) (s : State) : (returnCall bs s).timer = s.timer := rfl
@[simp] theorem returnCall_rst (bs : List Byte) (s : State) : (returnCall bs s).rst = s.rst := rfl
@[simp] theorem returnCall_cancel (bs : List Byte) (s : State) : (returnCall bs s).cancel = s.cancel := rfl
@[simp] theorem returnCall_response (bs : List Byte) (s : State) : (returnCall bs s).response = s.response := rfl
@[simp] theorem returnCall_faultRec (bs : List Byte) (s : State) : (returnCall bs s).faultRec = s.faultRec := rfl
@[simp] theorem returnCall_unmarkedReads (bs : List Byte) (s : State) : (returnCall bs s).unmarkedReads = s.unmarkedReads := rfl
@[simp] theorem returnCall_schedule (bs : List Byte) (s : State) : (returnCall bs s).schedule = s.schedule := rfl
@[simp] theorem returnCall_events (bs : List Byte) (s : State) : (returnCall bs s).events = s.events := rfl
@[simp] theorem returnCall_txnCount (bs : List Byte) (s : State) : (returnCall bs s).txnCount = s.txnCount := rfl
@[simp] theorem returnCall_call (bs : List Byte) (s : State) : (returnCall bs s).call = none := rfl
@[simp] theorem returnCall_ret (bs : List Byte) (s : State) : (returnCall bs s).ret = some bs := rfl

/-! ### The reset step -/

@[simp] theorem takeReset_cfg (s : State) : (takeReset s).cfg = s.cfg := rfl
@[simp] theorem takeReset_state (s : State) : (takeReset s).state = stIdRead := rfl
@[simp] theorem takeReset_devState (s : State) : (takeReset s).devState = false := rfl
@[simp] theorem takeReset_err (s : State) : (takeReset s).err = 0#3 := rfl
@[simp] theorem takeReset_pending (s : State) : (takeReset s).pending = none := rfl
@[simp] theorem takeReset_idByte (s : State) : (takeReset s).idByte = Reg.unmarked 8 := rfl
@[simp] theorem takeReset_pwrOld (s : State) : (takeReset s).pwrOld = Reg.unmarked 8 := rfl
@[simp] theorem takeReset_pwrNew (s : State) : (takeReset s).pwrNew = Reg.unmarked 8 := rfl
@[simp] theorem takeReset_pwrVerify (s : State) : (takeReset s).pwrVerify = Reg.unmarked 8 := rfl
@[simp] theorem takeReset_raw (s : State) : (takeReset s).raw = Raw.unmarked := rfl
@[simp] theorem takeReset_ax (s : State) : (takeReset s).ax = Axes.unmarked 16 := rfl
@[simp] theorem takeReset_mapped (s : State) : (takeReset s).mapped = Axes.unmarked 32 := rfl
@[simp] theorem takeReset_out (s : State) : (takeReset s).out = Axes.unmarked 64 := rfl
@[simp] theorem takeReset_comp (s : State) : (takeReset s).comp = Axes.unmarked 64 := rfl
@[simp] theorem takeReset_timer (s : State) : (takeReset s).timer = .idle := rfl
@[simp] theorem takeReset_rst (s : State) : (takeReset s).rst = false := rfl
@[simp] theorem takeReset_cancel (s : State) : (takeReset s).cancel = s.cancel := rfl
@[simp] theorem takeReset_response (s : State) : (takeReset s).response = none := rfl
@[simp] theorem takeReset_faultRec (s : State) : (takeReset s).faultRec = none := rfl
@[simp] theorem takeReset_unmarkedReads (s : State) : (takeReset s).unmarkedReads = [] := rfl
@[simp] theorem takeReset_schedule (s : State) : (takeReset s).schedule = s.schedule := rfl
@[simp] theorem takeReset_events (s : State) : (takeReset s).events = s.events := rfl
@[simp] theorem takeReset_txnCount (s : State) : (takeReset s).txnCount = s.txnCount := rfl
@[simp] theorem takeReset_call (s : State) : (takeReset s).call = none := rfl
@[simp] theorem takeReset_ret (s : State) : (takeReset s).ret = none := rfl

/-! ### The state after reset -/

@[simp] theorem reset_cfg : State.reset.cfg = Config.params := rfl
@[simp] theorem reset_state : State.reset.state = stIdRead := rfl
@[simp] theorem reset_devState : State.reset.devState = false := rfl
@[simp] theorem reset_err : State.reset.err = 0#3 := rfl
@[simp] theorem reset_pending : State.reset.pending = none := rfl
@[simp] theorem reset_idByte : State.reset.idByte = Reg.unmarked 8 := rfl
@[simp] theorem reset_pwrOld : State.reset.pwrOld = Reg.unmarked 8 := rfl
@[simp] theorem reset_pwrNew : State.reset.pwrNew = Reg.unmarked 8 := rfl
@[simp] theorem reset_pwrVerify : State.reset.pwrVerify = Reg.unmarked 8 := rfl
@[simp] theorem reset_raw : State.reset.raw = Raw.unmarked := rfl
@[simp] theorem reset_ax : State.reset.ax = Axes.unmarked 16 := rfl
@[simp] theorem reset_mapped : State.reset.mapped = Axes.unmarked 32 := rfl
@[simp] theorem reset_out : State.reset.out = Axes.unmarked 64 := rfl
@[simp] theorem reset_comp : State.reset.comp = Axes.unmarked 64 := rfl
@[simp] theorem reset_timer : State.reset.timer = .idle := rfl
@[simp] theorem reset_rst : State.reset.rst = false := rfl
@[simp] theorem reset_cancel : State.reset.cancel = false := rfl
@[simp] theorem reset_response : State.reset.response = none := rfl
@[simp] theorem reset_faultRec : State.reset.faultRec = none := rfl
@[simp] theorem reset_unmarkedReads : State.reset.unmarkedReads = [] := rfl
@[simp] theorem reset_schedule : State.reset.schedule = [] := rfl
@[simp] theorem reset_events : State.reset.events = [] := rfl
@[simp] theorem reset_txnCount : State.reset.txnCount = 0 := rfl
@[simp] theorem reset_call : State.reset.call = none := rfl
@[simp] theorem reset_ret : State.reset.ret = none := rfl

/-! ### The STATE codes as literals: the spelling simp compares them in -/

@[simp] theorem stIdRead_val : stIdRead = 0#4 := rfl
@[simp] theorem stIdCheck_val : stIdCheck = 1#4 := rfl
@[simp] theorem stPwrRead_val : stPwrRead = 2#4 := rfl
@[simp] theorem stPwrSet_val : stPwrSet = 3#4 := rfl
@[simp] theorem stPwrWrite_val : stPwrWrite = 4#4 := rfl
@[simp] theorem stPwrVerify_val : stPwrVerify = 5#4 := rfl
@[simp] theorem stPollRead_val : stPollRead = 6#4 := rfl
@[simp] theorem stDecode_val : stDecode = 7#4 := rfl
@[simp] theorem stMap_val : stMap = 8#4 := rfl
@[simp] theorem stPublish_val : stPublish = 9#4 := rfl
@[simp] theorem stWait_val : stWait = 10#4 := rfl
@[simp] theorem stStopped_val : stStopped = 11#4 := rfl
@[simp] theorem stTerminated_val : stTerminated = 12#4 := rfl

/-! ### Working registers -/

@[simp] theorem Reg.unmarked_valid (w : Nat) : (Reg.unmarked w).valid = false := rfl
@[simp] theorem Reg.unmarked_val (w : Nat) : (Reg.unmarked w).val = 0#w := rfl
@[simp] theorem Reg.written_valid {w : Nat} (v : BitVec w) : (Reg.written v).valid = true := rfl
@[simp] theorem Reg.written_val {w : Nat} (v : BitVec w) : (Reg.written v).val = v := rfl
@[simp] theorem Axes.map_x {α β : Type} (f : α → β) (a : Axes α) : (a.map f).x = f a.x := rfl
@[simp] theorem Axes.map_y {α β : Type} (f : α → β) (a : Axes α) : (a.map f).y = f a.y := rfl
@[simp] theorem Axes.map_z {α β : Type} (f : α → β) (a : Axes α) : (a.map f).z = f a.z := rfl
@[simp] theorem Axes.written_x {w : Nat} (a : Axes (BitVec w)) : (Axes.written a).x = Reg.written a.x := rfl
@[simp] theorem Axes.written_y {w : Nat} (a : Axes (BitVec w)) : (Axes.written a).y = Reg.written a.y := rfl
@[simp] theorem Axes.written_z {w : Nat} (a : Axes (BitVec w)) : (Axes.written a).z = Reg.written a.z := rfl

@[simp] theorem Axes.vals_x {w : Nat} (a : Axes (Reg w)) : a.vals.x = a.x.val := rfl
@[simp] theorem Axes.vals_y {w : Nat} (a : Axes (Reg w)) : a.vals.y = a.y.val := rfl
@[simp] theorem Axes.vals_z {w : Nat} (a : Axes (Reg w)) : a.vals.z = a.z.val := rfl
@[simp] theorem Raw.bytes_b0 (r : Raw) : r.bytes.b0 = r.b0.val := rfl
@[simp] theorem Raw.bytes_b1 (r : Raw) : r.bytes.b1 = r.b1.val := rfl
@[simp] theorem Raw.bytes_b2 (r : Raw) : r.bytes.b2 = r.b2.val := rfl
@[simp] theorem Raw.bytes_b3 (r : Raw) : r.bytes.b3 = r.b3.val := rfl
@[simp] theorem Raw.bytes_b4 (r : Raw) : r.bytes.b4 = r.b4.val := rfl
@[simp] theorem Raw.bytes_b5 (r : Raw) : r.bytes.b5 = r.b5.val := rfl

/-- A write of all three registers of a file leaves all three with a value. -/
@[simp] theorem Axes.written_allValid {w : Nat} (a : Axes (BitVec w)) : (Axes.written a).AllValid := ⟨rfl, rfl, rfl⟩

/-- A write of RAW leaves all six with a value. -/
@[simp] theorem rawOfAnswer_allValid (bs : List Byte) : (rawOfAnswer bs).AllValid := ⟨rfl, rfl, rfl, rfl, rfl, rfl⟩

end Sys2Proof.Machine
end

