-- ==== Sys2Proof/Laws/Ops.lean ====
section
/-! SUPPORT. For each shared operation, one lemma that says everything it can do, and the equations of its cases. -/

namespace Sys2Proof.Machine

/-! ### Reading working registers -/

@[simp] theorem Reg.unmarkedName_of_valid {w : Nat} {r : Reg w} (name : RegName) (h : r.valid = true) :
    r.unmarkedName name = [] := by
  simp [Reg.unmarkedName, h]

@[simp] theorem Reg.unmarkedName_of_unmarked {w : Nat} {r : Reg w} (name : RegName) (h : r.valid = false) :
    r.unmarkedName name = [name] := by
  simp [Reg.unmarkedName, h]

theorem Axes.unmarkedNames_of_valid {w : Nat} {a : Axes (Reg w)} (name : Axis → RegName) (h : a.AllValid) :
    a.unmarkedNames name = [] := by
  obtain ⟨hx, hy, hz⟩ := h
  simp [Axes.unmarkedNames, hx, hy, hz]

theorem Raw.unmarkedNames_of_valid {r : Raw} (h : r.AllValid) : r.unmarkedNames = [] := by
  obtain ⟨h0, h1, h2, h3, h4, h5⟩ := h
  simp [Raw.unmarkedNames, h0, h1, h2, h3, h4, h5]

/-- Reading marked registers changes nothing. -/
@[simp] theorem noteReads_nil (s : State) : noteReads [] s = s := by
  simp [noteReads]

/-- The record as a filter: the registers of a list whose mark is clear, the first of them taken apart. -/
theorem filter_unmarked_cons {w : Nat} (s : State) (name : RegName) (r : Reg w) (h : markOf s name = r.valid)
    (names : List RegName) :
    (name :: names).filter (fun n => !markOf s n) =
      r.unmarkedName name ++ names.filter (fun n => !markOf s n) := by
  cases hv : r.valid <;> simp [Reg.unmarkedName, h, hv]

@[simp] theorem unmarkedReadsOf_sIdCheck (s : State) :
    unmarkedReadsOf .sIdCheck s = s.idByte.unmarkedName .idByte := by
  simp only [unmarkedReadsOf, readsOf, filter_unmarked_cons s .idByte s.idByte rfl, List.filter_nil, List.append_nil]

@[simp] theorem unmarkedReadsOf_sPwrSet (s : State) :
    unmarkedReadsOf .sPwrSet s = s.pwrOld.unmarkedName .pwrOld := by
  simp only [unmarkedReadsOf, readsOf, filter_unmarked_cons s .pwrOld s.pwrOld rfl, List.filter_nil, List.append_nil]

@[simp] theorem unmarkedReadsOf_sPwrWrite (s : State) :
    unmarkedReadsOf .sPwrWrite s = s.pwrNew.unmarkedName .pwrNew := by
  simp only [unmarkedReadsOf, readsOf, filter_unmarked_cons s .pwrNew s.pwrNew rfl, List.filter_nil, List.append_nil]

@[simp] theorem unmarkedReadsOf_sDecode (s : State) : unmarkedReadsOf .sDecode s = s.raw.unmarkedNames := by
  simp only [unmarkedReadsOf, readsOf, Raw.unmarkedNames, filter_unmarked_cons s (.raw 0) s.raw.b0 rfl,
    filter_unmarked_cons s (.raw 1) s.raw.b1 rfl, filter_unmarked_cons s (.raw 2) s.raw.b2 rfl,
    filter_unmarked_cons s (.raw 3) s.raw.b3 rfl, filter_unmarked_cons s (.raw 4) s.raw.b4 rfl,
    filter_unmarked_cons s (.raw 5) s.raw.b5 rfl, List.filter_nil, List.append_assoc, List.append_nil]

@[simp] theorem unmarkedReadsOf_sMap (s : State) : unmarkedReadsOf .sMap s = s.ax.unmarkedNames .ax := by
  simp only [unmarkedReadsOf, readsOf, Axes.unmarkedNames, filter_unmarked_cons s (.ax .x) s.ax.x rfl,
    filter_unmarked_cons s (.ax .y) s.ax.y rfl, filter_unmarked_cons s (.ax .z) s.ax.z rfl,
    List.filter_nil, List.append_assoc, List.append_nil]

@[simp] theorem unmarkedReadsOf_sPublish (s : State) :
    unmarkedReadsOf .sPublish s =
      s.mapped.unmarkedNames .mapped ++ s.out.unmarkedNames .out ++ s.comp.unmarkedNames .comp := by
  simp only [unmarkedReadsOf, readsOf, Axes.unmarkedNames,
    filter_unmarked_cons s (.mapped .x) s.mapped.x rfl, filter_unmarked_cons s (.mapped .y) s.mapped.y rfl,
    filter_unmarked_cons s (.mapped .z) s.mapped.z rfl, filter_unmarked_cons s (.out .x) s.out.x rfl,
    filter_unmarked_cons s (.out .y) s.out.y rfl, filter_unmarked_cons s (.out .z) s.out.z rfl,
    filter_unmarked_cons s (.comp .x) s.comp.x rfl, filter_unmarked_cons s (.comp .y) s.comp.y rfl,
    filter_unmarked_cons s (.comp .z) s.comp.z rfl, List.filter_nil, List.append_assoc, List.append_nil]

/-- An operation that reads no working register has none to record. -/
theorem unmarkedReadsOf_nil {i : Instr} (h : readsOf i = []) (s : State) : unmarkedReadsOf i s = [] := by
  simp [unmarkedReadsOf, h]

/-! ### Acting only while no transaction is pending -/

@[simp] theorem whenIdle_of_none {s : State} (act : State) (h : s.pending = none) : whenIdle s act = act := by
  simp [whenIdle, h]

@[simp] theorem whenIdle_of_some {s : State} {w : RequestWord} (act : State) (h : s.pending = some w) :
    whenIdle s act = s := by
  simp [whenIdle, h]

/-- A state without a transaction either acts, with PENDING = NONE, or has no step. -/
theorem whenIdle_cases (s act : State) :
    (s.pending = none ∧ whenIdle s act = act) ∨ ((∃ w, s.pending = some w) ∧ whenIdle s act = s) := by
  cases hp : s.pending with
  | none => exact .inl ⟨rfl, by simp [whenIdle, hp]⟩
  | some w => exact .inr ⟨⟨w, rfl⟩, by simp [whenIdle, hp]⟩

/-! ### The answer phases -/

/-- The answer of a read: none yet, FAIL, DATA of the right length, or malformed (40_bus_accessor.md R100). -/
theorem readReply_cases (count : Nat) (w : RequestWord) (r : Option Answer) :
    (r = none ∧ readReply count w r = .waiting) ∨
    (r = some .fail ∧ readReply count w r = .raised (.transportFailure w)) ∨
    (∃ bs, r = some (.data bs) ∧ bs.length = count ∧ readReply count w r = .returned bs) ∨
    ((∃ a, r = some a ∧ a ≠ .fail ∧ ∀ bs, a = .data bs → bs.length ≠ count) ∧
      readReply count w r = .raised (.malformedResponse w)) := by
  match r with
  | none => exact .inl ⟨rfl, rfl⟩
  | some .fail => exact .inr (.inl ⟨rfl, rfl⟩)
  | some (.data bs) =>
    by_cases h : bs.length = count
    · exact .inr (.inr (.inl ⟨bs, rfl, h, by simp [readReply, h]⟩))
    · exact .inr (.inr (.inr ⟨⟨_, rfl, by simp, by rintro _ ⟨⟩; exact h⟩, by simp [readReply, h]⟩))
  | some .ack => exact .inr (.inr (.inr ⟨⟨_, rfl, by simp, by simp⟩, rfl⟩))
  | some (.reserved bs) => exact .inr (.inr (.inr ⟨⟨_, rfl, by simp, by simp⟩, rfl⟩))

/-- The answer of a write: none yet, FAIL, ACK, or malformed (40_bus_accessor.md R102). -/
theorem writeReply_cases (w : RequestWord) (r : Option Answer) :
    (r = none ∧ writeReply w r = .waiting) ∨
    (r = some .fail ∧ writeReply w r = .raised (.transportFailure w)) ∨
    (r = some .ack ∧ writeReply w r = .returned []) ∨
    ((∃ a, r = some a ∧ a ≠ .fail ∧ a ≠ .ack) ∧ writeReply w r = .raised (.malformedResponse w)) := by
  match r with
  | none => exact .inl ⟨rfl, rfl⟩
  | some .fail => exact .inr (.inl ⟨rfl, rfl⟩)
  | some .ack => exact .inr (.inr (.inl ⟨rfl, rfl⟩))
  | some (.data bs) => exact .inr (.inr (.inr ⟨⟨_, rfl, by simp, by simp⟩, rfl⟩))
  | some (.reserved bs) => exact .inr (.inr (.inr ⟨⟨_, rfl, by simp, by simp⟩, rfl⟩))

/-! ### A state's transaction -/

/-- Everything a read state can do: issue, wait, raise one of the two transport exceptions, or go on with the bytes
(20_memory.md R55, 40_bus_accessor.md R100). -/
theorem runRead_cases (reg count : Byte) (onBytes : List Byte → State → State) (s : State) :
    (s.pending = none ∧
      runRead reg count onBytes s = issueRequest (readWord s.cfg.deviceAddr reg count) s) ∨
    ((∃ w, s.pending = some w) ∧ s.response = none ∧ runRead reg count onBytes s = s) ∨
    (∃ w e, s.pending = some w ∧ s.response.isSome = true ∧
      (e = .transportFailure w ∨ e = .malformedResponse w) ∧
      runRead reg count onBytes s = raiseFatal e (takeAnswer s)) ∨
    (∃ w bs, s.pending = some w ∧ s.response = some (.data bs) ∧ bs.length = count.toNat ∧
      runRead reg count onBytes s = onBytes bs (takeAnswer s)) := by
  cases hp : s.pending with
  | none => exact .inl ⟨rfl, by simp [runRead, hp]⟩
  | some w =>
    obtain ⟨hr, h⟩ | ⟨hr, h⟩ | ⟨bs, hr, hl, h⟩ | ⟨⟨a, hr, -, -⟩, h⟩ :=
      readReply_cases count.toNat w s.response
    · exact .inr (.inl ⟨⟨w, rfl⟩, hr, by simp [runRead, hp, h]⟩)
    · exact .inr (.inr (.inl ⟨w, _, rfl, by simp [hr], .inl rfl, by simp [runRead, hp, h]⟩))
    · exact .inr (.inr (.inr ⟨w, bs, rfl, hr, hl, by simp [runRead, hp, h]⟩))
    · exact .inr (.inr (.inl ⟨w, _, rfl, by simp [hr], .inr rfl, by simp [runRead, hp, h]⟩))

/-- Everything the answer step of a write can do. -/
theorem finishWrite_cases (w : RequestWord) (onDone : State → State) (s : State) :
    (s.response = none ∧ finishWrite w onDone s = s) ∨
    (∃ e, s.response.isSome = true ∧ (e = .transportFailure w ∨ e = .malformedResponse w) ∧
      finishWrite w onDone s = raiseFatal e (takeAnswer s)) ∨
    (s.response = some .ack ∧ finishWrite w onDone s = onDone (takeAnswer s)) := by
  obtain ⟨hr, h⟩ | ⟨hr, h⟩ | ⟨hr, h⟩ | ⟨⟨a, hr, -, -⟩, h⟩ := writeReply_cases w s.response
  · exact .inl ⟨hr, by simp [finishWrite, h]⟩
  · exact .inr (.inl ⟨_, by simp [hr], .inl rfl, by simp [finishWrite, h]⟩)
  · exact .inr (.inr ⟨hr, by simp [finishWrite, h]⟩)
  · exact .inr (.inl ⟨_, by simp [hr], .inr rfl, by simp [finishWrite, h]⟩)

/-- Everything a call of the accessor by itself can do. -/
theorem runCall_next {w : RequestWord} {reply : Option Answer → Reply} {s t : State}
    (h : runCall w reply s = .next t) :
    (s.pending = none ∧ t = issueRequest w s) ∨
    (s.pending = some w ∧
      ((reply s.response = .waiting ∧ t = s) ∨
       (∃ e, reply s.response = .raised e ∧ t = raiseFatal e (takeAnswer s)) ∨
       (∃ bs, reply s.response = .returned bs ∧ t = returnCall bs (takeAnswer s)))) := by
  cases hp : s.pending with
  | none => exact .inl ⟨rfl, by simpa [runCall, hp] using h.symm⟩
  | some p =>
    simp only [runCall, hp] at h
    split at h
    · rename_i hpw
      subst hpw
      refine .inr ⟨rfl, ?_⟩
      cases hr : reply s.response <;> simp_all
    · simp at h

/-! ### Control transfer -/

@[simp] theorem timerOnEntry_wait (cfg : Config) (t : Timer) : timerOnEntry stWait cfg t = .running cfg.pollInterval := by
  simp [timerOnEntry]

theorem timerOnEntry_of_ne {c : StateCode} (cfg : Config) (t : Timer) (h : c ≠ stWait) : timerOnEntry c cfg t = t := by
  simp [timerOnEntry, h]

@[simp] theorem timerOnEntry_idRead (cfg : Config) (t : Timer) : timerOnEntry stIdRead cfg t = t := rfl
@[simp] theorem timerOnEntry_idCheck (cfg : Config) (t : Timer) : timerOnEntry stIdCheck cfg t = t := rfl
@[simp] theorem timerOnEntry_pwrRead (cfg : Config) (t : Timer) : timerOnEntry stPwrRead cfg t = t := rfl
@[simp] theorem timerOnEntry_pwrSet (cfg : Config) (t : Timer) : timerOnEntry stPwrSet cfg t = t := rfl
@[simp] theorem timerOnEntry_pwrWrite (cfg : Config) (t : Timer) : timerOnEntry stPwrWrite cfg t = t := rfl
@[simp] theorem timerOnEntry_pwrVerify (cfg : Config) (t : Timer) : timerOnEntry stPwrVerify cfg t = t := rfl
@[simp] theorem timerOnEntry_pollRead (cfg : Config) (t : Timer) : timerOnEntry stPollRead cfg t = t := rfl
@[simp] theorem timerOnEntry_decode (cfg : Config) (t : Timer) : timerOnEntry stDecode cfg t = t := rfl
@[simp] theorem timerOnEntry_map (cfg : Config) (t : Timer) : timerOnEntry stMap cfg t = t := rfl
@[simp] theorem timerOnEntry_publish (cfg : Config) (t : Timer) : timerOnEntry stPublish cfg t = t := rfl
@[simp] theorem timerOnEntry_stopped (cfg : Config) (t : Timer) : timerOnEntry stStopped cfg t = t := rfl
@[simp] theorem timerOnEntry_terminated (cfg : Config) (t : Timer) : timerOnEntry stTerminated cfg t = t := rfl

/-! ### The operation a STATE code selects -/

@[simp] theorem decodeStateCode_idRead : decodeStateCode stIdRead = .sIdRead := rfl
@[simp] theorem decodeStateCode_idCheck : decodeStateCode stIdCheck = .sIdCheck := rfl
@[simp] theorem decodeStateCode_pwrRead : decodeStateCode stPwrRead = .sPwrRead := rfl
@[simp] theorem decodeStateCode_pwrSet : decodeStateCode stPwrSet = .sPwrSet := rfl
@[simp] theorem decodeStateCode_pwrWrite : decodeStateCode stPwrWrite = .sPwrWrite := rfl
@[simp] theorem decodeStateCode_pwrVerify : decodeStateCode stPwrVerify = .sPwrVerify := rfl
@[simp] theorem decodeStateCode_pollRead : decodeStateCode stPollRead = .sPollRead := rfl
@[simp] theorem decodeStateCode_decode : decodeStateCode stDecode = .sDecode := rfl
@[simp] theorem decodeStateCode_map : decodeStateCode stMap = .sMap := rfl
@[simp] theorem decodeStateCode_publish : decodeStateCode stPublish = .sPublish := rfl
@[simp] theorem decodeStateCode_wait : decodeStateCode stWait = .sWait := rfl
@[simp] theorem decodeStateCode_stopped : decodeStateCode stStopped = .sStopped := rfl
@[simp] theorem decodeStateCode_terminated : decodeStateCode stTerminated = .sTerminated := rfl

/-- A STATE code is one of the thirteen of 30_encoding.md R80 or reserved (R81). -/
theorem stateCode_cases (c : StateCode) :
    c = stIdRead ∨ c = stIdCheck ∨ c = stPwrRead ∨ c = stPwrSet ∨ c = stPwrWrite ∨ c = stPwrVerify ∨
    c = stPollRead ∨ c = stDecode ∨ c = stMap ∨ c = stPublish ∨ c = stWait ∨ c = stStopped ∨ c = stTerminated ∨
    c = 0xD#4 ∨ c = 0xE#4 ∨ c = 0xF#4 := by
  revert c
  decide

/-- The encoder inverts the STATE code table. -/
theorem encode_decodeStateCode (c : StateCode) : encode (decodeStateCode c) = .state c := by
  revert c
  decide

/-! ### Fetch and step -/

/-- With no call in the call port the sequencer runs the operation STATE selects (10_state.md R20). -/
theorem runSequencer_of_noCall {s : State} (h : s.call = none) : runSequencer s = exec (decodeStateCode s.state) s := by
  simp [runSequencer, fetch, h]

/-- Everything a step can do that answers a next state: the reset, a turn of another agent, or a step of the sequencer. -/
theorem step_next {s t : State} (h : step s = .next t) :
    (s.rst = true ∧ t = takeReset s) ∨
    (s.rst = false ∧ ∃ turn later, s.schedule = turn :: later ∧ turn ≠ .sequencer ∧
      t = takeTurn turn { s with schedule := later }) ∨
    (s.rst = false ∧ ∃ later, (s.schedule = [] ∧ later = [] ∨ s.schedule = .sequencer :: later) ∧
      runSequencer { s with schedule := later } = .next t) := by
  by_cases hr : s.rst = true
  · exact .inl ⟨hr, by simpa [step, hr] using h.symm⟩
  · have hf : s.rst = false := by simpa using hr
    cases hs : s.schedule with
    | nil =>
      have hself : { s with schedule := [] } = s := by rw [← hs]
      exact .inr (.inr ⟨hf, [], .inl ⟨rfl, rfl⟩, by rw [hself]; simpa [step, hf, hs] using h⟩)
    | cons turn later =>
      cases turn with
      | sequencer => exact .inr (.inr ⟨hf, later, .inr rfl, by simpa [step, hf, hs] using h⟩)
      | raiseRst =>
        exact .inr (.inl ⟨hf, _, later, rfl, by simp, by simpa [step, hf, hs] using h.symm⟩)
      | setCancel level =>
        exact .inr (.inl ⟨hf, _, later, rfl, by simp, by simpa [step, hf, hs] using h.symm⟩)
      | answer n a =>
        exact .inr (.inl ⟨hf, _, later, rfl, by simp, by simpa [step, hf, hs] using h.symm⟩)
      | timerExpires =>
        exact .inr (.inl ⟨hf, _, later, rfl, by simp, by simpa [step, hf, hs] using h.symm⟩)

/-- A turn of another agent writes no register of the block: only an input or the timer (10_state.md R35, R36). -/
theorem takeTurn_cases (turn : Turn) (s : State) :
    takeTurn turn s = s ∨
    (turn = .raiseRst ∧ takeTurn turn s = { s with rst := true }) ∨
    (∃ level, turn = .setCancel level ∧ takeTurn turn s = { s with cancel := level }) ∨
    (∃ n a, turn = .answer n a ∧ answerAccepted n s = true ∧ takeTurn turn s = { s with response := some a }) ∨
    (turn = .timerExpires ∧ takeTurn turn s = { s with timer := expireTimer s.timer }) := by
  cases turn with
  | sequencer => exact .inl rfl
  | raiseRst => exact .inr (.inl ⟨rfl, rfl⟩)
  | setCancel level => exact .inr (.inr (.inl ⟨level, rfl, rfl⟩))
  | answer n a =>
    cases h : answerAccepted n s with
    | false => exact .inl (by simp [takeTurn, h])
    | true => exact .inr (.inr (.inr (.inl ⟨n, a, rfl, h, by simp [takeTurn, h]⟩)))
  | timerExpires => exact .inr (.inr (.inr (.inr ⟨rfl, rfl⟩)))

/-- When an answer is accepted (30_encoding.md R72). -/
theorem answerAccepted_iff (n : Nat) (s : State) :
    answerAccepted n s = true ↔ s.pending.isSome = true ∧ s.response = none ∧ n = s.txnCount := by
  simp [answerAccepted, and_assoc]

end Sys2Proof.Machine
end

