-- ==== Sys2Proof/Laws/Exec.lean ====
section
/-! SUPPORT. Once and for all, everything the operation that STATE selects can do when it answers a next state
(`Effect`, `exec_effect`), and the induction over a run (`run_keeps`). -/

namespace Sys2Proof.Machine

/-- The effects of the operations that STATE selects, each with what it takes: no step, an issue, a failed or malformed
answer, or the state's own rule (41_handshake.md to 44_poll_loop.md). -/
inductive Effect (s : State) : State → Prop where
  | noStep : Effect s s
  | issue (w : RequestWord) : s.pending = none → requestOf s = some w → s.state ≠ stPwrWrite →
      Effect s (issueRequest w s)
  | issueWrite (w : RequestWord) : s.pending = none → requestOf s = some w → s.state = stPwrWrite →
      Effect s (issueRequest w (noteReads (s.pwrNew.unmarkedName .pwrNew) s))
  | badAnswer (e : Exc) (w : RequestWord) : s.pending = some w → s.response.isSome = true →
      (s.state = stIdRead ∨ s.state = stPwrRead ∨ s.state = stPwrWrite ∨ s.state = stPwrVerify ∨ s.state = stPollRead) →
      (e = .transportFailure w ∨ e = .malformedResponse w) → Effect s (raiseFatal e (takeAnswer s))
  | idRead (w : RequestWord) (b : Byte) : s.pending = some w → s.response = some (.data [b]) → s.state = stIdRead →
      Effect s (gotoState stIdCheck { takeAnswer s with idByte := Reg.written b })
  | idMatch : s.pending = none → s.state = stIdCheck → s.idByte.val = s.cfg.expectedDevid →
      Effect s (gotoState stPwrRead (noteReads (s.idByte.unmarkedName .idByte) s))
  | idMismatch : s.pending = none → s.state = stIdCheck → s.idByte.val ≠ s.cfg.expectedDevid →
      Effect s (raiseFatal (.deviceNotFound s.idByte.val) (noteReads (s.idByte.unmarkedName .idByte) s))
  | pwrRead (w : RequestWord) (b : Byte) : s.pending = some w → s.response = some (.data [b]) → s.state = stPwrRead →
      Effect s (gotoState stPwrSet { takeAnswer s with pwrOld := Reg.written b })
  | pwrSet : s.pending = none → s.state = stPwrSet →
      Effect s (gotoState stPwrWrite
        { noteReads (s.pwrOld.unmarkedName .pwrOld) s with pwrNew := Reg.written (setMeasureBit s.pwrOld.val) })
  | pwrWrite (w : RequestWord) : s.pending = some w → s.response = some .ack → s.state = stPwrWrite →
      Effect s (gotoState stPwrVerify (takeAnswer s))
  | pwrVerify (w : RequestWord) (b : Byte) : s.pending = some w → s.response = some (.data [b]) →
      s.state = stPwrVerify →
      Effect s (gotoState stPollRead
        (emit [.log b] { takeAnswer s with pwrVerify := Reg.written b, devState := true }))
  | stop : s.pending = none → s.state = stPollRead → s.cancel = true → Effect s (gotoState stStopped s)
  | pollRead (w : RequestWord) (bs : List Byte) : s.pending = some w → s.response = some (.data bs) →
      bs.length = 6 → s.state = stPollRead →
      Effect s (gotoState stDecode { takeAnswer s with raw := rawOfAnswer bs })
  | decode (a : Axes (BitVec 16)) : s.pending = none → s.state = stDecode →
      Effect s (gotoState stMap { noteReads s.raw.unmarkedNames s with ax := Axes.written a })
  | map (m : Axes (BitVec 32)) (o c : Axes F64) : s.pending = none → s.state = stMap →
      Effect s (gotoState stPublish
        { noteReads (s.ax.unmarkedNames .ax) s with
          mapped := Axes.written m, out := Axes.written o, comp := Axes.written c })
  | publish (m : Axes (BitVec 32)) (o c : Axes F64) : s.pending = none → s.state = stPublish →
      Effect s (gotoState stWait (emit (publishEvents m o c)
        (noteReads (s.mapped.unmarkedNames .mapped ++ s.out.unmarkedNames .out ++ s.comp.unmarkedNames .comp) s)))
  | wait : s.pending = none → s.state = stWait → s.timer = .expired → Effect s (gotoState stPollRead s)

/-- An answer of one byte (20_memory.md R53). -/
theorem one_byte {bs : List Byte} (h : bs.length = (1#8).toNat) : ∃ b, bs = [b] := List.length_eq_one_iff.mp h

/-- What a state's read does, told apart by its four cases. -/
theorem runRead_effect {s : State} {reg count : Byte} {onBytes : List Byte → State → State}
    (hreq : requestOf s = some (readWord s.cfg.deviceAddr reg count))
    (hst : s.state = stIdRead ∨ s.state = stPwrRead ∨ s.state = stPwrVerify ∨ s.state = stPollRead)
    (hok : ∀ w bs, s.pending = some w → s.response = some (.data bs) → bs.length = count.toNat →
      Effect s (onBytes bs (takeAnswer s))) :
    Effect s (runRead reg count onBytes s) := by
  obtain ⟨hp, h⟩ | ⟨_, _, h⟩ | ⟨w, e, hp, hr, he, h⟩ | ⟨w, bs, hp, hr, hl, h⟩ := runRead_cases reg count onBytes s
  · rw [h]
    refine .issue _ hp hreq ?_
    obtain h | h | h | h := hst <;> rw [h] <;> decide
  · rw [h]; exact .noStep
  · rw [h]; exact .badAnswer _ _ hp hr (by tauto) he
  · rw [h]; exact hok w bs hp hr hl

/-- Everything the operation STATE selects can do, in a legal state, when it answers a next state. -/
theorem exec_effect {s t : State} (hl : LegalCode s.state) (h : exec (decodeStateCode s.state) s = .next t) :
    Effect s t := by
  rcases stateCode_cases s.state with e | e | e | e | e | e | e | e | e | e | e | e | e | e | e | e <;> rw [e] at h
  · simp only [decodeStateCode_idRead, exec, execSIdRead, Host.Outcome.next.injEq] at h
    subst h
    refine runRead_effect (by simp [requestOf, e]) (by simp [e]) fun w bs hp hr hb => ?_
    obtain ⟨b, rfl⟩ := one_byte hb
    exact .idRead w b hp hr e
  · simp only [decodeStateCode_idCheck, exec, execSIdCheck, Host.Outcome.next.injEq] at h
    subst h
    obtain ⟨hp, h⟩ | ⟨_, h⟩ := whenIdle_cases s _ <;> rw [h]
    · split
      · exact .idMatch hp e ‹_›
      · exact .idMismatch hp e ‹_›
    · exact .noStep
  · simp only [decodeStateCode_pwrRead, exec, execSPwrRead, Host.Outcome.next.injEq] at h
    subst h
    refine runRead_effect (by simp [requestOf, e]) (by simp [e]) fun w bs hp hr hb => ?_
    obtain ⟨b, rfl⟩ := one_byte hb
    exact .pwrRead w b hp hr e
  · simp only [decodeStateCode_pwrSet, exec, execSPwrSet, Host.Outcome.next.injEq] at h
    subst h
    obtain ⟨hp, h⟩ | ⟨_, h⟩ := whenIdle_cases s _ <;> rw [h]
    · exact .pwrSet hp e
    · exact .noStep
  · simp only [decodeStateCode_pwrWrite, exec, execSPwrWrite, Host.Outcome.next.injEq] at h
    subst h
    cases hp : s.pending with
    | none => exact .issueWrite _ hp (by simp [requestOf, e]) e
    | some w =>
      obtain ⟨_, h⟩ | ⟨_, hr, he, h⟩ | ⟨hr, h⟩ := finishWrite_cases w (gotoState stPwrVerify) s <;> simp only [h]
      · exact .noStep
      · exact .badAnswer _ _ hp hr (by simp [e]) he
      · exact .pwrWrite w hp hr e
  · simp only [decodeStateCode_pwrVerify, exec, execSPwrVerify, Host.Outcome.next.injEq] at h
    subst h
    refine runRead_effect (by simp [requestOf, e]) (by simp [e]) fun w bs hp hr hb => ?_
    obtain ⟨b, rfl⟩ := one_byte hb
    exact .pwrVerify w b hp hr e
  · simp only [decodeStateCode_pollRead, exec, execSPollRead, Host.Outcome.next.injEq] at h
    subst h
    split
    · rename_i hc
      simp only [Bool.and_eq_true, Option.isNone_iff_eq_none] at hc
      exact .stop hc.1 e hc.2
    · refine runRead_effect (by simp [requestOf, e, Config.rawBlockLength]) (by simp [e]) fun w bs hp hr hb => ?_
      exact .pollRead w bs hp hr hb e
  · simp only [decodeStateCode_decode, exec, execSDecode, Host.Outcome.next.injEq] at h
    subst h
    obtain ⟨hp, h⟩ | ⟨_, h⟩ := whenIdle_cases s _ <;> rw [h]
    · exact .decode _ hp e
    · exact .noStep
  · simp only [decodeStateCode_map, exec, execSMap, Host.Outcome.next.injEq] at h
    subst h
    obtain ⟨hp, h⟩ | ⟨_, h⟩ := whenIdle_cases s _ <;> rw [h]
    · exact .map _ _ _ hp e
    · exact .noStep
  · simp only [decodeStateCode_publish, exec, execSPublish, Host.Outcome.next.injEq] at h
    subst h
    obtain ⟨hp, h⟩ | ⟨_, h⟩ := whenIdle_cases s _ <;> rw [h]
    · exact .publish _ _ _ hp e
    · exact .noStep
  · simp only [decodeStateCode_wait, exec, execSWait, Host.Outcome.next.injEq] at h
    subst h
    obtain ⟨hp, h⟩ | ⟨_, h⟩ := whenIdle_cases s _ <;> rw [h]
    · split
      · exact .wait hp e ‹_›
      · exact .noStep
    · exact .noStep
  · simp only [decodeStateCode_stopped, exec, execSStopped, Host.Outcome.next.injEq] at h
    subst h
    exact .noStep
  · simp only [decodeStateCode_terminated, exec, execSTerminated, Host.Outcome.next.injEq] at h
    subst h
    exact .noStep
  all_goals simp [LegalCode, e] at hl

/-- The operation STATE selects always answers a next state. -/
theorem exec_stateCode_next (c : StateCode) (s : State) : ∃ t, exec (decodeStateCode c) s = .next t := by
  rcases stateCode_cases c with e | e | e | e | e | e | e | e | e | e | e | e | e | e | e | e <;>
    rw [e] <;> exact ⟨_, rfl⟩

/-- A reserved STATE code raises IllegalState (60_exceptions.md R225). -/
theorem exec_reserved {s : State} (hl : ¬ LegalCode s.state) :
    exec (decodeStateCode s.state) s = .next (raiseFatal .illegalState s) := by
  rcases stateCode_cases s.state with e | e | e | e | e | e | e | e | e | e | e | e | e | e | e | e <;>
    first
      | (rw [e]; rfl)
      | (refine absurd ?_ hl; simp [LegalCode, e])

/-- Everything a call of the accessor by itself can do when it answers a next state: only PENDING, the response, the call
port, the ports, and what taking an exception writes (40_bus_accessor.md R100, R102). -/
theorem runSequencer_of_call {s t : State} {c : Call} (hc : s.call = some c)
    (h : runSequencer s = .next t) :
    t = { s with
      call := t.call, ret := t.ret, pending := t.pending, response := t.response, events := t.events
      err := t.err, state := t.state, faultRec := t.faultRec, txnCount := t.txnCount } ∧
    ∃ es, t.events = s.events ++ es := by
  have key : ∀ v r, runCall v r s = .next t → t = { s with
      call := t.call, ret := t.ret, pending := t.pending, response := t.response, events := t.events
      err := t.err, state := t.state, faultRec := t.faultRec, txnCount := t.txnCount } ∧
      ∃ es, t.events = s.events ++ es := by
    intro v r h
    rcases runCall_next h with ⟨_, rfl⟩ | ⟨_, ⟨_, rfl⟩ | ⟨e, _, rfl⟩ | ⟨bs, _, rfl⟩⟩
    · exact ⟨rfl, _, rfl⟩
    · exact ⟨rfl, [], by simp⟩
    · exact ⟨rfl, _, rfl⟩
    · exact ⟨rfl, [], by simp⟩
  cases c with
  | emptyRead reg =>
    have hn : runSequencer s = .next (returnCall [] s) := by simp [runSequencer, fetch, hc, exec, execAccRead]
    rw [hn] at h
    cases h
    exact ⟨rfl, [], by simp [returnCall]⟩
  | request w =>
  simp only [runSequencer, fetch, hc] at h
  obtain ⟨_, _, hd⟩ | ⟨_, _, _, hd⟩ | ⟨_, e, hd⟩ := decodeRequest_cases w <;> simp only [hd] at h
  · simp only [exec, execAccWrite] at h
    split at h
    · exact key _ _ h
    · cases h
  · simp only [exec, execAccRead] at h
    split at h
    · cases h; exact ⟨rfl, [], by simp [returnCall]⟩
    · split at h
      · exact key _ _ h
      · cases h
  · cases h

/-- The induction over a run: a property that every state of it passes on to a next state holds along the run. -/
theorem run_keeps (P : State → Prop) (hP : ∀ s, P s → ∃ t, step s = .next t ∧ P t) (k : Nat) {s : State} (h : P s) :
    ∃ t, Host.Core.run Sys2Proof.core k s = .next t ∧ P t := by
  induction k generalizing s with
  | zero => exact ⟨s, rfl, h⟩
  | succ k ih =>
    obtain ⟨t, hs, ht⟩ := hP s h
    have hstep : Sys2Proof.core.step s = .next t := hs
    simp only [Host.Core.run, hstep]
    exact ih ht

/-- The same for a run known to have reached `t`. -/
theorem run_next_keeps (P : State → Prop) (hP : ∀ s t, P s → step s = .next t → P t) (k : Nat) {s t : State}
    (h : P s) (hr : Host.Core.run Sys2Proof.core k s = .next t) : P t := by
  induction k generalizing s with
  | zero => cases hr; exact h
  | succ k ih =>
    simp only [Host.Core.run] at hr
    cases hs : Sys2Proof.core.step s with
    | next u => rw [hs] at hr; exact ih (hP s u h hs) hr
    | fault r => rw [hs] at hr; cases hr
    | refused r => rw [hs] at hr; cases hr

end Sys2Proof.Machine
end

