-- ==== Sys2Proof/Laws/Mapper.lean ====
section
/-! SUPPORT. The integer side of the decoder and the mapper, as linear arithmetic can use it. -/

namespace Sys2Proof.Machine

/-- MAPRANGE with its constants folded, as a division omega knows (43_range_mapper.md R160). -/
theorem mapRange_eq (s : Int) : mapRange s = (s + 512) * 1000 / 1024 := by
  simp [mapRange, Config.mapInHigh, Config.mapOutHigh, Int.fdiv_eq_ediv_of_nonneg]

/-- DECODE16 in numbers (42_sample_decoder.md R140). -/
theorem decode16_eq (lo hi : Byte) :
    decode16 lo hi =
      if 32768 ≤ hi.toNat * 256 + lo.toNat then (hi.toNat : Int) * 256 + lo.toNat - 65536
      else (hi.toNat : Int) * 256 + lo.toNat := by
  simp [decode16, sext16]

/-- A decoded sample is an AxisSample (42_sample_decoder.md R140). -/
theorem decode16_range (lo hi : Byte) : -32768 ≤ decode16 lo hi ∧ decode16 lo hi ≤ 32767 := by
  have := lo.isLt
  have := hi.isLt
  rw [decode16_eq]
  split <;> omega

end Sys2Proof.Machine
end

