-- ==== Sys2Proof/Laws/PerInstr.lean ====
section
/-! SUPPORT. Statements about every operation as syntax, one lemma per constructor of Instr. -/

namespace Sys2Proof.Laws.TableRow

/-- The encoded operation has the fixed bits of its row of spec/opcode_table.json: under the row's mask it is the row's
match value (30_encoding.md R73, R80, R81). -/
def Statement (i : Instr) : Prop := (encode i).toNat &&& i.tableRow.1 = i.tableRow.2

/-- Bit 31 alone, read as a number: the OP field of a request word (30_encoding.md R73). -/
theorem request_mask (w : RequestWord) :
    w.toNat &&& 0x80000000 = if reqIsWrite w then 0x80000000 else 0 := by
  have h : w.toNat &&& 0x80000000 = (w.toNat.testBit 31).toNat * 2 ^ 31 := Nat.and_two_pow w.toNat 31
  rw [h]
  by_cases hb : w.toNat.testBit 31 <;> simp [reqIsWrite, BitVec.getLsbD, hb]

theorem accRead (dev : DevAddr) (reg count : Byte) : Statement (.accRead dev reg count) := by
  simpa [Statement, encode, Code.toNat, Instr.tableRow] using request_mask (readWord dev reg count)

theorem accWrite (dev : DevAddr) (reg v : Byte) : Statement (.accWrite dev reg v) := by
  simpa [Statement, encode, Code.toNat, Instr.tableRow] using request_mask (writeWord dev reg v)

theorem sIdRead : Statement .sIdRead := rfl
theorem sIdCheck : Statement .sIdCheck := rfl
theorem sPwrRead : Statement .sPwrRead := rfl
theorem sPwrSet : Statement .sPwrSet := rfl
theorem sPwrWrite : Statement .sPwrWrite := rfl
theorem sPwrVerify : Statement .sPwrVerify := rfl
theorem sPollRead : Statement .sPollRead := rfl
theorem sDecode : Statement .sDecode := rfl
theorem sMap : Statement .sMap := rfl
theorem sPublish : Statement .sPublish := rfl
theorem sWait : Statement .sWait := rfl
theorem sStopped : Statement .sStopped := rfl
theorem sTerminated : Statement .sTerminated := rfl
theorem reservedStateD : Statement .reservedStateD := rfl
theorem reservedStateE : Statement .reservedStateE := rfl
theorem reservedStateF : Statement .reservedStateF := rfl

end Sys2Proof.Laws.TableRow
end

