-- ==== Sys2Proof/Tests/Slice0.lean ====
section
/-! SUPPORT. Tests. Expected values are the spec's own (95_test_vectors.md and the examples of the rules), or written out
by hand from the encoding tables of 30_encoding.md. The `witness_` theorems each show a concrete case that meets all the
hypotheses of the statement they are named after. -/

namespace Sys2Proof.Tests

open Sys2Proof.Machine

/-! ## Helpers -/

/-- CFG-T, 95_test_vectors.md section 0. -/
def cfgT : Config :=
  { deviceAddr := 0x53#7, devidReg := 0x00#8, powerCtlReg := 0x2D#8, dataStartReg := 50
    expectedDevid := 0xE5#8, pollInterval := 10 }

/-- The state after reset under CFG-T. -/
def base : State := { State.reset with cfg := cfgT }

/-- In a state of the sequence, with the DEV_STATE of that state. -/
def inState (c : StateCode) : State := { base with state := c, devState := decide (6 ≤ c.toNat ∧ c.toNat ≤ 11) }

/-- With a request pending and what has come back for it. -/
def pendingIn (c : StateCode) (w : RequestWord) (a : Option Answer) : State :=
  { inState c with pending := some w, response := a, txnCount := 1 }

/-- With a call in the accessor's call port. -/
def calling (w : RequestWord) : State := { base with call := some (.request w) }

/-- RAW holding six bytes. -/
def rawOf (b0 b1 b2 b3 b4 b5 : Byte) : Raw :=
  { b0 := ⟨b0, true⟩, b1 := ⟨b1, true⟩, b2 := ⟨b2, true⟩, b3 := ⟨b3, true⟩, b4 := ⟨b4, true⟩, b5 := ⟨b5, true⟩ }

/-- A register file holding three values. -/
def axesOf {w : Nat} (x y z : BitVec w) : Axes (Reg w) := { x := ⟨x, true⟩, y := ⟨y, true⟩, z := ⟨z, true⟩ }

/-- S_PUBLISH with MAPPED = (1000, -31500, 1000), 95_test_vectors.md 2.5. -/
def publishing : State :=
  { inState 0x9#4 with
    mapped := axesOf (BitVec.ofInt 32 1000) (BitVec.ofInt 32 (-31500)) (BitVec.ofInt 32 1000)
    out := axesOf 0x4024000000000000#64 0x0000000000000000#64 0x4024000000000000#64
    comp := axesOf 0x0000000000000000#64 0x4024000000000000#64 0x0000000000000000#64 }

/-- What `f` reads of the next state. -/
def view {α : Type} (f : State → α) : Result → Option α
  | .next t => some (f t)
  | .fault _ => none
  | .refused _ => none

/-! ## Well-formedness -/

theorem test_emptyRead_has_no_encoding : (Instr.accRead 0x53#7 0x32#8 0#8).wellFormed = false := by decide
theorem test_read_is_wellFormed : (Instr.accRead 0x53#7 0x32#8 6#8).wellFormed = true := by decide
theorem test_deviceAddr_refused : RawConfig.check ⟨128, 0, 0x2D, 0x32, 0xE5, 10⟩ = .error .deviceAddrTooWide := by rfl
theorem test_devidReg_refused : RawConfig.check ⟨0x53, 256, 0x2D, 0x32, 0xE5, 10⟩ = .error .devidRegTooWide := by rfl
theorem test_powerCtlReg_refused :
    RawConfig.check ⟨0x53, 0, 256, 0x32, 0xE5, 10⟩ = .error .powerCtlRegTooWide := by rfl
theorem test_dataStartReg_refused :
    RawConfig.check ⟨0x53, 0, 0x2D, 0xFB, 0xE5, 10⟩ = .error .dataStartRegAbove0xFA := by rfl
theorem test_expectedDevid_refused :
    RawConfig.check ⟨0x53, 0, 0x2D, 0x32, 256, 10⟩ = .error .expectedDevidTooWide := by rfl
theorem test_cfgT_accepted : RawConfig.check ⟨0x53, 0, 0x2D, 0x32, 0xE5, 10⟩ = .ok cfgT := by rfl

/-! ## Decoding: words written out from 30_encoding.md R74, R75, R80, R81 -/

/-- 0 1010011 00110010 00000110 00000000: READ, DEV 0x53, REG 0x32, COUNT 6. -/
theorem test_decode_accRead :
    decode (.request 0b01010011001100100000011000000000#32) = .ok (.accRead 0x53#7 0x32#8 6#8) := by rfl
/-- 1 1010011 00101101 00000001 00001000: WRITE, DEV 0x53, REG 0x2D, DATA 0x08. -/
theorem test_decode_accWrite :
    decode (.request 0b11010011001011010000000100001000#32) = .ok (.accWrite 0x53#7 0x2D#8 0x08#8) := by rfl
/-- ACC.READ(0xFA, 6) with DEVICE_ADDR = 0x1D, 95_test_vectors.md 2.1. -/
theorem test_decode_accRead_fields : decode (.request 0x1DFA0600#32) = .ok (.accRead 0x1D#7 0xFA#8 6#8) := by rfl
/-- ACC.WRITE(0xFF, 0xFF) with DEVICE_ADDR = 0x7F, 95_test_vectors.md 2.1. -/
theorem test_decode_accWrite_fields : decode (.request 0xFFFF01FF#32) = .ok (.accWrite 0x7F#7 0xFF#8 0xFF#8) := by rfl
theorem test_decode_sIdRead : decode (.state 0b0000#4) = .ok .sIdRead := by rfl
theorem test_decode_sIdCheck : decode (.state 0b0001#4) = .ok .sIdCheck := by rfl
theorem test_decode_sPwrRead : decode (.state 0b0010#4) = .ok .sPwrRead := by rfl
theorem test_decode_sPwrSet : decode (.state 0b0011#4) = .ok .sPwrSet := by rfl
theorem test_decode_sPwrWrite : decode (.state 0b0100#4) = .ok .sPwrWrite := by rfl
theorem test_decode_sPwrVerify : decode (.state 0b0101#4) = .ok .sPwrVerify := by rfl
theorem test_decode_sPollRead : decode (.state 0b0110#4) = .ok .sPollRead := by rfl
theorem test_decode_sDecode : decode (.state 0b0111#4) = .ok .sDecode := by rfl
theorem test_decode_sMap : decode (.state 0b1000#4) = .ok .sMap := by rfl
theorem test_decode_sPublish : decode (.state 0b1001#4) = .ok .sPublish := by rfl
theorem test_decode_sWait : decode (.state 0b1010#4) = .ok .sWait := by rfl
theorem test_decode_sStopped : decode (.state 0b1011#4) = .ok .sStopped := by rfl
theorem test_decode_sTerminated : decode (.state 0b1100#4) = .ok .sTerminated := by rfl
theorem test_decode_reservedStateD : decode (.state 0b1101#4) = .ok .reservedStateD := by rfl
theorem test_decode_reservedStateE : decode (.state 0b1110#4) = .ok .reservedStateE := by rfl
theorem test_decode_reservedStateF : decode (.state 0b1111#4) = .ok .reservedStateF := by rfl
/-- The reserved words of 30_encoding.md R76. -/
theorem test_reserved_readCountZero : decode (.request 0x53320000#32) = .error .readCountZero := by rfl
theorem test_reserved_readDataNonzero : decode (.request 0x53320601#32) = .error .readDataNonzero := by rfl
theorem test_reserved_writeCountNotOne : decode (.request 0xD32D0008#32) = .error .writeCountNotOne := by rfl
theorem test_stateCode_has_four_bits : decodeBytes [0x10#8] = .error .stateCodeTooWide := by rfl
theorem test_two_bytes_are_no_object : decodeBytes [0x00#8, 0x01#8] = .error .badLength := by rfl
/-- The bytes of W_ID under CFG-T, the least significant first (log 18). -/
theorem test_decodeBytes_word :
    decodeBytes [0x00#8, 0x01#8, 0x00#8, 0x53#8] = .ok (.accRead 0x53#7 0x00#8 1#8) := by rfl

/-! ## One step of each operation -/

/-- 40_bus_accessor.md R100: ACC.READ(0x32, 6) under CFG-T issues 0x53320600. -/
theorem test_accRead_issues :
    view (fun t => (t.pending, t.events)) (step (calling 0x53320600#32)) =
      some (some 0x53320600#32, [.txn 0x53320600#32]) := by decide
/-- 95_test_vectors.md 2.1: READ with COUNT 6, DATA of 5 bytes: MalformedResponse. -/
theorem test_accRead_short_answer :
    view (fun t => (t.err, t.state))
      (exec (.accRead 0x53#7 0x32#8 6#8)
        { base with pending := some 0x53320600#32, response := some (.data [1#8, 2#8, 3#8, 4#8, 5#8]) }) =
      some (3#3, 0xC#4) := by decide
/-- 40_bus_accessor.md R101: ACC.READ(0x32, 0) returns the empty list in the calling step, with no event. -/
theorem test_emptyRead_returns :
    view (fun t => (t.ret, t.call, t.pending, t.events)) (step { base with call := some (.emptyRead 0x32#8) }) =
      some (some [], none, none, []) := by decide
/-- 40_bus_accessor.md R102: ACC.WRITE(0x2D, 0x08) under CFG-T issues 0xD32D0108. -/
theorem test_accWrite_issues :
    view (fun t => (t.pending, t.events)) (step (calling 0xD32D0108#32)) =
      some (some 0xD32D0108#32, [.txn 0xD32D0108#32]) := by decide
/-- 95_test_vectors.md 2.1: WRITE, DATA [0x08]: MalformedResponse. -/
theorem test_accWrite_data_answer :
    view (fun t => (t.err, t.faultRec))
      (exec (.accWrite 0x53#7 0x2D#8 0x08#8)
        { base with pending := some 0xD32D0108#32, response := some (.data [0x08#8]) }) =
      some (3#3, some (.malformedResponse 0xD32D0108#32)) := by decide
/-- 41_handshake.md R120. -/
theorem test_sIdRead_issues :
    view (fun t => (t.events, t.state)) (step (inState 0x0#4)) = some ([.txn 0x53000100#32], 0x0#4) := by decide
theorem test_sIdRead_answer :
    view (fun t => (t.idByte, t.state)) (step (pendingIn 0x0#4 0x53000100#32 (some (.data [0xE5#8])))) =
      some (⟨0xE5#8, true⟩, 0x1#4) := by decide
/-- 41_handshake.md R121. -/
theorem test_sIdCheck_match :
    view (fun t => t.state) (step { inState 0x1#4 with idByte := ⟨0xE5#8, true⟩ }) = some 0x2#4 := by decide
/-- 95_test_vectors.md 2.2: 0x65, which is 0xE5 with bit 7 clear. -/
theorem test_sIdCheck_mismatch :
    view (fun t => (t.events, status t)) (step { inState 0x1#4 with idByte := ⟨0x65#8, true⟩ }) =
      some ([.diag 1#3], 0x004C#16) := by decide
/-- 41_handshake.md R122. -/
theorem test_sPwrRead_issues :
    view (fun t => t.events) (step (inState 0x2#4)) = some [.txn 0x532D0100#32] := by decide
theorem test_sPwrRead_answer :
    view (fun t => (t.pwrOld, t.state)) (step (pendingIn 0x2#4 0x532D0100#32 (some (.data [0x00#8])))) =
      some (⟨0x00#8, true⟩, 0x3#4) := by decide
/-- 41_handshake.md R123: 0xF7 -> 0xFF. -/
theorem test_sPwrSet_sets_bit :
    view (fun t => (t.pwrNew, t.state)) (step { inState 0x3#4 with pwrOld := ⟨0xF7#8, true⟩ }) =
      some (⟨0xFF#8, true⟩, 0x4#4) := by decide
/-- 41_handshake.md R123: 0x08 -> 0x08, set and never toggled. -/
theorem test_sPwrSet_never_toggles :
    view (fun t => t.pwrNew) (step { inState 0x3#4 with pwrOld := ⟨0x08#8, true⟩ }) = some ⟨0x08#8, true⟩ := by decide
/-- 10_state.md R34: the read of an unmarked PWR_OLD goes on the record, and the operation goes on (log 3). -/
theorem test_unmarkedRead_is_recorded :
    view (fun t => (t.unmarkedReads, t.pwrNew.valid, t.state)) (step (inState 0x3#4)) =
      some ([.pwrOld], true, 0x4#4) := by decide
/-- 41_handshake.md R124. -/
theorem test_sPwrWrite_issues :
    view (fun t => t.events) (step { inState 0x4#4 with pwrNew := ⟨0x0C#8, true⟩ }) = some [.txn 0xD32D010C#32] := by
  decide
theorem test_sPwrWrite_ack :
    view (fun t => (t.state, busy t)) (step (pendingIn 0x4#4 0xD32D0108#32 (some .ack))) =
      some (0x5#4, false) := by decide
/-- 41_handshake.md R125: the answer DATA [0x00] ends the same way, with LOG(0x00). -/
theorem test_sPwrVerify_logs :
    view (fun t => (t.events, t.devState, t.state))
      (step (pendingIn 0x5#4 0x532D0100#32 (some (.data [0x00#8])))) = some ([.log 0x00#8], true, 0x6#4) := by decide
/-- 95_test_vectors.md 2.6: TransportFailure in the handshake. -/
theorem test_sPwrVerify_fail :
    view status (step (pendingIn 0x5#4 0x532D0100#32 (some .fail))) = some 0x008C#16 := by decide
/-- 42_sample_decoder.md R141: CANCEL in the issue step. -/
theorem test_sPollRead_cancel :
    view (fun t => (t.events, status t)) (step { inState 0x6#4 with cancel := true }) = some ([], 0x001B#16) := by decide
/-- 42_sample_decoder.md R141: CANCEL while the answer is taken does not matter; the bytes keep their order. -/
theorem test_sPollRead_answer :
    view (fun t => (t.raw, t.state))
      (step { pendingIn 0x6#4 0x53320600#32 (some (.data [1#8, 2#8, 3#8, 4#8, 5#8, 6#8])) with cancel := true }) =
      some (rawOf 1#8 2#8 3#8 4#8 5#8 6#8, 0x7#4) := by decide
/-- 95_test_vectors.md E3: the block [0x00, 0x01, 0x00, 0x00, 0xFF, 0xFF] is (256, 0, -1). -/
theorem test_sDecode_block :
    view (fun t => (t.ax.x.val.toInt, t.ax.y.val.toInt, t.ax.z.val.toInt))
      (step { inState 0x7#4 with raw := rawOf 0x00#8 0x01#8 0x00#8 0x00#8 0xFF#8 0xFF#8 }) =
      some (256, 0, -1) := by decide
/-- 95_test_vectors.md 2.3: 0x00, 0x80 is -32768; 0xFF, 0x7F is 32767; 0x7E, 0xFE is -386. -/
theorem test_sDecode_ends :
    view (fun t => (t.ax.x.val.toInt, t.ax.y.val.toInt, t.ax.z.val.toInt))
      (step { inState 0x7#4 with raw := rawOf 0x00#8 0x80#8 0xFF#8 0x7F#8 0x7E#8 0xFE#8 }) =
      some (-32768, 32767, -386) := by decide
/-- 95_test_vectors.md E3. -/
theorem test_sMap_example :
    view (fun t => (t.out.x.val, t.out.z.val, t.comp.x.val, t.comp.z.val))
      (step { inState 0x8#4 with ax := axesOf 256#16 0#16 0xFFFF#16 }) =
      some (0x401E000000000000#64, 0x4013F5C28F5C28F6#64, 0x4004000000000000#64, 0x40140A3D70A3D70A#64) := by
  decide +kernel
/-- 95_test_vectors.md 2.4: s = -513 (the floor), 511 (the complement that is not 0.01) and 32767. -/
theorem test_sMap_corners :
    view (fun t => (t.mapped.x.val.toInt, t.out.x.val, t.comp.y.val, t.comp.z.val))
      (step { inState 0x8#4 with ax := axesOf (BitVec.ofInt 16 (-513)) 511#16 32767#16 }) =
      some (-1, 0x0000000000000000#64, 0x3F847AE147AE1400#64, 0xC073AFD70A3D70A4#64) := by
  decide +kernel
/-- 95_test_vectors.md 2.5: the publish of AX = (512, -32768, 513); "X: 10.00", "Y: 0.00", "Z: 10.00". -/
theorem test_sPublish_text :
    view (fun t => t.events.take 2) (step publishing) =
      some [ .displayClear,
        .displayText [ [0x58#8, 0x3A#8, 0x20#8, 0x31#8, 0x30#8, 0x2E#8, 0x30#8, 0x30#8],
                       [0x59#8, 0x3A#8, 0x20#8, 0x30#8, 0x2E#8, 0x30#8, 0x30#8],
                       [0x5A#8, 0x3A#8, 0x20#8, 0x31#8, 0x30#8, 0x2E#8, 0x30#8, 0x30#8] ] ] := by decide +kernel
theorem test_sPublish_channels :
    view (fun t => (t.events.drop 2, t.timer)) (step publishing) =
      some ([ .analogSet 1#3 0x4024000000000000#64, .analogSet 2#3 0x0000000000000000#64,
              .analogSet 3#3 0x4024000000000000#64, .analogSet 4#3 0x0000000000000000#64,
              .analogSet 5#3 0x4024000000000000#64, .analogSet 6#3 0x0000000000000000#64 ], .running 10) := by
  decide +kernel
/-- 44_poll_loop.md R194. -/
theorem test_sWait_expired :
    view (fun t => t.state) (step { inState 0xA#4 with timer := .expired, cancel := true }) = some 0x6#4 := by decide
theorem test_sWait_running :
    view (fun t => t.state) (step { inState 0xA#4 with timer := .running 10 }) = some 0xA#4 := by decide
/-- 44_poll_loop.md R195. -/
theorem test_sStopped_stays : view status (step (inState 0xB#4)) = some 0x001B#16 := by decide
/-- 60_exceptions.md R226. -/
theorem test_sTerminated_stays :
    view status (step { inState 0xC#4 with err := 2#3, devState := true }) = some 0x009C#16 := by decide
/-- 95_test_vectors.md 2.6: IllegalState with DEV_STATE = 1. -/
theorem test_reservedStateD_raises :
    view status (step { inState 0xD#4 with devState := true }) = some 0x011C#16 := by decide
theorem test_reservedStateE_raises : view (fun t => t.events) (step (inState 0xE#4)) = some [.diag 4#3] := by decide
theorem test_reservedStateF_raises : view (fun t => t.err) (step (inState 0xF#4)) = some 4#3 := by decide
/-- 95_test_vectors.md 2.7: reset with W_DATA pending. -/
theorem test_reset_abandons :
    view (fun t => (t.pending, t.state, status t))
      (step { pendingIn 0x6#4 0x53320600#32 (some (.data [])) with rst := true }) =
      some (none, 0x0#4, 0x0000#16) := by decide
/-- 44_poll_loop.md R193: FMT2(7) is "0.07" and FMT2(32499) is "324.99". -/
theorem test_fmt2_vectors :
    fmt2 7 = [0x30#8, 0x2E#8, 0x30#8, 0x37#8] ∧
    fmt2 32499 = [0x33#8, 0x32#8, 0x34#8, 0x2E#8, 0x39#8, 0x39#8] := by decide +kernel
/-- 95_test_vectors.md 2.4: COMPL for m = 112. -/
theorem test_compl_vector : compl (toOut 112) = 0x4021C28F5C28F5C2#64 := by decide +kernel

/-! ## Witnesses: each shows values that meet all the hypotheses of its statement -/

theorem witness_DecodeEncodeRoundTrip :
    (Instr.accRead 0x53#7 0x32#8 1#8).wellFormed = true ∧ (Instr.accRead 0x53#7 0x32#8 255#8).wellFormed = true ∧
    (Instr.accWrite 0x7F#7 0xFF#8 0xFF#8).wellFormed = true ∧ Instr.reservedStateF.wellFormed = true := by decide

theorem witness_EncodeDecodeRoundTrip : decode (.request 0x5332FF00#32) = .ok (.accRead 0x53#7 0x32#8 255#8) := by rfl

theorem witness_ReservedRequestWords :
    base.call = none ∧
    ∃ t, step base = .next t ∧ t.events = base.events ++ [.txn 0x53000100#32] := ⟨rfl, _, rfl, by decide⟩

theorem witness_ConfigurationCheck :
    RawConfig.check ⟨127, 255, 255, 0xFA, 255, 0⟩ = .ok ⟨0x7F#7, 0xFF#8, 0xFF#8, 250, 0xFF#8, 0⟩ ∧
    RawConfig.check ⟨0, 0, 0, 0, 0, 0⟩ = .ok ⟨0#7, 0#8, 0#8, 0, 0#8, 0⟩ := ⟨rfl, rfl⟩

/-- STATE with no call, a word in the call port, and the schedules the statement admits. -/
theorem witness_StepRunsDecodedInstruction :
    (base.rst = false ∧ base.schedule = [] ∧ base.call = none ∧ decode (.state base.state) = .ok .sIdRead ∧
      Instr.sIdRead.wellFormed = true) ∧
    (∃ s : State, s.rst = false ∧ s.schedule = .sequencer :: [.raiseRst] ∧ s.call = some (.request 0x53320600#32) ∧
      decode (.request 0x53320600#32) = .ok (.accRead 0x53#7 0x32#8 6#8) ∧
      (Instr.accRead 0x53#7 0x32#8 6#8).wellFormed = true) :=
  ⟨⟨rfl, rfl, rfl, rfl, rfl⟩, { calling 0x53320600#32 with schedule := [.sequencer, .raiseRst] },
    rfl, rfl, rfl, rfl, rfl⟩

theorem witness_EmptyReadReturnsAtOnce :
    ∃ s : State, s.rst = false ∧ s.schedule = .sequencer :: [.raiseRst] ∧ s.call = some (.emptyRead 0xFF#8) ∧
      s.pending = some 0x53320600#32 :=
  ⟨{ pendingIn 0x6#4 0x53320600#32 none with
      schedule := [.sequencer, .raiseRst], call := some (.emptyRead 0xFF#8) }, rfl, rfl, rfl, rfl⟩

/-- The word placed where the next step fetches runs (log 23): ACC.WRITE(0xFF, 0xFF) with DEVICE_ADDR = 0x7F. -/
theorem test_placed_word_runs :
    decodeTableWord 32 0xFFFF01FF = some (.accWrite 0x7F#7 0xFF#8 0xFF#8) ∧
    view (fun t => t.events) (step (base.withFetchWord 32 0xFFFF01FF)) = some [.txn 0xFFFF01FF#32] := by
  exact ⟨rfl, by decide⟩

theorem witness_AccReadTransaction :
    (0x5332FF00#32 = 0#1 ++ base.cfg.deviceAddr ++ 0x32#8 ++ 255#8 ++ 0x00#8 ∧ 255#8 ≠ 0#8) ∧
    (0x53320100#32 = 0#1 ++ base.cfg.deviceAddr ++ 0x32#8 ++ 1#8 ++ 0x00#8 ∧ 1#8 ≠ 0#8) ∧
    base.pending = none ∧
    (∃ s, s = pendingIn 0x0#4 0x53320100#32 none ∧ s.pending = some 0x53320100#32 ∧ s.response = none) ∧
    (∃ s, s = pendingIn 0x0#4 0x53320100#32 (some (.data [0xE5#8])) ∧ s.pending = some 0x53320100#32 ∧
      s.response = some (.data [0xE5#8]) ∧ [0xE5#8].length = (1#8).toNat) ∧
    (∃ s, s = pendingIn 0x0#4 0x53320100#32 (some .fail) ∧ s.pending = some 0x53320100#32 ∧
      s.response = some .fail) ∧
    (∃ s, s = pendingIn 0x0#4 0x53320100#32 (some .ack) ∧ s.pending = some 0x53320100#32 ∧ s.response = some .ack ∧
      Answer.ack ≠ .fail ∧ ∀ bs, Answer.ack = .data bs → bs.length ≠ (1#8).toNat) := by
  refine ⟨by decide, by decide, rfl, ⟨_, rfl, rfl, rfl⟩, ⟨_, rfl, rfl, rfl, rfl⟩, ⟨_, rfl, rfl, rfl⟩,
    ⟨_, rfl, rfl, rfl, by decide, fun bs h => by cases h⟩⟩

theorem witness_AccWriteTransaction :
    0xD32D01FF#32 = 1#1 ++ base.cfg.deviceAddr ++ 0x2D#8 ++ 0x01#8 ++ 0xFF#8 ∧ base.pending = none ∧
    (∀ a, (pendingIn 0x4#4 0xD32D01FF#32 a).pending = some 0xD32D01FF#32 ∧
      (pendingIn 0x4#4 0xD32D01FF#32 a).response = a) ∧
    Answer.data [] ≠ .fail ∧ Answer.data [] ≠ .ack :=
  ⟨by decide, rfl, fun _ => ⟨rfl, rfl⟩, by decide, by decide⟩

theorem witness_AccessorStops :
    1#8 ≠ 0#8 ∧ 0x54#7 ≠ base.cfg.deviceAddr ∧
    (∃ s, s = pendingIn 0x0#4 0x53000100#32 none ∧ 0x53#7 = s.cfg.deviceAddr ∧ s.pending = some 0x53000100#32 ∧
      0x53000100#32 ≠ 0#1 ++ 0x53#7 ++ 0x32#8 ++ 1#8 ++ 0x00#8 ∧
      0x53000100#32 ≠ 1#1 ++ 0x53#7 ++ 0x32#8 ++ 0x01#8 ++ 0x08#8) :=
  ⟨by decide, by decide, _, rfl, rfl, rfl, by decide, by decide⟩

theorem witness_IdReadTransaction :
    (base.pending = none ∧
      0x53000100#32 = 0#1 ++ base.cfg.deviceAddr ++ base.cfg.devidReg ++ 1#8 ++ 0x00#8) ∧
    (∃ s, s = pendingIn 0x0#4 0x53000100#32 (some (.data [0xE5#8])) ∧ s.pending = some 0x53000100#32 ∧
      s.response = some (.data [0xE5#8])) := ⟨by decide, _, rfl, rfl, rfl⟩

/-- The expected byte, another one, and ID_BYTE as reset leaves it. -/
theorem witness_IdCheckComparesExactly :
    (∃ s : State, s.pending = none ∧ s.idByte.val = s.cfg.expectedDevid) ∧
    (∃ s : State, s.pending = none ∧ s.idByte = ⟨0x65#8, true⟩ ∧ s.idByte.val ≠ s.cfg.expectedDevid) ∧
    ((inState 0x1#4).pending = none ∧ (inState 0x1#4).idByte.valid = false ∧
      (inState 0x1#4).idByte.val ≠ (inState 0x1#4).cfg.expectedDevid) :=
  ⟨⟨{ inState 0x1#4 with idByte := ⟨0xE5#8, true⟩ }, rfl, rfl⟩,
    ⟨{ inState 0x1#4 with idByte := ⟨0x65#8, true⟩ }, rfl, rfl, by decide⟩, rfl, rfl, by decide⟩

theorem witness_PwrReadTransaction :
    (base.pending = none ∧
      0x532D0100#32 = 0#1 ++ base.cfg.deviceAddr ++ base.cfg.powerCtlReg ++ 1#8 ++ 0x00#8) ∧
    (∃ s, s = pendingIn 0x2#4 0x532D0100#32 (some (.data [0xFF#8])) ∧ s.pending = some 0x532D0100#32 ∧
      s.response = some (.data [0xFF#8])) := ⟨by decide, _, rfl, rfl, rfl⟩

theorem witness_PwrSetSetsBitThree :
    (inState 0x3#4).pending = none ∧ (inState 0x3#4).pwrOld.valid = false ∧
    ∃ s : State, s.pending = none ∧ s.pwrOld = ⟨0xF7#8, true⟩ :=
  ⟨rfl, rfl, { inState 0x3#4 with pwrOld := ⟨0xF7#8, true⟩ }, rfl, rfl⟩

theorem witness_PwrWriteTransaction :
    (∃ s : State, s.pending = none ∧ s.pwrNew = ⟨0xFF#8, true⟩ ∧
      0xD32D01FF#32 = 1#1 ++ s.cfg.deviceAddr ++ s.cfg.powerCtlReg ++ 0x01#8 ++ s.pwrNew.val) ∧
    (∃ s, s = pendingIn 0x4#4 0xD32D01FF#32 (some .ack) ∧ s.pending = some 0xD32D01FF#32 ∧ s.response = some .ack) :=
  ⟨⟨{ inState 0x4#4 with pwrNew := ⟨0xFF#8, true⟩ }, rfl, rfl, by decide⟩, _, rfl, rfl, rfl⟩

theorem witness_PwrVerifyTransaction :
    (base.pending = none ∧
      0x532D0100#32 = 0#1 ++ base.cfg.deviceAddr ++ base.cfg.powerCtlReg ++ 1#8 ++ 0x00#8) ∧
    (∃ s, s = pendingIn 0x5#4 0x532D0100#32 (some (.data [0x00#8])) ∧ s.pending = some 0x532D0100#32 ∧
      s.response = some (.data [0x00#8])) := ⟨by decide, _, rfl, rfl, rfl⟩

theorem witness_PollReadTransaction :
    (∃ s : State, s.pending = none ∧ s.cancel = true) ∧
    (base.pending = none ∧ base.cancel = false ∧
      0x53320600#32 = 0#1 ++ base.cfg.deviceAddr ++ base.cfg.dataStart ++ 6#8 ++ 0x00#8) ∧
    (∃ s, s = pendingIn 0x6#4 0x53320600#32 (some (.data [1#8, 2#8, 3#8, 4#8, 5#8, 6#8])) ∧
      s.pending = some 0x53320600#32 ∧ s.response = some (.data [1#8, 2#8, 3#8, 4#8, 5#8, 6#8])) :=
  ⟨⟨{ inState 0x6#4 with cancel := true }, rfl, rfl⟩, by decide, _, rfl, rfl, rfl⟩

theorem witness_DecodeFillsSamples :
    (inState 0x7#4).pending = none ∧ ∃ s : State, s.pending = none ∧ s.raw.AllValid :=
  ⟨rfl, { inState 0x7#4 with raw := rawOf 0x00#8 0x80#8 0xFF#8 0x7F#8 0xFF#8 0xFF#8 },
    rfl, rfl, rfl, rfl, rfl, rfl, rfl⟩

theorem witness_MapFillsOutputs :
    (inState 0x8#4).pending = none ∧ ∃ s : State, s.pending = none ∧ s.ax.AllValid :=
  ⟨rfl, { inState 0x8#4 with ax := axesOf 0x8000#16 0x7FFF#16 0xFE00#16 }, rfl, rfl, rfl, rfl⟩

/-- Two equal blocks of bytes with equal samples, and the ends of the range of a sample. -/
theorem witness_DecodeIsBijective :
    (∃ a b : RawBytes, samplesOf a = samplesOf b) ∧ ∀ v ∈ [-32768, (32767 : Int)], -32768 ≤ v ∧ v ≤ 32767 :=
  ⟨⟨⟨0#8, 1#8, 0#8, 0#8, 0xFF#8, 0xFF#8⟩, ⟨0#8, 1#8, 0#8, 0#8, 0xFF#8, 0xFF#8⟩, rfl⟩, by decide⟩

theorem witness_MapRangeShiftForm : ∀ s ∈ [-32768, (32767 : Int)], -32768 ≤ s ∧ s ≤ 32767 := by decide

/-- The ends of the range, and the samples about the zero of MAPRANGE and about 10.0. -/
theorem witness_MapperRanges :
    ∀ s ∈ [-32768, -513, -512, 513, 514, (32767 : Int)], -32768 ≤ s ∧ s ≤ 32767 := by decide

theorem witness_MapperLaws : (-32768 : Int) ≤ -512 ∧ (-512 : Int) ≤ 512 ∧ (512 : Int) ≤ 32767 := by decide

theorem witness_TruncationChangesNoOutput :
    (-32768 : Int) ≤ -513 ∧ (-513 : Int) ≤ 32767 ∧ Int.tdiv ((-513 + 512) * 1000) 1024 ≠ mapRange (-513) := by decide

theorem witness_OutputsAreNearest : ∀ m ∈ [-31500, 0, (32499 : Int)], -31500 ≤ m ∧ m ≤ 32499 := by decide

/-- 10.0 and 2.5: finite operands, a divisor that is not zero, finite results; and an integer just below 2^53. -/
theorem witness_Binary64PrimitivesRound :
    f64IsFinite 0x4024000000000000#64 = true ∧ f64IsFinite 0x4004000000000000#64 = true ∧
    f64Value 0x4004000000000000#64 ≠ 0 ∧
    f64IsFinite (f64Div 0x4024000000000000#64 0x4004000000000000#64) = true ∧
    f64IsFinite (f64Sub 0x4024000000000000#64 0x4004000000000000#64) = true ∧
    (9007199254740991 : Int).natAbs < 2 ^ 53 := by
  have num : f64SignedNum 0x4004000000000000#64 ≠ 0 := by decide +kernel
  have den : f64Den 0x4004000000000000#64 ≠ 0 := by decide +kernel
  refine ⟨by decide +kernel, by decide +kernel, ?_, by decide +kernel, by decide +kernel, by decide⟩
  exact div_ne_zero (Int.cast_ne_zero.mpr num) (Nat.cast_ne_zero.mpr den)

theorem witness_PublishSendsEight :
    (inState 0x9#4).pending = none ∧ publishing.pending = none ∧ publishing.mapped.AllValid ∧ publishing.out.AllValid ∧ publishing.comp.AllValid :=
  ⟨rfl, rfl, ⟨rfl, rfl, rfl⟩, ⟨rfl, rfl, rfl⟩, ⟨rfl, rfl, rfl⟩⟩

theorem witness_Fmt2SpellsHundredths : 0 ≤ 32499 ∧ 32499 ≤ 32499 := by decide

theorem witness_WaitEndsOnExpiry :
    (∃ s : State, s.pending = none ∧ s.timer = .expired) ∧ (∃ s : State, s.pending = none ∧ s.timer ≠ .expired) :=
  ⟨⟨{ inState 0xA#4 with timer := .expired }, rfl, rfl⟩, inState 0xA#4, rfl, by decide⟩

theorem witness_BadAnswersAreFatal :
    (∀ a, (pendingIn 0x0#4 0x53000100#32 a).pending = some 0x53000100#32 ∧
      (pendingIn 0x0#4 0x53000100#32 a).response = a) ∧
    (Answer.data [] ≠ .fail ∧ ∀ bs, Answer.data [] = .data bs → bs.length ≠ 1) ∧
    (Answer.data [0#8, 0#8, 0#8, 0#8, 0#8] ≠ .fail ∧
      ∀ bs, Answer.data [0#8, 0#8, 0#8, 0#8, 0#8] = .data bs → bs.length ≠ 6) ∧
    (Answer.reserved [] ≠ .fail ∧ Answer.reserved [] ≠ .ack) := by
  refine ⟨fun _ => ⟨rfl, rfl⟩, ⟨by decide, ?_⟩, ⟨by decide, ?_⟩, by decide, by decide⟩ <;>
    · intro bs h
      cases h
      decide

theorem witness_AnswerLegality :
    decodeRequest 0x53320600#32 = .ok (.accRead 0x53#7 0x32#8 6#8) ∧
    decodeRequest 0xD32D0108#32 = .ok (.accWrite 0x53#7 0x2D#8 0x08#8) := ⟨rfl, rfl⟩

theorem witness_NoAnswerNoStep :
    (pendingIn 0x6#4 0x53320600#32 none).pending = some 0x53320600#32 ∧
    (pendingIn 0x6#4 0x53320600#32 none).response = none := ⟨rfl, rfl⟩

theorem witness_PendingHoldsOtherStates :
    (pendingIn 0xA#4 0x53320600#32 none).pending = some 0x53320600#32 := rfl

/-- S_MAP with AX_Y and AX_Z unmarked, and with a transaction pending. -/
theorem witness_UnmarkedReadsAreRecorded :
    (∃ s t : State, exec .sMap s = .next t ∧ s.pending = none ∧ t.unmarkedReads = [.ax .y, .ax .z]) ∧
    (∃ t, exec .sMap (pendingIn 0x8#4 0x53320600#32 none) = .next t ∧ t.unmarkedReads = []) :=
  ⟨⟨{ inState 0x8#4 with ax := { Axes.unmarked 16 with x := ⟨1#16, true⟩ } }, _, rfl, rfl, rfl⟩, _, rfl, rfl⟩

theorem witness_ResetTakesPriority :
    ∃ s : State, s.rst = true ∧ s.pending = some 0x53320600#32 ∧ s.schedule = [.timerExpires] :=
  ⟨{ pendingIn 0x6#4 0x53320600#32 (some .fail) with rst := true, schedule := [.timerExpires] }, rfl, rfl, rfl⟩

theorem witness_ResetAbandonsTransaction :
    ∃ s : State, s.rst = true ∧ s.pending = some 0x53320600#32 ∧ 1 ≤ s.txnCount :=
  ⟨{ pendingIn 0x6#4 0x53320600#32 none with rst := true }, rfl, rfl, by decide⟩

theorem witness_StatusWord :
    (∃ s : State, s.devState = false) ∧
    (∃ s : State, s.state = 0x6#4 ∧ s.devState = true ∧ s.err = 0#3 ∧ s.pending.isSome = true) :=
  ⟨⟨base, rfl⟩, pendingIn 0x6#4 0x53320600#32 none, by decide⟩

/-- A state of the poll loop with its transaction pending satisfies the invariant. -/
theorem witness_Inv (a : Option Answer) : Inv (pendingIn 0x6#4 0x53320600#32 a) := by
  have other : ∀ {P : Prop} (c : StateCode), c ≠ 0x6#4 → 0x6#4 = c → P := fun c h h' => absurd h'.symm h
  refine
    { noCall := rfl
      legal := show 6 ≤ 12 by decide
      devInHandshake := fun h => absurd (show 6 ≤ 5 from h) (by decide)
      devInPolling := fun _ _ => rfl
      devInTerminated := fun _ h => nomatch h
      recorded := show 0x6#4 = stTerminated ↔ false = true by decide
      errCode := rfl
      pendingWord := ?_
      answerPaired := fun _ => rfl
      noUnmarkedRead := rfl
      idByteValid := other _ (by decide)
      pwrOldValid := other _ (by decide)
      pwrNewValid := other _ (by decide)
      rawValid := other _ (by decide)
      axValid := other _ (by decide)
      publishValid := other _ (by decide)
      timerStarted := other _ (by decide) }
  intro w h
  cases h
  show requestOf (inState 0x6#4) = some 0x53320600#32
  decide

/-- S_TERMINATED after a DeviceNotFound, with a reset requested. -/
def terminated : State :=
  { inState 0xC#4 with err := 1#3, rst := true, faultRec := some (.deviceNotFound 0#8) }

theorem witness_Inv_terminated : Inv terminated := by
  have other : ∀ {P : Prop} (c : StateCode), c ≠ 0xC#4 → 0xC#4 = c → P := fun c h h' => absurd h'.symm h
  refine
    { noCall := rfl
      legal := show 12 ≤ 12 by decide
      devInHandshake := fun h => absurd (show 12 ≤ 5 from h) (by decide)
      devInPolling := fun _ h => absurd (show 12 ≤ 11 from h) (by decide)
      devInTerminated := ?_
      recorded := show 0xC#4 = stTerminated ↔ true = true by decide
      errCode := rfl
      pendingWord := fun _ h => nomatch h
      answerPaired := fun h => nomatch h
      noUnmarkedRead := rfl
      idByteValid := other _ (by decide)
      pwrOldValid := other _ (by decide)
      pwrNewValid := other _ (by decide)
      rawValid := other _ (by decide)
      axValid := other _ (by decide)
      publishValid := other _ (by decide)
      timerStarted := other _ (by decide) }
  intro e h
  cases h
  exact ⟨fun h => absurd (show false = true from h) (by decide), fun h => False.elim h⟩

theorem witness_StepKeepsInvariant :
    Inv (pendingIn 0x6#4 0x53320600#32 (some .fail)) ∧
    ∃ t, step (pendingIn 0x6#4 0x53320600#32 (some .fail)) = .next t :=
  ⟨witness_Inv _, _, rfl⟩

theorem witness_InvariantNeverStops : (inState 0xF#4).call = none ∧ ∃ s, Inv s := ⟨rfl, _, witness_Inv none⟩

theorem witness_RequestsAreTheStatesOwn :
    Inv (pendingIn 0x6#4 0x53320600#32 none) ∧ ∃ t, step (pendingIn 0x6#4 0x53320600#32 none) = .next t :=
  ⟨witness_Inv _, _, rfl⟩

/-- ERR changes by a FAIL answer, and by a reset in S_TERMINATED. -/
theorem witness_ErrWriters :
    (Inv (pendingIn 0x6#4 0x53320600#32 (some .fail)) ∧
      ∃ t, step (pendingIn 0x6#4 0x53320600#32 (some .fail)) = .next t ∧ t.err ≠ 0#3) ∧
    (∃ s t, Inv s ∧ step s = .next t ∧ t.err ≠ s.err ∧ s.rst = true) :=
  ⟨⟨witness_Inv _, _, rfl, by decide⟩, terminated, _, witness_Inv_terminated, rfl, by decide, rfl⟩

theorem witness_LegalTransitionsExactly :
    (base.call = none ∧ LegalCode base.state ∧ ∃ t, step base = .next t) ∧
    ((stPollRead, stStopped) ∈ legalTransitions) ∧ (∃ s : State, s.rst = true) :=
  ⟨⟨rfl, Nat.zero_le _, _, rfl⟩, by decide, { base with rst := true }, rfl⟩

theorem witness_ConfigurationConstant : ∃ t, step publishing = .next t := ⟨_, rfl⟩

theorem witness_EventsOnlyAppended : ∃ t, step (calling 0x53320600#32) = .next t := ⟨_, rfl⟩

theorem witness_ReservedStatesRaise :
    Instr.reservedStateD ∈ [Instr.reservedStateD, Instr.reservedStateE, Instr.reservedStateF] := by decide

theorem witness_SinksHearOnlyPublish : publishing.call = none ∧ publishing.state = 0x9#4 ∧ ∃ t, step publishing = .next t :=
  ⟨rfl, rfl, _, rfl⟩

theorem witness_CancelReadOnlyAtPollIssue :
    ¬ (Instr.sWait = .sPollRead ∧ base.pending = none) ∧
    ¬ (Instr.sPollRead = .sPollRead ∧ (pendingIn 0x6#4 0x53320600#32 none).pending = none) := by decide

theorem witness_DevStateWriters :
    (∃ t, step (pendingIn 0x5#4 0x532D0100#32 (some (.data [0x08#8]))) = .next t ∧
      t.devState ≠ (pendingIn 0x5#4 0x532D0100#32 (some (.data [0x08#8]))).devState) ∧
    (∃ s t, step s = .next t ∧ t.devState ≠ s.devState ∧ s.rst = true) :=
  ⟨⟨_, rfl, by decide⟩, { inState 0xB#4 with rst := true }, _, rfl, by decide, rfl⟩

theorem witness_FinalStatesAbsorb :
    ∀ c ∈ [0xB#4, 0xC#4], ∃ s : State, s.state = c ∧ s.call = none ∧ s.rst = false ∧ NoReset s.schedule :=
  fun c _ => ⟨{ inState c with schedule := [.setCancel true, .sequencer] }, rfl, rfl, rfl, by simp [NoReset]⟩

theorem witness_SilentTransportWaitsForever :
    ∃ s : State, s.pending = some 0x53320600#32 ∧ s.response = none ∧ s.call = none ∧ LegalCode s.state ∧
      s.rst = false ∧ NoReset s.schedule ∧ Silent s.schedule :=
  ⟨{ pendingIn 0x6#4 0x53320600#32 none with schedule := [.timerExpires] }, rfl, rfl, rfl,
    by simp [LegalCode, pendingIn, inState], rfl, by simp [NoReset], by simp [Silent]⟩

/-- The schedule of 95_test_vectors.md E1. -/
def handshakeTurns : List Turn :=
  [ .sequencer, .answer 1 (.data [0xE5#8]), .sequencer, .sequencer, .sequencer, .answer 2 (.data [0x00#8]), .sequencer,
    .sequencer, .sequencer, .answer 3 .ack, .sequencer, .sequencer, .answer 4 (.data [0x08#8]), .sequencer ]

theorem witness_HandshakeMakesFourTransactions :
    NoReset handshakeTurns ∧
    ∃ t, Host.Core.run Sys2Proof.core 14 (launch cfgT handshakeTurns) = .next t ∧ t.devState = true :=
  ⟨by simp [NoReset, handshakeTurns], _, rfl, by decide⟩

/-- The schedule of 95_test_vectors.md E2, before and after the comparison. -/
theorem witness_WrongIdEndsTheRun :
    NoReset [.sequencer, .answer 1 (.data [0x00#8])] ∧ 0x00#8 ≠ cfgT.expectedDevid ∧
    (∃ t, Host.Core.run Sys2Proof.core 3 (launch cfgT [.sequencer, .answer 1 (.data [0x00#8])]) = .next t ∧
      t.idByte = ⟨0x00#8, true⟩ ∧ t.state = 0x1#4) ∧
    (∃ t, Host.Core.run Sys2Proof.core 4 (launch cfgT [.sequencer, .answer 1 (.data [0x00#8])]) = .next t ∧
      t.idByte = ⟨0x00#8, true⟩ ∧ t.state = 0xC#4) :=
  ⟨by simp [NoReset], by decide, ⟨_, rfl, by decide, by decide⟩, _, rfl, by decide, by decide⟩

theorem witness_IterationPublishesItsSamples :
    ∃ s : State, s.state = 0x6#4 ∧ s.pending = none ∧ s.response = none ∧ s.call = none ∧ s.cancel = false ∧
      s.rst = false ∧
      s.schedule = [ .sequencer, .answer (s.txnCount + 1) (.data [0#8, 1#8, 0#8, 0#8, 0xFF#8, 0xFF#8]), .sequencer,
                     .sequencer, .sequencer, .sequencer, .timerExpires, .sequencer ] ++ [] :=
  ⟨{ inState 0x6#4 with
      schedule := [ .sequencer, .answer 1 (.data [0#8, 1#8, 0#8, 0#8, 0xFF#8, 0xFF#8]), .sequencer, .sequencer,
                    .sequencer, .sequencer, .timerExpires, .sequencer ] }, rfl, rfl, rfl, rfl, rfl, rfl, rfl⟩

end Sys2Proof.Tests
end

section
/-! The binary64 primitives on finite words (00_scope.md R10): division and subtraction are one rounding of the exact
result, the order of the words is that of their values, and small integers convert exactly. -/

namespace Sys2Proof.Machine

/-! ### Finite words and their values -/

theorem f64IsFinite_iff {v : F64} : f64IsFinite v = true ↔ f64Magnitude v < f64InfMagnitude := decide_eq_true_iff

theorem f64IsNaN_of_finite {v : F64} (h : f64IsFinite v = true) : f64IsNaN v = false :=
  decide_eq_false (f64IsFinite_iff.mp h).not_gt

theorem f64IsInf_of_finite {v : F64} (h : f64IsFinite v = true) : f64IsInf v = false :=
  beq_eq_false_iff_ne.mpr (f64IsFinite_iff.mp h).ne

theorem f64Den_pos (v : F64) : 0 < f64Den v := by
  unfold f64Den
  split <;> positivity

/-- A word's value as its sign and the quotient of its numerator and denominator. -/
theorem f64Value_eq_num_div_den (v : F64) :
    f64Value v = (if f64Sign v then -1 else 1) * ((f64Num v : ℚ) / f64Den v) := by
  unfold f64Value f64SignedNum
  split <;> push_cast <;> ring

theorem f64Value_of_isZero {v : F64} (h : f64IsZero v = true) : f64Value v = 0 := by
  have hm : f64Magnitude v = 0 := beq_iff_eq.mp h
  rw [f64Value_eq, hm, magUnits_zero, Nat.cast_zero, mul_zero, zero_div]

/-! ### Division -/

/-- On finite operands and a divisor that is no zero, f64_div is one rounding of the exact quotient. -/
theorem f64Div_eq_roundRatio {a b : F64} (ha : f64IsFinite a = true) (hb : f64IsFinite b = true)
    (hz : f64IsZero b = false) :
    f64Div a b = roundRatio (f64Sign a ^^ f64Sign b) (f64Num a * f64Den b) (f64Den a * f64Num b) := by
  simp [f64Div, f64IsNaN_of_finite, f64IsInf_of_finite, ha, hb, hz]

/-- The quotient of two values, as the sign and the ratio that f64_div rounds. -/
theorem f64Value_div (a b : F64) :
    f64Value a / f64Value b = (if f64Sign a ^^ f64Sign b then -1 else 1) *
      (((f64Num a * f64Den b : ℕ) : ℚ) / (f64Den a * f64Num b : ℕ)) := by
  rw [f64Value_eq_num_div_den, f64Value_eq_num_div_den, mul_div_mul_comm, div_div_div_eq]
  push_cast
  congr 1
  cases f64Sign a <;> cases f64Sign b <;> norm_num

theorem f64Div_nearest {a b : F64} (ha : f64IsFinite a = true) (hb : f64IsFinite b = true) (h0 : f64Value b ≠ 0)
    (hf : f64IsFinite (f64Div a b) = true) : IsNearestEven (f64Div a b) (f64Value a / f64Value b) := by
  have hz : f64IsZero b = false := Bool.eq_false_iff.mpr (h0 ∘ f64Value_of_isZero)
  have hn : 0 < f64Num b := Nat.pos_of_ne_zero fun h => h0 (by simp [f64Value_eq_num_div_den, h])
  rw [f64Div_eq_roundRatio ha hb hz] at hf ⊢
  rw [f64Value_div]
  exact (roundRatio_nearest _ _ (Nat.mul_pos (f64Den_pos a) hn) hf).2

/-! ### Subtraction -/

/-- On finite operands f64_sub is one rounding of the exact difference; only the sign of an exact zero is its own case. -/
theorem f64Sub_eq_roundRatio {a b : F64} (ha : f64IsFinite a = true) (hb : f64IsFinite b = true) :
    ∃ neg, f64Sub a b = roundRatio neg (f64ExactDiff a b).natAbs (f64Den a * f64Den b) ∧
      (f64ExactDiff a b ≠ 0 → neg = decide (f64ExactDiff a b < 0)) := by
  simp only [f64Sub, f64IsNaN_of_finite, f64IsInf_of_finite, ha, hb, Bool.or_self, Bool.false_eq_true, if_false]
  split
  case isTrue h => exact ⟨_, by rw [h]; rfl, fun hne => absurd h hne⟩
  case isFalse => exact ⟨_, rfl, fun _ => rfl⟩

/-- The difference of two values over the common denominator. -/
theorem f64Value_sub (a b : F64) :
    f64Value a - f64Value b = (f64ExactDiff a b : ℚ) / (f64Den a * f64Den b : ℕ) := by
  have hda : (f64Den a : ℚ) ≠ 0 := by exact_mod_cast (f64Den_pos a).ne'
  have hdb : (f64Den b : ℚ) ≠ 0 := by exact_mod_cast (f64Den_pos b).ne'
  rw [f64Value, f64Value, div_sub_div _ _ hda hdb, f64ExactDiff]
  push_cast
  ring

/-- An integer is its absolute value under its sign; for 0 any sign will do. -/
theorem sign_mul_natAbs {d : Int} {neg : Bool} (h : d ≠ 0 → neg = decide (d < 0)) :
    (if neg then -1 else 1 : ℚ) * d.natAbs = d := by
  obtain rfl | hd := eq_or_ne d 0
  · simp
  · rw [h hd, Nat.cast_natAbs, Int.cast_abs]
    rcases lt_or_gt_of_ne hd with hlt | hgt
    · rw [abs_of_neg (by exact_mod_cast hlt)]; simp [hlt]
    · rw [abs_of_pos (by exact_mod_cast hgt)]; simp [hgt.not_gt]

theorem f64Sub_nearest {a b : F64} (ha : f64IsFinite a = true) (hb : f64IsFinite b = true)
    (hf : f64IsFinite (f64Sub a b) = true) : IsNearestEven (f64Sub a b) (f64Value a - f64Value b) := by
  obtain ⟨neg, heq, hneg⟩ := f64Sub_eq_roundRatio ha hb
  rw [heq] at hf ⊢
  rw [f64Value_sub, ← sign_mul_natAbs hneg, mul_div_assoc]
  exact (roundRatio_nearest _ _ (Nat.mul_pos (f64Den_pos a) (f64Den_pos b)) hf).2

/-! ### Order -/

/-- The units of 2^-1074 in a finite word's value, with its sign. -/
def f64Units (v : F64) : Int :=
  if f64Sign v then -(magUnits (f64Magnitude v) : Int) else (magUnits (f64Magnitude v) : Int)

theorem f64Value_eq_units (v : F64) : f64Value v = (f64Units v : ℚ) / unitsPerOne := by
  rw [f64Value_eq, f64Units]
  split <;> push_cast <;> ring

theorem f64Value_lt_iff_units (a b : F64) : f64Value a < f64Value b ↔ f64Units a < f64Units b := by
  have hU : (0 : ℚ) < unitsPerOne := by exact_mod_cast unitsPerOne_pos
  rw [f64Value_eq_units, f64Value_eq_units, div_lt_div_iff_of_pos_right hU, Int.cast_lt]

theorem magUnits_strictMonoOn : StrictMonoOn magUnits (Set.Iio f64InfMagnitude) :=
  fun _ _ _ hn h => magUnits_lt h hn

/-- Finite words order as their values do: within one sign the units grow with the magnitude, and 0 has no units. -/
theorem f64Order_lt_iff_units {a b : F64} (ha : f64IsFinite a = true) (hb : f64IsFinite b = true) :
    f64Order a < f64Order b ↔ f64Units a < f64Units b := by
  rw [f64IsFinite_iff] at ha hb
  have hab := magUnits_strictMonoOn.lt_iff_lt ha hb
  have hba := magUnits_strictMonoOn.lt_iff_lt hb ha
  have h0 : (0 : Nat) ∈ Set.Iio f64InfMagnitude := (Nat.zero_le _).trans_lt ha
  have ha0 := magUnits_strictMonoOn.lt_iff_lt h0 ha
  have hb0 := magUnits_strictMonoOn.lt_iff_lt h0 hb
  rw [magUnits_zero] at ha0 hb0
  unfold f64Order f64Units
  split <;> split <;> omega

theorem f64Lt_iff {a b : F64} (ha : f64IsFinite a = true) (hb : f64IsFinite b = true) :
    f64Lt a b = true ↔ f64Value a < f64Value b := by
  rw [f64Value_lt_iff_units, ← f64Order_lt_iff_units ha hb]
  simp [f64Lt, f64IsNaN_of_finite, ha, hb]

/-! ### Integers -/

theorem roundDiv_one (n : Nat) : roundDiv n 1 = n := by simp [roundDiv, Nat.mod_one]

/-- The exponent of a natural number is that of its leading bit. -/
theorem roundExp_one {n : Nat} (hn : n ≠ 0) : roundExp n 1 = Nat.log2 n := by
  have hlog : Nat.log2 1 = 0 := by decide
  have hle : scaleDen 1 (Nat.log2 n) ≤ scaleNum n (Nat.log2 n) := by
    simpa [scaleDen, scaleNum] using Nat.log2_self_le hn
  have he : ratioExp n 1 = Nat.log2 n := by simp [ratioExp, hlog, hle]
  rw [roundExp, he]
  omega

/-- Below 2^53 the significand of a natural number holds all its bits, so nothing is rounded off. -/
theorem nearestMagnitude_one {n : Nat} (hn : n ≠ 0) (hlt : n < 2 ^ 53) :
    nearestMagnitude n 1 < f64InfMagnitude ∧ magUnits (nearestMagnitude n 1) = n * unitsPerOne := by
  obtain ⟨d, hd⟩ : ∃ d, Nat.log2 n + d = 52 :=
    ⟨52 - Nat.log2 n, by have := (Nat.log2_lt hn).mpr hlt; omega⟩
  have hnum : scaleNum n (Nat.log2 n - 52) = n * 2 ^ d := by
    unfold scaleNum
    split
    · obtain rfl : d = 0 := by omega
      simp
    · congr 2; omega
  have hden : scaleDen 1 (Nat.log2 n - 52) = 1 := by
    unfold scaleDen
    split
    · have : ((Nat.log2 n : Int) - 52).toNat = 0 := by omega
      simp [this]
    · rfl
  have hlow : 4503599627370496 ≤ n * 2 ^ d :=
    calc 4503599627370496 = 2 ^ Nat.log2 n * 2 ^ d := by rw [← pow_add, hd]; norm_num
      _ ≤ n * 2 ^ d := Nat.mul_le_mul_right _ (Nat.log2_self_le hn)
  have hup : n * 2 ^ d ≤ 9007199254740992 :=
    calc n * 2 ^ d ≤ 2 ^ (Nat.log2 n + 1) * 2 ^ d := Nat.mul_le_mul_right _ Nat.lt_log2_self.le
      _ = 9007199254740992 := by rw [← pow_add, show Nat.log2 n + 1 + d = 53 by omega]; norm_num
  have hfin : (Nat.log2 n + 1022) * 4503599627370496 + n * 2 ^ d < f64InfMagnitude := by
    unfold f64InfMagnitude; omega
  have hmag : nearestMagnitude n 1 = (Nat.log2 n + 1022) * 4503599627370496 + n * 2 ^ d := by
    simp only [nearestMagnitude, roundExp_one hn, hnum, hden, roundDiv_one]
    exact min_eq_left hfin.le
  rw [hmag]
  refine ⟨hfin, ?_⟩
  rw [magUnits_mk hup (.inr hlow) hfin, mul_assoc, unitsPerOne_eq (by omega)]

/-- The word with a sign and a finite magnitude is finite and is worth that magnitude's units. -/
theorem f64OfMagnitude_finite (neg : Bool) {m : Nat} (h : m < f64InfMagnitude) :
    f64IsFinite (f64OfMagnitude neg m) = true ∧
    f64Value (f64OfMagnitude neg m) = (if neg then -1 else 1) * ((magUnits m : ℚ) / unitsPerOne) := by
  have hlt : m < 9223372036854775808 := h.trans (by norm_num [f64InfMagnitude])
  rw [f64IsFinite_iff, f64Value_eq, f64Sign_ofMagnitude neg hlt, f64Magnitude_ofMagnitude neg hlt, mul_div_assoc]
  exact ⟨h, rfl⟩

/-- A natural number below 2^53 is rounded to itself. -/
theorem roundRatio_one (neg : Bool) {n : Nat} (hlt : n < 2 ^ 53) :
    f64IsFinite (roundRatio neg n 1) = true ∧ f64Value (roundRatio neg n 1) = (if neg then -1 else 1) * (n : ℚ) := by
  have hU : (unitsPerOne : ℚ) ≠ 0 := by exact_mod_cast unitsPerOne_pos.ne'
  unfold roundRatio
  split
  case isTrue h =>
    have := f64OfMagnitude_finite neg (m := 0) (by norm_num [f64InfMagnitude])
    rw [magUnits_zero, Nat.cast_zero, zero_div] at this
    rwa [h, Nat.cast_zero]
  case isFalse h =>
    obtain ⟨hfin, hunits⟩ := nearestMagnitude_one h hlt
    obtain ⟨hf, hv⟩ := f64OfMagnitude_finite neg hfin
    refine ⟨hf, ?_⟩
    rw [hv, hunits, Nat.cast_mul, mul_div_cancel_right₀ _ hU]

theorem f64OfInt_exact {n : Int} (h : n.natAbs < 2 ^ 53) :
    f64IsFinite (f64OfInt n) = true ∧ f64Value (f64OfInt n) = n := by
  obtain ⟨hf, hv⟩ := roundRatio_one (decide (n < 0)) h
  exact ⟨hf, hv.trans (sign_mul_natAbs fun _ => rfl)⟩

/-- Settles O27: each primitive is one rounding of the exact result, and words order as their units do. -/
theorem binary64PrimitivesRound : Obligations.Binary64PrimitivesRound :=
  ⟨fun _ _ ha hb => ⟨f64Div_nearest ha hb, f64Sub_nearest ha hb, f64Lt_iff ha hb⟩, fun _ => f64OfInt_exact⟩

end Sys2Proof.Machine
end

section
/-! The scope statements: the configuration check and the fetch (00_scope.md R7, R11, R12, 10_state.md R20). -/

namespace Sys2Proof

/-- The check answers the configuration that holds the six numbers it was given, and no other (00_scope.md R7). -/
theorem RawConfig.check_eq_ok_iff (r : RawConfig) (c : Config) :
    r.check = .ok c ↔
      c.deviceAddr.toNat = r.deviceAddr ∧ c.devidReg.toNat = r.devidReg ∧ c.powerCtlReg.toNat = r.powerCtlReg ∧
      c.dataStartReg.val = r.dataStartReg ∧ c.expectedDevid.toNat = r.expectedDevid ∧
      c.pollInterval = r.pollInterval := by
  constructor
  · intro h
    unfold RawConfig.check at h
    split_ifs at h with hdev hid hpwr hexp hdata
    cases h
    simp only [BitVec.toNat_ofNat, and_true, true_and]
    omega
  · obtain ⟨dev, id, pwr, ⟨data, hdata⟩, exp, poll⟩ := c
    obtain ⟨rdev, rid, rpwr, rdata, rexp, rpoll⟩ := r
    rintro ⟨rfl, rfl, rfl, rfl, rfl, rfl⟩
    have hdev := dev.isLt
    have hid := id.isLt
    have hpwr := pwr.isLt
    have hexp := exp.isLt
    simp [RawConfig.check, hdata, Nat.not_le.mpr hdev, Nat.not_le.mpr hid, Nat.not_le.mpr hpwr, Nat.not_le.mpr hexp]

/-- DATA_START_REG is below 251, so as a byte it keeps its value. -/
@[simp] theorem Config.dataStart_toNat (c : Config) : c.dataStart.toNat = c.dataStartReg.val := by
  have := c.dataStartReg.isLt
  simp only [Config.dataStart, BitVec.toNat_ofNat]
  omega

/-- Settles O5: the configuration the check answers holds the six numbers, and such a configuration exists exactly when
they fit. -/
theorem configurationCheck : Obligations.ConfigurationCheck := by
  intro r
  simp only [RawConfig.check_eq_ok_iff, Config.dataStart_toNat]
  refine ⟨⟨?_, ?_⟩, fun c h => h⟩
  · rintro ⟨c, hdev, hid, hpwr, hdata, hexp, -⟩
    rw [← hdev, ← hid, ← hpwr, ← hdata, ← hexp]
    exact ⟨c.deviceAddr.isLt, c.devidReg.isLt, c.powerCtlReg.isLt, Nat.le_of_lt_succ c.dataStartReg.isLt,
      c.expectedDevid.isLt⟩
  · rintro ⟨hdev, hid, hpwr, hdata, hexp⟩
    exact ⟨⟨.ofNatLT _ hdev, .ofNatLT _ hid, .ofNatLT _ hpwr, ⟨_, Nat.lt_succ_of_le hdata⟩, .ofNatLT _ hexp,
      r.pollInterval⟩, by simp⟩

end Sys2Proof

namespace Sys2Proof.Machine

/-- A step whose turn is the sequencer's runs the operation it fetches, that turn taken off the schedule (00_scope.md R12,
log 6). -/
theorem step_of_sequencer_turn {s : State} {later : List Turn} (hr : s.rst = false)
    (hs : (s.schedule = [] ∧ later = []) ∨ s.schedule = .sequencer :: later) :
    step s = runSequencer { s with schedule := later } := by
  obtain ⟨hs, rfl⟩ | hs := hs
  · have hself : { s with schedule := [] } = s := by rw [← hs]
    rw [hself]
    simp [step, hr, hs]
  · simp [step, hr, hs]

/-- A request word in the call port that decodes is run (10_state.md R20, log 14). -/
theorem runSequencer_of_request {s : State} {w : RequestWord} {i : Instr} (hc : s.call = some (.request w))
    (hd : decodeRequest w = .ok i) : runSequencer s = exec i s := by
  simp [runSequencer, fetch, hc, hd]

/-- Settles O6: the turn is taken off, and then the object under the fetch is the STATE code or the word of the call. -/
theorem stepRunsDecodedInstruction : Obligations.StepRunsDecodedInstruction := by
  intro s later c i hr hs hc hd _
  rw [step_of_sequencer_turn hr hs]
  obtain ⟨hcall, rfl⟩ | ⟨w, hcall, rfl⟩ := hc
  · obtain rfl : decodeStateCode s.state = i := Except.ok.inj hd
    exact runSequencer_of_noCall hcall
  · exact runSequencer_of_request hcall hd

end Sys2Proof.Machine
end

section
/-! What one step does to each part of the state, for the statements of 10_state.md: one lemma for the turns of the other agents,
one for the calls of the accessor, and one for each kind of `Effect`. -/

namespace Sys2Proof.Machine

/-! ### The turns of the other agents and the reset -/

/-- The other agents write the inputs and the timer, and nothing else (00_scope.md R12, 10_state.md R36). -/
theorem takeTurn_frame (turn : Turn) (s : State) :
    takeTurn turn s =
      { s with
        rst := (takeTurn turn s).rst
        cancel := (takeTurn turn s).cancel
        response := (takeTurn turn s).response
        timer := (takeTurn turn s).timer } := by
  obtain h | ⟨-, h⟩ | ⟨_, -, h⟩ | ⟨_, _, -, -, h⟩ | ⟨-, h⟩ := takeTurn_cases turn s <;> rw [h]

@[simp] theorem takeTurn_cfg (turn : Turn) (s : State) : (takeTurn turn s).cfg = s.cfg := by rw [takeTurn_frame]
@[simp] theorem takeTurn_state (turn : Turn) (s : State) : (takeTurn turn s).state = s.state := by rw [takeTurn_frame]
@[simp] theorem takeTurn_devState (turn : Turn) (s : State) : (takeTurn turn s).devState = s.devState := by
  rw [takeTurn_frame]
@[simp] theorem takeTurn_err (turn : Turn) (s : State) : (takeTurn turn s).err = s.err := by rw [takeTurn_frame]
@[simp] theorem takeTurn_events (turn : Turn) (s : State) : (takeTurn turn s).events = s.events := by rw [takeTurn_frame]

/-- A requested reset is the step (60_exceptions.md R227). -/
theorem step_of_rst {s : State} (h : s.rst = true) : step s = .next (takeReset s) := by
  simp [step, h]

/-! ### The sequencer's step -/

/-- Everything a step of the sequencer can do: the effect of a legal state, IllegalState in a reserved one, or a call of the
accessor, which leaves the registers it does not name (log 14). -/
theorem runSequencer_next {s t : State} (h : runSequencer s = .next t) :
    Effect s t ∨ (¬ LegalCode s.state ∧ t = raiseFatal .illegalState s) ∨
    (t = { s with
        call := t.call, ret := t.ret, pending := t.pending, response := t.response, events := t.events
        err := t.err, state := t.state, faultRec := t.faultRec, txnCount := t.txnCount } ∧
      ∃ es, t.events = s.events ++ es) := by
  cases hc : s.call with
  | some c => exact .inr (.inr (runSequencer_of_call hc h))
  | none =>
    rw [runSequencer_of_noCall hc] at h
    by_cases hl : LegalCode s.state
    · exact .inl (exec_effect hl h)
    · rw [exec_reserved hl] at h
      cases h
      exact .inr (.inl ⟨hl, rfl⟩)

/-- With an empty call port and a legal STATE, a step is a reset, another agent's turn, or an effect of that state. -/
theorem step_effect {s t : State} (hc : s.call = none) (hl : LegalCode s.state) (h : step s = .next t) :
    (s.rst = true ∧ t = takeReset s) ∨
    (∃ turn later, t = takeTurn turn { s with schedule := later }) ∨
    (∃ later, Effect { s with schedule := later } t) := by
  obtain hr | ⟨_, turn, later, _, _, ht⟩ | ⟨_, later, _, hrun⟩ := step_next h
  · exact .inl hr
  · exact .inr (.inl ⟨turn, later, ht⟩)
  · rw [runSequencer_of_noCall (s := { s with schedule := later }) hc] at hrun
    exact .inr (.inr ⟨later, exec_effect hl hrun⟩)

/-- With an empty call port there is a next state (logs 3, 4, 5, 20). -/
theorem step_next_of_noCall {s : State} (hc : s.call = none) : ∃ t, step s = .next t := by
  by_cases hr : s.rst = true
  · exact ⟨_, step_of_rst hr⟩
  have hf : s.rst = false := by simpa using hr
  have run : ∀ later, ∃ t, runSequencer { s with schedule := later } = .next t := fun later => by
    rw [runSequencer_of_noCall (s := { s with schedule := later }) hc]
    exact exec_stateCode_next _ _
  cases hs : s.schedule with
  | nil => rw [step_of_sequencer_turn hf (.inl ⟨hs, rfl⟩)]; exact run []
  | cons turn later =>
    cases turn with
    | sequencer => rw [step_of_sequencer_turn hf (.inr hs)]; exact run later
    | raiseRst => exact ⟨_, by simp only [step, hf, hs]; rfl⟩
    | setCancel level => exact ⟨_, by simp only [step, hf, hs]; rfl⟩
    | answer n a => exact ⟨_, by simp only [step, hf, hs]; rfl⟩
    | timerExpires => exact ⟨_, by simp only [step, hf, hs]; rfl⟩

/-! ### What the effects write -/

theorem Effect.cfg_eq {s t : State} (h : Effect s t) : t.cfg = s.cfg := by
  cases h <;> rfl

theorem Effect.events_extended {s t : State} (h : Effect s t) : s.events <+: t.events := by
  cases h <;> simp

/-- Only the answer step of S_PWR_VERIFY writes DEV_STATE (41_handshake.md R125). -/
theorem Effect.devState_cases {s t : State} (h : Effect s t) :
    t.devState = s.devState ∨
    (t.devState = true ∧ s.state = stPwrVerify ∧ ∃ w b, s.pending = some w ∧ s.response = some (.data [b])) := by
  cases h with
  | pwrVerify w b hp hr hs => exact .inr ⟨rfl, hs, w, b, hp, hr⟩
  | _ => exact .inl rfl

/-- ERR is written by the fatal-error sequence only, and not from S_TERMINATED (60_exceptions.md R224). -/
theorem Effect.err_cases {s t : State} (h : Effect s t) :
    t.err = s.err ∨
    (s.state ≠ stTerminated ∧ t.state = stTerminated ∧ t.pending = none ∧ t.events = s.events ++ [.diag t.err]) := by
  cases h with
  | badAnswer e w hp hr hs he =>
    refine .inr ⟨?_, rfl, rfl, rfl⟩
    obtain hs | hs | hs | hs | hs := hs <;> rw [hs] <;> decide
  | idMismatch hp hs hid => exact .inr ⟨by rw [hs]; decide, rfl, rfl, rfl⟩
  | _ => exact .inl rfl

/-- STATE moves along the transitions of 10_state.md R21. -/
theorem Effect.state_cases {s t : State} (h : Effect s t) :
    t.state = s.state ∨ (s.state, t.state) ∈ legalTransitions := by
  cases h with
  | noStep | issue | issueWrite => exact .inl rfl
  | badAnswer _ _ _ _ hs =>
    obtain hs | hs | hs | hs | hs := hs <;> exact .inr (by simp only [hs, raiseFatal_state]; decide)
  | idMismatch _ hs => exact .inr (by simp only [hs, raiseFatal_state]; decide)
  | idMatch _ hs | pwrSet _ hs | stop _ hs | decode _ _ hs | map _ _ _ _ hs | publish _ _ _ _ hs | wait _ hs
  | idRead _ _ _ _ hs | pwrRead _ _ _ _ hs | pwrWrite _ _ _ hs | pwrVerify _ _ _ _ hs | pollRead _ _ _ _ _ hs =>
    exact .inr (by simp only [hs, gotoState_state]; decide)

/-! ### The requests among the events -/

theorem txnWords_append (es fs : List Event) : txnWords (es ++ fs) = txnWords es ++ txnWords fs := by
  induction es with
  | nil => rfl
  | cons e es ih => cases e <;> simp [txnWords, ih]

/-- A publish makes no request (44_poll_loop.md R192). -/
theorem txnWords_publishEvents (m : Axes (BitVec 32)) (o c : Axes F64) : txnWords (publishEvents m o c) = [] := rfl

/-- An effect makes no request, or it is the issue step of its state's own (20_memory.md R55, 30_encoding.md R82). -/
theorem Effect.request_cases {s t : State} (h : Effect s t) :
    txnWords t.events = txnWords s.events ∨
    ∃ w, requestOf s = some w ∧ s.pending = none ∧ t.pending = some w ∧ t.events = s.events ++ [.txn w] := by
  cases h with
  | issue w hp hw => exact .inr ⟨w, hw, hp, rfl, rfl⟩
  | issueWrite w hp hw => exact .inr ⟨w, hw, hp, rfl, rfl⟩
  | _ => exact .inl (by simp [txnWords_append, txnWords_publishEvents, txnWords])

end Sys2Proof.Machine
end

section
/-! The record of the reads of unmarked registers (10_state.md R34, log 3). -/

namespace Sys2Proof.Machine

/-- A read state adds nothing to the record when its answer step adds nothing. -/
theorem runRead_unmarkedReads {reg count : Byte} {onBytes : List Byte → State → State} {s : State}
    (hok : ∀ bs u, (onBytes bs u).unmarkedReads = u.unmarkedReads) :
    (runRead reg count onBytes s).unmarkedReads = s.unmarkedReads := by
  obtain ⟨_, h⟩ | ⟨_, _, h⟩ | ⟨_, _, _, _, _, h⟩ | ⟨_, bs, _, _, _, h⟩ := runRead_cases reg count onBytes s
  · simp [h]
  · rw [h]
  · simp [h]
  · simp [h, hok]

theorem runCall_unmarkedReads {w : RequestWord} {reply : Option Answer → Reply} {s t : State}
    (h : runCall w reply s = .next t) : t.unmarkedReads = s.unmarkedReads := by
  obtain ⟨_, rfl⟩ | ⟨_, ⟨_, rfl⟩ | ⟨e, _, rfl⟩ | ⟨bs, _, rfl⟩⟩ := runCall_next h <;> simp

theorem execAccRead_unmarkedReads {dev : DevAddr} {reg count : Byte} {s t : State}
    (h : execAccRead dev reg count s = .next t) : t.unmarkedReads = s.unmarkedReads := by
  unfold execAccRead at h
  split at h
  · cases h; simp
  · split at h
    · exact runCall_unmarkedReads h
    · cases h

theorem execAccWrite_unmarkedReads {dev : DevAddr} {reg v : Byte} {s t : State}
    (h : execAccWrite dev reg v s = .next t) : t.unmarkedReads = s.unmarkedReads := by
  unfold execAccWrite at h
  split at h
  · exact runCall_unmarkedReads h
  · cases h

/-- A state without a transaction adds to the record what its act adds, and only when it acts. -/
theorem whenIdle_unmarkedReads {s act : State} {names : List RegName}
    (h : act.unmarkedReads = s.unmarkedReads ++ names) :
    (whenIdle s act).unmarkedReads = s.unmarkedReads ++ if s.pending = none then names else [] := by
  obtain ⟨hp, hw⟩ | ⟨⟨w, hp⟩, hw⟩ := whenIdle_cases s act
  · simp [hp, h]
  · simp [hp]

/-- S_PWR_WRITE reads PWR_NEW in its issue step only (41_handshake.md R124). -/
theorem execSPwrWrite_unmarkedReads {s t : State} (h : execSPwrWrite s = .next t) :
    t.unmarkedReads = s.unmarkedReads ++ if s.pending = none then s.pwrNew.unmarkedName .pwrNew else [] := by
  simp only [execSPwrWrite, Host.Outcome.next.injEq] at h
  subst h
  cases hp : s.pending with
  | none => simp
  | some w =>
    obtain ⟨_, h⟩ | ⟨_, _, _, h⟩ | ⟨_, h⟩ := finishWrite_cases w (gotoState stPwrVerify) s <;> simp [h]

/-- The record grows by the registers of the operation whose mark is clear, when it reads them at all (10_state.md R34). -/
theorem exec_unmarkedReads {i : Instr} {s t : State} (h : exec i s = .next t) :
    t.unmarkedReads = s.unmarkedReads ++ if s.pending = none then unmarkedReadsOf i s else [] := by
  have readsNone (hi : readsOf i = []) (ht : t.unmarkedReads = s.unmarkedReads) :
      t.unmarkedReads = s.unmarkedReads ++ if s.pending = none then unmarkedReadsOf i s else [] := by
    rw [unmarkedReadsOf_nil hi, ite_self, List.append_nil, ht]
  cases i with
  | accRead dev reg count => exact readsNone rfl (execAccRead_unmarkedReads h)
  | accWrite dev reg v => exact readsNone rfl (execAccWrite_unmarkedReads h)
  | sIdRead | sPwrRead | sPwrVerify =>
    cases h
    exact readsNone rfl (runRead_unmarkedReads fun _ _ => rfl)
  | sPollRead =>
    cases h
    refine readsNone rfl ?_
    split
    · rfl
    · exact runRead_unmarkedReads fun _ _ => rfl
  | sIdCheck =>
    cases h
    rw [unmarkedReadsOf_sIdCheck]
    exact whenIdle_unmarkedReads (by split <;> rfl)
  | sPwrSet =>
    cases h
    rw [unmarkedReadsOf_sPwrSet]
    exact whenIdle_unmarkedReads rfl
  | sPwrWrite =>
    rw [unmarkedReadsOf_sPwrWrite]
    exact execSPwrWrite_unmarkedReads h
  | sDecode =>
    cases h
    rw [unmarkedReadsOf_sDecode]
    exact whenIdle_unmarkedReads rfl
  | sMap =>
    cases h
    rw [unmarkedReadsOf_sMap]
    exact whenIdle_unmarkedReads rfl
  | sPublish =>
    cases h
    rw [unmarkedReadsOf_sPublish]
    exact whenIdle_unmarkedReads rfl
  | sWait =>
    cases h
    refine readsNone rfl ?_
    rw [whenIdle_unmarkedReads (names := []) (by split <;> simp)]
    simp
  | sStopped | sTerminated | reservedStateD | reservedStateE | reservedStateF =>
    cases h
    exact readsNone rfl rfl

/-- Settles O37: the record of `exec_unmarkedReads`; and the six readers are operations that STATE selects. -/
theorem unmarkedReadsAreRecorded : Obligations.UnmarkedReadsAreRecorded := by
  refine ⟨fun i s t => exec_unmarkedReads, fun i hi s => ?_⟩
  simp only [List.mem_cons, List.not_mem_nil, or_false] at hi
  obtain rfl | rfl | rfl | rfl | rfl | rfl := hi
  · exact exec_stateCode_next stIdCheck s
  · exact exec_stateCode_next stPwrSet s
  · exact exec_stateCode_next stPwrWrite s
  · exact exec_stateCode_next stDecode s
  · exact exec_stateCode_next stMap s
  · exact exec_stateCode_next stPublish s

end Sys2Proof.Machine
end

section
/-! The invariant: it holds at every reset, and every step keeps it (70_reset_and_hazards.md R255). -/

namespace Sys2Proof.Machine

/-! ### What the invariant gives -/

/-- Outside S_TERMINATED no error is recorded. -/
theorem Inv.faultRec_none {s : State} (h : Inv s) (hs : s.state ≠ stTerminated) : s.faultRec = none := by
  rw [← Option.not_isSome_iff_eq_none, ← h.recorded]
  exact hs

theorem Inv.err_zero {s : State} (h : Inv s) (hs : s.state ≠ stTerminated) : s.err = 0#3 := by
  rw [h.errCode, h.faultRec_none hs]
  rfl

/-- Outside S_TERMINATED, DEV_STATE is 1 exactly from S_POLL_READ on (70_reset_and_hazards.md R255). -/
theorem Inv.devState_eq {s : State} (h : Inv s) (hs : s.state ≠ stTerminated) :
    s.devState = decide (6 ≤ s.state.toNat) := by
  have hl : s.state.toNat ≤ 12 := h.legal
  have hne : s.state.toNat ≠ 12 := fun e => hs (BitVec.eq_of_toNat_eq e)
  by_cases hpoll : 6 ≤ s.state.toNat
  · simpa [hpoll] using h.devInPolling hpoll (by omega)
  · simpa [hpoll] using h.devInHandshake (by omega)

/-- The request of S_POLL_READ is told from those of the handshake by its COUNT and OP (30_encoding.md R82). -/
theorem requestOf_isPollRead {s : State} {w : RequestWord} (h : requestOf s = some w) :
    (reqCount w = 6#8 ∧ reqIsWrite w = false) ↔ s.state = stPollRead := by
  unfold requestOf at h
  split_ifs at h with hid hpwr hwrite hpoll
  · cases h; simp [hid]
  · cases h; obtain hs | hs := hpwr <;> simp [hs]
  · cases h; simp [hwrite]
  · cases h; simp [hpoll]

/-! ### States between two transactions -/

/-- No call, no transaction, no error: how the block stands when an operation hands over to the next one. -/
structure Idle (s : State) : Prop where
  noCall : s.call = none
  noPending : s.pending = none
  noResponse : s.response = none
  noFault : s.faultRec = none
  noErr : s.err = 0#3
  noUnmarkedRead : s.unmarkedReads = []

theorem Inv.idle {s : State} (h : Inv s) (hs : s.state ≠ stTerminated) (hp : s.pending = none) : Idle s where
  noCall := h.noCall
  noPending := hp
  noResponse := by
    have hr := h.answerPaired
    rw [hp] at hr
    simpa using hr
  noFault := h.faultRec_none hs
  noErr := h.err_zero hs
  noUnmarkedRead := h.noUnmarkedRead

theorem Inv.idle_takeAnswer {s : State} (h : Inv s) (hs : s.state ≠ stTerminated) : Idle (takeAnswer s) where
  noCall := h.noCall
  noPending := rfl
  noResponse := rfl
  noFault := h.faultRec_none hs
  noErr := h.err_zero hs
  noUnmarkedRead := h.noUnmarkedRead

/-- Between two transactions the invariant asks for DEV_STATE as R255 says and for the marks of the registers that the
state's own operation reads. -/
theorem Idle.inv {s : State} (h : Idle s) (hc : s.state.toNat ≤ 11) (hdev : s.devState = decide (6 ≤ s.state.toNat))
    (hmarks : ∀ r ∈ readsOf (decodeStateCode s.state), markOf s r = true)
    (htimer : s.state = stWait → s.timer ≠ .idle) : Inv s where
  noCall := h.noCall
  legal := Nat.le_succ_of_le hc
  devInHandshake := fun hle => by rw [hdev]; exact decide_eq_false (by omega)
  devInPolling := fun hle _ => by rw [hdev]; exact decide_eq_true hle
  devInTerminated := fun e he => by simp [h.noFault] at he
  recorded := by
    have hne : s.state ≠ stTerminated := fun e => by simp [e] at hc
    simp [hne, h.noFault]
  errCode := by rw [h.noErr, h.noFault]; rfl
  pendingWord := fun w hw => by simp [h.noPending] at hw
  answerPaired := fun hr => by simp [h.noResponse] at hr
  noUnmarkedRead := h.noUnmarkedRead
  idByteValid := fun hs => by simpa [hs, readsOf, markOf] using hmarks
  pwrOldValid := fun hs => by simpa [hs, readsOf, markOf] using hmarks
  pwrNewValid := fun hs => by simpa [hs, readsOf, markOf] using hmarks
  rawValid := fun hs => by simpa [hs, readsOf, markOf, Raw.AllValid] using hmarks
  axValid := fun hs => by simpa [hs, readsOf, markOf, Axes.AllValid, Axes.get] using hmarks
  publishValid := fun hs => by simpa [hs, readsOf, markOf, Axes.AllValid, Axes.get, and_assoc] using hmarks
  timerStarted := htimer

/-- A transfer of control keeps the invariant when the state entered finds DEV_STATE and its registers as it needs them;
S_WAIT starts its timer itself (44_poll_loop.md R194). -/
theorem Idle.inv_gotoState {s : State} (h : Idle s) {c : StateCode} (hc : c.toNat ≤ 11)
    (hdev : s.devState = decide (6 ≤ c.toNat))
    (hmarks : ∀ r ∈ readsOf (decodeStateCode c), markOf (gotoState c s) r = true) : Inv (gotoState c s) :=
  Idle.inv ⟨h.noCall, h.noPending, h.noResponse, h.noFault, h.noErr, h.noUnmarkedRead⟩ hc hdev hmarks
    fun hs => by simp [timerOnEntry, show c = stWait from hs]

/-! ### The operations keep the invariant -/

theorem inv_takeReset (s : State) : Inv (takeReset s) :=
  Idle.inv ⟨rfl, rfl, rfl, rfl, rfl, rfl⟩ (Nat.zero_le _) rfl (fun _ hr => nomatch hr) (fun hs => nomatch hs)

/-- The schedule is outside the block. -/
theorem Inv.withSchedule {s : State} (h : Inv s) (later : List Turn) : Inv { s with schedule := later } :=
  { h with }

theorem Inv.inv_takeTurn {s : State} (h : Inv s) (turn : Turn) : Inv (takeTurn turn s) := by
  obtain e | ⟨-, e⟩ | ⟨_, -, e⟩ | ⟨n, a, -, hacc, e⟩ | ⟨-, e⟩ := takeTurn_cases turn s <;> rw [e]
  · exact h
  · exact { h with }
  · exact { h with }
  · exact { h with answerPaired := fun _ => ((answerAccepted_iff n s).mp hacc).1 }
  · refine { h with timerStarted := fun hs => ?_ }
    have := h.timerStarted hs
    cases ht : s.timer <;> simp_all [expireTimer]

theorem Inv.inv_issueRequest {s : State} (h : Inv s) {w : RequestWord} (hw : requestOf s = some w) :
    Inv (issueRequest w s) :=
  { h with
    pendingWord := fun _ e => by cases e; exact hw
    answerPaired := fun _ => rfl }

/-- The fatal-error sequence needs of the state before it only DEV_STATE and the record of reads. -/
theorem inv_raiseFatal {s : State} {e : Exc} (hreads : s.unmarkedReads = []) (hdev : s.devState = true ↔ e.InPollLoop) :
    Inv (raiseFatal e s) where
  noCall := rfl
  legal := Nat.le_refl 12
  devInHandshake := fun h => absurd (show 12 ≤ 5 from h) (by decide)
  devInPolling := fun _ h => absurd (show 12 ≤ 11 from h) (by decide)
  devInTerminated := fun _ he => by cases he; exact hdev
  recorded := ⟨fun _ => rfl, fun _ => rfl⟩
  errCode := rfl
  pendingWord := fun _ hw => nomatch hw
  answerPaired := fun hr => nomatch hr
  noUnmarkedRead := hreads
  idByteValid := fun hs => nomatch hs
  pwrOldValid := fun hs => nomatch hs
  pwrNewValid := fun hs => nomatch hs
  rawValid := fun hs => nomatch hs
  axValid := fun hs => nomatch hs
  publishValid := fun hs => nomatch hs
  timerStarted := fun hs => nomatch hs

/-- A failed or malformed answer came in the poll loop exactly when DEV_STATE is 1 (70_reset_and_hazards.md R255). -/
theorem Inv.devState_iff_inPollLoop {s : State} (h : Inv s) {w : RequestWord} {e : Exc} (hp : s.pending = some w)
    (hs : s.state = stIdRead ∨ s.state = stPwrRead ∨ s.state = stPwrWrite ∨ s.state = stPwrVerify ∨
      s.state = stPollRead)
    (he : e = .transportFailure w ∨ e = .malformedResponse w) : s.devState = true ↔ e.InPollLoop := by
  have hloop : e.InPollLoop ↔ s.state = stPollRead := by
    obtain rfl | rfl := he <;> exact requestOf_isPollRead (h.pendingWord w hp)
  rw [hloop, h.devState_eq (by obtain hs | hs | hs | hs | hs := hs <;> simp [hs])]
  obtain hs | hs | hs | hs | hs := hs <;> simp [hs]

/-- A transfer between two states on the same side of the handshake's end, DEV_STATE kept. -/
theorem Inv.inv_enter {s u : State} {c d : StateCode} (h : Inv s) (hs : s.state = d) (hu : Idle u)
    (hdev : u.devState = s.devState) (hcd : c.toNat ≤ 11 ∧ d ≠ stTerminated ∧ (6 ≤ d.toNat ↔ 6 ≤ c.toNat))
    (hmarks : ∀ r ∈ readsOf (decodeStateCode c), markOf (gotoState c u) r = true) : Inv (gotoState c u) := by
  obtain ⟨hc, hd, hside⟩ := hcd
  refine hu.inv_gotoState hc ?_ hmarks
  rw [hdev, h.devState_eq (hs ▸ hd), hs, decide_eq_decide]
  exact hside

/-- The marks that the invariant gives each reading state leave it no unmarked register to record. -/
theorem Effect.keeps_inv {s t : State} (h : Inv s) (he : Effect s t) : Inv t := by
  have idle {c : StateCode} (hp : s.pending = none) (hs : s.state = c) (hc : c ≠ stTerminated) : Idle s :=
    h.idle (hs ▸ hc) hp
  have answered {c : StateCode} (hs : s.state = c) (hc : c ≠ stTerminated) : Idle (takeAnswer s) :=
    h.idle_takeAnswer (hs ▸ hc)
  cases he with
  | noStep => exact h
  | issue w hp hw => exact h.inv_issueRequest hw
  | issueWrite w hp hw hs =>
    rw [Reg.unmarkedName_of_valid _ (h.pwrNewValid hs), noteReads_nil]
    exact h.inv_issueRequest hw
  | badAnswer e w hp hr hs he => exact inv_raiseFatal h.noUnmarkedRead (h.devState_iff_inPollLoop hp hs he)
  | idRead w b hp hr hs =>
    exact h.inv_enter hs { answered hs (by decide) with } rfl (by decide) (by simp [readsOf, markOf])
  | idMatch hp hs =>
    rw [Reg.unmarkedName_of_valid _ (h.idByteValid hs), noteReads_nil]
    exact h.inv_enter hs (idle hp hs (by decide)) rfl (by decide) (fun _ hr => nomatch hr)
  | idMismatch hp hs =>
    rw [Reg.unmarkedName_of_valid _ (h.idByteValid hs), noteReads_nil]
    exact inv_raiseFatal h.noUnmarkedRead (by simp [h.devInHandshake, hs, Exc.InPollLoop])
  | pwrRead w b hp hr hs =>
    exact h.inv_enter hs { answered hs (by decide) with } rfl (by decide) (by simp [readsOf, markOf])
  | pwrSet hp hs =>
    rw [Reg.unmarkedName_of_valid _ (h.pwrOldValid hs), noteReads_nil]
    exact h.inv_enter hs { idle hp hs (by decide) with } rfl (by decide) (by simp [readsOf, markOf])
  | pwrWrite w hp hr hs =>
    exact h.inv_enter hs (answered hs (by decide)) rfl (by decide) (fun _ hr => nomatch hr)
  | pwrVerify w b hp hr hs =>
    refine Idle.inv_gotoState ?_ (by decide) rfl (fun _ hr => nomatch hr)
    exact { answered hs (by decide) with }
  | stop hp hs =>
    exact h.inv_enter hs (idle hp hs (by decide)) rfl (by decide) (fun _ hr => nomatch hr)
  | pollRead w bs hp hr hb hs =>
    exact h.inv_enter hs { answered hs (by decide) with } rfl (by decide) (by simp [readsOf, markOf, rawOfAnswer])
  | decode a hp hs =>
    rw [Raw.unmarkedNames_of_valid (h.rawValid hs), noteReads_nil]
    exact h.inv_enter hs { idle hp hs (by decide) with } rfl (by decide) (by simp [readsOf, markOf, Axes.get])
  | map m o c hp hs =>
    rw [Axes.unmarkedNames_of_valid _ (h.axValid hs), noteReads_nil]
    exact h.inv_enter hs { idle hp hs (by decide) with } rfl (by decide) (by simp [readsOf, markOf, Axes.get])
  | publish m o c hp hs =>
    obtain ⟨hm, ho, hc⟩ := h.publishValid hs
    rw [Axes.unmarkedNames_of_valid _ hm, Axes.unmarkedNames_of_valid _ ho, Axes.unmarkedNames_of_valid _ hc,
      List.append_nil, List.append_nil, noteReads_nil]
    exact h.inv_enter hs { idle hp hs (by decide) with } rfl (by decide) (fun _ hr => nomatch hr)
  | wait hp hs =>
    exact h.inv_enter hs (idle hp hs (by decide)) rfl (by decide) (fun _ hr => nomatch hr)

/-- Settles O44: the reset, a turn of another agent and the effect of the state each keep the invariant. -/
theorem stepKeepsInvariant : Obligations.StepKeepsInvariant := by
  intro s t h hstep
  obtain ⟨_, rfl⟩ | ⟨turn, later, rfl⟩ | ⟨later, he⟩ := step_effect h.noCall h.legal hstep
  · exact inv_takeReset s
  · exact (h.withSchedule later).inv_takeTurn turn
  · exact he.keeps_inv (h.withSchedule later)

end Sys2Proof.Machine
end

section
/-! The statements of 10_state.md about reset, runs and the registers that a step writes. -/

namespace Sys2Proof.Machine

/-! ### Reset and runs -/

/-- Settles O38: each value is the one `State.reset` gives. -/
theorem resetValues : Obligations.ResetValues :=
  ⟨rfl, rfl, rfl, rfl, rfl, rfl, rfl, rfl, rfl, rfl, rfl, rfl, rfl, rfl, rfl,
    fun a => by cases a <;> exact ⟨rfl, rfl, rfl, rfl⟩, rfl, rfl⟩

/-- Settles O43: the reset state is what a reset step makes of it. -/
theorem resetHasInvariant : Obligations.ResetHasInvariant := inv_takeReset State.reset

/-- From a state with the invariant the next one has it too. -/
theorem Inv.exists_next {s : State} (h : Inv s) : ∃ t, step s = .next t ∧ Inv t := by
  obtain ⟨t, ht⟩ := step_next_of_noCall h.noCall
  exact ⟨t, ht, stepKeepsInvariant s t h ht⟩

/-- Settles O45: the empty record of unmarked reads is part of the invariant that the step keeps. -/
theorem invariantNeverStops : Obligations.InvariantNeverStops := by
  refine ⟨fun s => step_next_of_noCall, fun s h => ?_⟩
  obtain ⟨t, ht, hinv⟩ := h.exists_next
  exact ⟨t, ht, hinv.noUnmarkedRead⟩

/-- A run starts in the invariant: its start is a reset under its own configuration and schedule. -/
theorem inv_launch (cfg : Config) (turns : List Turn) : Inv (launch cfg turns) :=
  inv_takeReset { State.reset with cfg := cfg, schedule := turns }

/-- Settles O46, by induction on the length of the run. -/
theorem runsNeverStop : Obligations.RunsNeverStop := by
  intro cfg turns k
  obtain ⟨t, hrun, hinv⟩ := run_keeps Inv (fun _ h => h.exists_next) k (inv_launch cfg turns)
  exact ⟨t, hrun, hinv, hinv.noUnmarkedRead⟩

/-! ### What no step writes, and what it only adds to -/

/-- Settles O48: a reset keeps the configuration, and neither a turn nor an operation names it. -/
theorem configurationConstant : Obligations.ConfigurationConstant := by
  intro s t h
  obtain ⟨_, rfl⟩ | ⟨_, turn, later, _, _, rfl⟩ | ⟨_, later, _, hrun⟩ := step_next h
  · rfl
  · simp
  · obtain he | ⟨_, rfl⟩ | ⟨hframe, _⟩ := runSequencer_next hrun
    · exact he.cfg_eq
    · rfl
    · rw [hframe]

/-- Settles O49: a reset and a turn send nothing, and every operation appends. -/
theorem eventsOnlyAppended : Obligations.EventsOnlyAppended := by
  intro s t h
  obtain ⟨_, rfl⟩ | ⟨_, turn, later, _, _, rfl⟩ | ⟨_, later, _, hrun⟩ := step_next h
  · exact ⟨[], by simp⟩
  · exact ⟨[], by simp⟩
  · obtain he | ⟨_, rfl⟩ | ⟨_, hev⟩ := runSequencer_next hrun
    · obtain ⟨es, hes⟩ := he.events_extended
      exact ⟨es, hes.symm⟩
    · exact ⟨_, rfl⟩
    · exact hev

/-! ### The writers of DEV_STATE and ERR, and the requests -/

/-- Settles O53: only a reset and the `Effect` of S_PWR_VERIFY's answer write DEV_STATE. -/
theorem devStateWriters : Obligations.DevStateWriters := by
  intro s t h hne
  obtain ⟨hr, rfl⟩ | ⟨_, turn, later, _, _, rfl⟩ | ⟨hr, later, _, hrun⟩ := step_next h
  · exact .inl ⟨hr, rfl⟩
  · simp at hne
  · obtain he | ⟨_, rfl⟩ | ⟨hframe, _⟩ := runSequencer_next hrun
    · obtain heq | ⟨ht, hs, hans⟩ := he.devState_cases
      · exact absurd heq hne
      · exact .inr ⟨ht, hr, hs, hans⟩
    · exact absurd rfl hne
    · rw [hframe] at hne
      exact absurd rfl hne

/-- Settles O54: an error is raised outside S_TERMINATED only, where the invariant says that ERR is 0. -/
theorem errWriters : Obligations.ErrWriters := by
  intro s t hinv h hne
  obtain ⟨hr, rfl⟩ | ⟨turn, later, rfl⟩ | ⟨later, he⟩ := step_effect hinv.noCall hinv.legal h
  · exact .inl ⟨hr, rfl⟩
  · simp at hne
  · obtain heq | ⟨hs, hfatal⟩ := he.err_cases
    · exact absurd heq hne
    · exact .inr ⟨hinv.err_zero hs, hfatal⟩

/-- Settles O50: of a step's three kinds only the effect of a state makes a request, and it is the state's own. -/
theorem requestsAreTheStatesOwn : Obligations.RequestsAreTheStatesOwn := by
  intro s t hinv h
  obtain ⟨_, rfl⟩ | ⟨turn, later, rfl⟩ | ⟨later, he⟩ := step_effect hinv.noCall hinv.legal h
  · exact .inl rfl
  · exact .inl (by simp)
  · exact he.request_cases

/-! ### The transitions of STATE -/

/-- A configuration whose expected ID byte is 0. -/
def zeroCfg : Config :=
  { deviceAddr := 0#7, devidReg := 0#8, powerCtlReg := 0#8, dataStartReg := 0, expectedDevid := 0#8, pollInterval := 0 }

/-- A state of the sequence with every register written, the timer expired and no transaction pending. -/
def standingIn (c : StateCode) (idByte : Byte) (cancel : Bool) : State :=
  { State.reset with
    cfg := zeroCfg, state := c, devState := decide (6 ≤ c.toNat)
    idByte := Reg.written idByte, pwrOld := Reg.written 0#8, pwrNew := Reg.written 0#8, pwrVerify := Reg.written 0#8
    raw := rawOfAnswer [], ax := Axes.written ⟨0#16, 0#16, 0#16⟩, mapped := Axes.written ⟨0#32, 0#32, 0#32⟩
    out := Axes.written ⟨0#64, 0#64, 0#64⟩, comp := Axes.written ⟨0#64, 0#64, 0#64⟩
    timer := .expired, cancel := cancel }

theorem markOf_standingIn (c : StateCode) (idByte : Byte) (cancel : Bool) (r : RegName) :
    markOf (standingIn c idByte cancel) r = true := by
  cases r with
  | raw i => fin_cases i <;> rfl
  | ax a | mapped a | out a | comp a => cases a <;> rfl
  | idByte | pwrOld | pwrNew | pwrVerify => rfl

theorem inv_standingIn {c : StateCode} (hc : c.toNat ≤ 11) (idByte : Byte) (cancel : Bool) :
    Inv (standingIn c idByte cancel) :=
  Idle.inv ⟨rfl, rfl, rfl, rfl, rfl, rfl⟩ hc rfl (fun r _ => markOf_standingIn c idByte cancel r) (fun _ => nofun)

/-- The state with its own request pending and answered; a state that has no request stays as it is. -/
def withAnswer (a : Answer) (s : State) : State :=
  { s with pending := requestOf s, response := (requestOf s).map fun _ => a }

theorem Inv.inv_withAnswer {s : State} (h : Inv s) (a : Answer) : Inv (withAnswer a s) :=
  { h with
    pendingWord := fun _ hw => hw
    answerPaired := fun hr => by simpa [withAnswer] using hr }

/-- An answer that is legal for the request of a state (30_encoding.md R77). -/
def goodAnswer (c : StateCode) : Answer :=
  if c = stPwrWrite then .ack else if c = stPollRead then .data (List.replicate 6 0#8) else .data [0#8]

/-- A state from which the sequencer takes a transition: to S_STOPPED by CANCEL, to S_TERMINATED by FAIL or a wrong ID byte,
and to any other state by the legal answer or without one. -/
def startOf (p : StateCode × StateCode) : State :=
  if p.2 = stStopped then standingIn p.1 0#8 true
  else if p.2 = stTerminated then withAnswer .fail (standingIn p.1 1#8 false)
  else withAnswer (goodAnswer p.1) (standingIn p.1 0#8 false)

theorem inv_startOf {p : StateCode × StateCode} (hp : p.1.toNat ≤ 11) : Inv (startOf p) := by
  unfold startOf
  split
  · exact inv_standingIn hp _ _
  · split <;> exact (inv_standingIn hp _ _).inv_withAnswer _

/-- STATE after a step, when the step has a next state. -/
def stateAfter (s : State) : Option StateCode :=
  match step s with
  | .next t => some t.state
  | .fault _ => none
  | .refused _ => none

theorem exists_next_of_stateAfter {s : State} {c : StateCode} (h : stateAfter s = some c) :
    ∃ t, step s = .next t ∧ t.state = c := by
  unfold stateAfter at h
  split at h
  · exact ⟨_, ‹_›, Option.some.inj h⟩
  all_goals cases h

/-- Each transition of 10_state.md R21, run on the model. -/
theorem startOf_moves : ∀ p ∈ legalTransitions, p.1.toNat ≤ 11 ∧ (startOf p).state = p.1 ∧ (startOf p).rst = false ∧
    stateAfter (startOf p) = some p.2 := by
  simp only [legalTransitions, List.forall_mem_cons]
  refine ⟨?_, ?_, ?_, ?_, ?_, ?_, ?_, ?_, ?_, ?_, ?_, ?_, ?_, ?_, ?_, ?_, ?_, ?_, nofun⟩
  all_goals decide

/-- Settles O47: only an effect of the state or a reset moves STATE, and `startOf` takes each transition. -/
theorem legalTransitionsExactly : Obligations.LegalTransitionsExactly := by
  refine ⟨fun s t hc hl h => ?_, fun p hp => ?_, fun s hr => ⟨_, step_of_rst hr, rfl⟩⟩
  · obtain ⟨hr, rfl⟩ | ⟨turn, later, rfl⟩ | ⟨later, he⟩ := step_effect hc hl h
    · exact .inr (.inr ⟨hr, rfl⟩)
    · exact .inl (by simp)
    · obtain heq | hmem := he.state_cases
      · exact .inl heq
      · exact .inr (.inl hmem)
  · obtain ⟨hle, hstate, hrst, hafter⟩ := startOf_moves p hp
    obtain ⟨t, hstep, ht⟩ := exists_next_of_stateAfter hafter
    exact ⟨startOf p, t, inv_startOf hle, hstate, hrst, hstep, ht⟩

end Sys2Proof.Machine
end

section
/-! The two steps of a transaction (20_memory.md R53 to R55, 40_bus_accessor.md R100, R102): what an answer means, and the
equation of each case of a state's read and write and of a call of the accessor. -/

namespace Sys2Proof.Machine

/-! ### What an answer means -/

theorem readReply_of_length {count : Nat} {bs : List Byte} (w : RequestWord) (h : bs.length = count) :
    readReply count w (some (.data bs)) = .returned bs := by
  simp [readReply, h]

/-- Any answer to a read but FAIL and DATA of the right length is malformed (60_exceptions.md R223). -/
theorem readReply_malformed {count : Nat} {a : Answer} (w : RequestWord) (hfail : a ≠ .fail)
    (hlen : ∀ bs, a = .data bs → bs.length ≠ count) :
    readReply count w (some a) = .raised (.malformedResponse w) := by
  cases a with
  | data bs => simp [readReply, hlen bs rfl]
  | fail => exact absurd rfl hfail
  | ack | reserved _ => rfl

/-- Any answer to a write but FAIL and ACK is malformed (60_exceptions.md R223). -/
theorem writeReply_malformed {a : Answer} (w : RequestWord) (hfail : a ≠ .fail) (hack : a ≠ .ack) :
    writeReply w (some a) = .raised (.malformedResponse w) := by
  cases a with
  | fail => exact absurd rfl hfail
  | ack => exact absurd rfl hack
  | data _ | reserved _ => rfl

/-- Taking an answer that raises is the fatal-error sequence as the statements spell it (60_exceptions.md R224). -/
theorem raiseFatal_takeAnswer (e : Exc) (s : State) : raiseFatal e (takeAnswer s) = fatalEnd (excCode e) e s := rfl

/-! ### A call of the accessor by itself -/

theorem runCall_of_none {s : State} (w : RequestWord) (reply : Option Answer → Reply) (hp : s.pending = none) :
    runCall w reply s = .next (issueRequest w s) := by
  simp [runCall, hp]

theorem runCall_of_waiting {s : State} {w : RequestWord} {reply : Option Answer → Reply} (hp : s.pending = some w)
    (hr : reply s.response = .waiting) : runCall w reply s = .next s := by
  simp [runCall, hp, hr]

theorem runCall_of_raised {s : State} {w : RequestWord} {reply : Option Answer → Reply} {e : Exc}
    (hp : s.pending = some w) (hr : reply s.response = .raised e) :
    runCall w reply s = .next (fatalEnd (excCode e) e s) := by
  simp [runCall, hp, hr, raiseFatal_takeAnswer]

theorem runCall_of_returned {s : State} {w : RequestWord} {reply : Option Answer → Reply} {bs : List Byte}
    (hp : s.pending = some w) (hr : reply s.response = .returned bs) :
    runCall w reply s = .next (returnCall bs (takeAnswer s)) := by
  simp [runCall, hp, hr]

/-- A read of at least one byte of the block's own device is a call (40_bus_accessor.md R100). -/
theorem exec_accRead_of_count {s : State} {count : Byte} (reg : Byte) (h : count ≠ 0#8) :
    exec (.accRead s.cfg.deviceAddr reg count) s =
      runCall (readWord s.cfg.deviceAddr reg count)
        (readReply count.toNat (readWord s.cfg.deviceAddr reg count)) s := by
  simp [exec, execAccRead, h]

/-- A write to the block's own device is a call (40_bus_accessor.md R102). -/
theorem exec_accWrite_own (s : State) (reg v : Byte) :
    exec (.accWrite s.cfg.deviceAddr reg v) s =
      runCall (writeWord s.cfg.deviceAddr reg v) (writeReply (writeWord s.cfg.deviceAddr reg v)) s := by
  simp [exec, execAccWrite]

/-! ### A state's read and write -/

section

variable {s : State} {w : RequestWord} {count : Byte}

theorem runRead_of_none (reg count : Byte) (onBytes : List Byte → State → State) (hp : s.pending = none) :
    runRead reg count onBytes s = issueRequest (readWord s.cfg.deviceAddr reg count) s := by
  simp [runRead, hp]

theorem runRead_of_noAnswer (reg count : Byte) (onBytes : List Byte → State → State) (hp : s.pending = some w)
    (hr : s.response = none) : runRead reg count onBytes s = s := by
  simp [runRead, hp, hr, readReply]

theorem runRead_of_data {bs : List Byte} (reg : Byte) (onBytes : List Byte → State → State) (hp : s.pending = some w)
    (hr : s.response = some (.data bs)) (hlen : bs.length = count.toNat) :
    runRead reg count onBytes s = onBytes bs (takeAnswer s) := by
  simp [runRead, hp, hr, readReply_of_length w hlen]

theorem finishWrite_of_noAnswer (w : RequestWord) (onDone : State → State) (hr : s.response = none) :
    finishWrite w onDone s = s := by
  simp [finishWrite, hr, writeReply]

theorem finishWrite_of_ack (w : RequestWord) (onDone : State → State) (hr : s.response = some .ack) :
    finishWrite w onDone s = onDone (takeAnswer s) := by
  simp [finishWrite, hr, writeReply]

/-- CANCEL stops the poll loop in the issue step of S_POLL_READ (44_poll_loop.md R196). -/
theorem exec_sPollRead_of_stop (h : s.pending = none ∧ s.cancel = true) :
    exec .sPollRead s = .next (gotoState stStopped s) := by
  simp only [exec, execSPollRead, Bool.and_eq_true, Option.isNone_iff_eq_none, if_pos h]

/-- S_POLL_READ looks at CANCEL in its issue step only, so with a word pending it is its read (44_poll_loop.md R196). -/
theorem exec_sPollRead_of_not_stop (h : ¬ (s.pending = none ∧ s.cancel = true)) :
    exec .sPollRead s =
      .next (runRead s.cfg.dataStart Config.rawBlockLength
        (fun bs t => gotoState stDecode { t with raw := rawOfAnswer bs }) s) := by
  simp only [exec, execSPollRead, Bool.and_eq_true, Option.isNone_iff_eq_none, if_neg h]

end

end Sys2Proof.Machine
end

section
/-! The statements of 20_memory.md about one transaction: the accessor's, those of the states, and what the block does while
one is pending. -/

namespace Sys2Proof.Machine

/-! ### The accessor by itself -/

/-- Settles O7: the answer decides between the five cases of the call. -/
theorem accReadTransaction : Obligations.AccReadTransaction := by
  intro s reg count w hcount hw
  obtain rfl : w = readWord s.cfg.deviceAddr reg count := hw
  rw [exec_accRead_of_count reg hcount]
  refine ⟨runCall_of_none _ _, fun hp hr => ?_, fun bs hp hr hlen => ?_, fun hp hr => ?_, fun a hp hr hfail hlen => ?_⟩
  · exact runCall_of_waiting hp (by rw [hr]; rfl)
  · exact runCall_of_returned hp (by rw [hr]; exact readReply_of_length _ hlen)
  · exact runCall_of_raised (e := .transportFailure _) hp (by rw [hr]; rfl)
  · exact runCall_of_raised (e := .malformedResponse _) hp (by rw [hr]; exact readReply_malformed _ hfail hlen)

/-- Settles O9: the answer decides between the five cases of the call. -/
theorem accWriteTransaction : Obligations.AccWriteTransaction := by
  intro s reg v w hw
  obtain rfl : w = writeWord s.cfg.deviceAddr reg v := hw
  rw [exec_accWrite_own]
  refine ⟨runCall_of_none _ _, fun hp hr => ?_, fun hp hr => ?_, fun hp hr => ?_, fun a hp hr hfail hack => ?_⟩
  · exact runCall_of_waiting hp (by rw [hr]; rfl)
  · exact runCall_of_returned hp (by rw [hr]; rfl)
  · exact runCall_of_raised (e := .transportFailure _) hp (by rw [hr]; rfl)
  · exact runCall_of_raised (e := .malformedResponse _) hp (by rw [hr]; exact writeReply_malformed _ hfail hack)

/-! ### The states with a transaction -/

/-- Settles O11: the read of one byte, which goes to ID_BYTE. -/
theorem idReadTransaction : Obligations.IdReadTransaction := by
  refine fun s => ⟨fun w hp hw => ?_, fun w b hp hr => ?_⟩
  · subst hw
    exact congrArg _ (runRead_of_none _ _ _ hp)
  · exact congrArg _ (runRead_of_data _ _ hp hr rfl)

/-- Settles O13: the read of one byte, which goes to PWR_OLD. -/
theorem pwrReadTransaction : Obligations.PwrReadTransaction := by
  refine fun s => ⟨fun w hp hw => ?_, fun w b hp hr => ?_⟩
  · subst hw
    exact congrArg _ (runRead_of_none _ _ _ hp)
  · exact congrArg _ (runRead_of_data _ _ hp hr rfl)

/-- Settles O15: PWR_NEW is read, and its mark looked at, in the issue step; the ACK step is `finishWrite`. -/
theorem pwrWriteTransaction : Obligations.PwrWriteTransaction := by
  refine fun s => ⟨fun w hp hw => ?_, fun w hp hr => ?_⟩
  · subst hw
    simp only [exec, execSPwrWrite, hp, unmarkedReadsOf_sPwrWrite]
    rfl
  · simp only [exec, execSPwrWrite, hp, finishWrite_of_ack _ _ hr]
    rfl

/-- Settles O16: the read of one byte, which is logged and compared with nothing. -/
theorem pwrVerifyTransaction : Obligations.PwrVerifyTransaction := by
  refine fun s => ⟨fun w hp hw => ?_, fun w b hp hr => ?_⟩
  · subst hw
    exact congrArg _ (runRead_of_none _ _ _ hp)
  · exact congrArg _ (runRead_of_data _ _ hp hr rfl)

/-- Settles O17: CANCEL decides in the issue step, and otherwise the state is a read of six bytes into RAW. -/
theorem pollReadTransaction : Obligations.PollReadTransaction := by
  refine fun s => ⟨fun hp hc => ?_, fun w hp hc hw => ?_, fun w b0 b1 b2 b3 b4 b5 hp hr => ?_⟩
  · exact exec_sPollRead_of_stop ⟨hp, hc⟩
  · subst hw
    rw [exec_sPollRead_of_not_stop (by simp [hc])]
    exact congrArg _ (runRead_of_none _ _ _ hp)
  · rw [exec_sPollRead_of_not_stop (by simp [hp])]
    exact congrArg _ (runRead_of_data _ _ hp hr rfl)

/-! ### While a word is pending -/

/-- Settles O35: four of the states are reads, and S_PWR_WRITE's answer step is `finishWrite`. -/
theorem noAnswerNoStep : Obligations.NoAnswerNoStep := by
  intro s w hp hr
  have read (reg count onBytes) : (.next (runRead reg count onBytes s) : Result) = .next s :=
    congrArg _ (runRead_of_noAnswer reg count onBytes hp hr)
  simp only [List.forall_mem_cons]
  refine ⟨read _ _ _, read _ _ _, ?_, read _ _ _, ?_, nofun⟩
  · simp only [exec, execSPwrWrite, hp, finishWrite_of_noAnswer _ _ hr]
  · rw [exec_sPollRead_of_not_stop (by simp [hp])]
    exact read _ _ _

/-- Settles O36: six of the states act only while PENDING is NONE, and the two final states never do. -/
theorem pendingHoldsOtherStates : Obligations.PendingHoldsOtherStates := by
  intro s w hp
  have held (act) : (.next (whenIdle s act) : Result) = .next s := congrArg _ (whenIdle_of_some act hp)
  simp only [List.forall_mem_cons]
  exact ⟨held _, held _, held _, held _, held _, held _, rfl, rfl, nofun⟩

end Sys2Proof.Machine
end

section
/-! Runs without a further reset: the silent transport (70_reset_and_hazards.md R260) and the transactions of the handshake
(41_handshake.md R126). -/

namespace Sys2Proof.Machine

/-! ### Steps while no reset is requested -/

theorem Effect.rst_eq {s t : State} (h : Effect s t) : t.rst = s.rst := by
  cases h <;> rfl

theorem Effect.schedule_eq {s t : State} (h : Effect s t) : t.schedule = s.schedule := by
  cases h <;> rfl

theorem takeTurn_schedule (turn : Turn) (s : State) : (takeTurn turn s).schedule = s.schedule := by
  rw [takeTurn_frame]

/-- Only a turn that requests a reset sets RST (10_state.md R36). -/
theorem takeTurn_rst {turn : Turn} (s : State) (h : turn ≠ .raiseRst) : (takeTurn turn s).rst = s.rst := by
  obtain e | ⟨hrst, -⟩ | ⟨_, -, e⟩ | ⟨_, _, -, -, e⟩ | ⟨-, e⟩ := takeTurn_cases turn s
  · rw [e]
  · exact absurd hrst h
  all_goals rw [e]

/-- `step_effect` without the reset: the turn taken is one of the schedule, and what is left of the schedule is a suffix. -/
theorem step_effect_of_noRst {s t : State} (hc : s.call = none) (hl : LegalCode s.state) (hrst : s.rst = false)
    (h : step s = .next t) :
    ∃ later, later <:+ s.schedule ∧
      ((∃ turn ∈ s.schedule, t = takeTurn turn { s with schedule := later }) ∨
        Effect { s with schedule := later } t) := by
  obtain ⟨hr, -⟩ | ⟨-, turn, later, hs, -, ht⟩ | ⟨-, later, hs, hrun⟩ := step_next h
  · simp [hrst] at hr
  · exact ⟨later, by simp [hs], .inl ⟨turn, by simp [hs], ht⟩⟩
  · rw [runSequencer_of_noCall (s := { s with schedule := later }) hc] at hrun
    refine ⟨later, ?_, .inr (exec_effect hl hrun)⟩
    obtain ⟨hs, rfl⟩ | hs := hs <;> simp [hs]

/-- Without a reset in the schedule none is requested after the step either. -/
theorem step_keeps_noReset {s t : State} (hc : s.call = none) (hl : LegalCode s.state) (hrst : s.rst = false)
    (hn : NoReset s.schedule) (h : step s = .next t) : t.rst = false ∧ NoReset t.schedule := by
  obtain ⟨later, hsuf, ⟨turn, hmem, rfl⟩ | he⟩ := step_effect_of_noRst hc hl hrst h
  · have hturn : turn ≠ .raiseRst := fun e => hn (e ▸ hmem)
    rw [takeTurn_rst _ hturn, takeTurn_schedule]
    exact ⟨hrst, fun hm => hn (hsuf.mem hm)⟩
  · rw [he.rst_eq, he.schedule_eq]
    exact ⟨hrst, fun hm => hn (hsuf.mem hm)⟩

/-! ### A silent transport -/

/-- With a word pending and no answer the state has no step: an effect needs PENDING = NONE or an answer (20_memory.md R55). -/
theorem Effect.eq_of_noAnswer {s t : State} {w : RequestWord} (h : Effect s t) (hp : s.pending = some w)
    (hr : s.response = none) : t = s := by
  cases h with
  | noStep => rfl
  | issue _ h | issueWrite _ h | idMatch h | idMismatch h | pwrSet h | stop h | decode _ h | map _ _ _ h
  | publish _ _ _ h | wait h => simp [hp] at h
  | badAnswer _ _ _ h | idRead _ _ _ h | pwrRead _ _ _ h | pwrWrite _ _ h | pwrVerify _ _ _ h | pollRead _ _ _ h =>
    simp [hr] at h

/-- The states a waiting block can come to under a silent transport: only the schedule, CANCEL and the timer differ. -/
def StillWaiting (s t : State) : Prop :=
  ∃ turns level timer, t = { s with schedule := turns, cancel := level, timer := timer } ∧ NoReset turns ∧ Silent turns

/-- A turn that is neither a reset nor an answer drives CANCEL or the timer (00_scope.md R12). -/
theorem takeTurn_of_quiet {turn : Turn} (s : State) (hrst : turn ≠ .raiseRst) (hans : ∀ n a, turn ≠ .answer n a) :
    ∃ level timer, takeTurn turn s = { s with cancel := level, timer := timer } := by
  obtain e | ⟨h, -⟩ | ⟨level, -, e⟩ | ⟨n, a, h, -, -⟩ | ⟨-, e⟩ := takeTurn_cases turn s
  · exact ⟨s.cancel, s.timer, e⟩
  · exact absurd h hrst
  · exact ⟨level, s.timer, e⟩
  · exact absurd h (hans n a)
  · exact ⟨s.cancel, _, e⟩

/-- Under a silent transport and without a reset a step of a waiting block changes the inputs and the timer only. -/
theorem step_of_noAnswer {s : State} {w : RequestWord} (hp : s.pending = some w) (hr : s.response = none)
    (hc : s.call = none) (hl : LegalCode s.state) (hrst : s.rst = false) (hn : NoReset s.schedule)
    (hs : Silent s.schedule) : ∃ t, step s = .next t ∧ StillWaiting s t := by
  obtain ⟨t, hstep⟩ := step_next_of_noCall hc
  obtain ⟨later, hsuf, hcase⟩ := step_effect_of_noRst hc hl hrst hstep
  have hn' : NoReset later := fun hm => hn (hsuf.mem hm)
  have hs' : Silent later := fun n a hm => hs n a (hsuf.mem hm)
  refine ⟨t, hstep, later, ?_⟩
  obtain ⟨turn, hmem, rfl⟩ | he := hcase
  · obtain ⟨level, timer, e⟩ := takeTurn_of_quiet { s with schedule := later }
      (fun e => hn (e ▸ hmem)) (fun n a e => hs n a (e ▸ hmem))
    exact ⟨level, timer, e, hn', hs'⟩
  · exact ⟨s.cancel, s.timer, he.eq_of_noAnswer hp hr, hn', hs'⟩

/-- Settles O56, by induction on the run: every state of it differs from the first in its inputs and timer only. -/
theorem silentTransportWaitsForever : Obligations.SilentTransportWaitsForever := by
  intro s w k hp hr hc hl hrst hn hs
  have start : StillWaiting s s := ⟨s.schedule, s.cancel, s.timer, rfl, hn, hs⟩
  have keeps (t : State) (h : StillWaiting s t) : ∃ u, step t = .next u ∧ StillWaiting s u := by
    obtain ⟨turns, level, timer, rfl, hn, hs⟩ := h
    obtain ⟨u, hstep, later, level', timer', rfl, hn', hs'⟩ := step_of_noAnswer
      (s := { s with schedule := turns, cancel := level, timer := timer }) hp hr hc hl hrst hn hs
    exact ⟨_, hstep, later, level', timer', rfl, hn', hs'⟩
  obtain ⟨t, hrun, _, _, _, rfl, -, -⟩ := run_keeps (StillWaiting s) keeps k start
  exact ⟨_, hrun, rfl, hp, by simp [busy, hp], rfl, rfl⟩

/-! ### The requests of a run -/

/-- The requests of the handshake in order: W_ID, W_PR, W_PW(PWR_OLD | 0x08), W_PR (41_handshake.md R126). -/
def handshakeWords (cfg : Config) (old : Byte) : List RequestWord :=
  [ readWord cfg.deviceAddr cfg.devidReg 1#8,
    readWord cfg.deviceAddr cfg.powerCtlReg 1#8,
    writeWord cfg.deviceAddr cfg.powerCtlReg (setMeasureBit old),
    readWord cfg.deviceAddr cfg.powerCtlReg 1#8 ]

/-- W_DATA, the request of the poll loop (42_sample_decoder.md R141). -/
def sampleWord (cfg : Config) : RequestWord := readWord cfg.deviceAddr cfg.dataStart 6#8

/-- How many transactions of the handshake are complete when the block stands in a state of it (41_handshake.md R120 to
R125). -/
def handshakeDone (c : StateCode) : Nat :=
  if c = stIdRead then 0
  else if c = stIdCheck ∨ c = stPwrRead then 1
  else if c = stPwrSet ∨ c = stPwrWrite then 2
  else 3

/-- What the TXN port has shown of the run: in the handshake its completed transactions and the pending one, and with
DEV_STATE 1 the whole handshake and then sample reads. -/
structure RequestTrace (s : State) : Prop where
  measureBit : s.state = stPwrWrite → s.pwrNew.val = setMeasureBit s.pwrOld.val
  inHandshake : s.state.toNat ≤ 5 →
    txnWords s.events = (handshakeWords s.cfg s.pwrOld.val).take (handshakeDone s.state) ++ s.pending.toList
  measuring : s.devState = true →
    ∃ n, txnWords s.events = handshakeWords s.cfg s.pwrOld.val ++ List.replicate n (sampleWord s.cfg)

/-- In the handshake a state's request is the next word of the handshake. -/
theorem RequestTrace.take_append_request {s : State} {w : RequestWord} (h : RequestTrace s)
    (hw : requestOf s = some w) (hs : s.state.toNat ≤ 5) :
    (handshakeWords s.cfg s.pwrOld.val).take (handshakeDone s.state) ++ [w] =
      (handshakeWords s.cfg s.pwrOld.val).take (handshakeDone s.state + 1) := by
  unfold requestOf at hw
  split_ifs at hw with hid hpwr hwrite hpoll
  · cases hw; simp [hid, handshakeDone, handshakeWords]
  · cases hw; obtain hc | hc := hpwr <;> simp [hc, handshakeDone, handshakeWords]
  · cases hw; simp [hwrite, handshakeDone, handshakeWords, h.measureBit hwrite]
  · simp [hpoll] at hs

/-- With DEV_STATE 1 the one request left is W_DATA (20_memory.md R51). -/
theorem Inv.request_of_measuring {s : State} {w : RequestWord} (h : Inv s) (hw : requestOf s = some w)
    (hdev : s.devState = true) : w = sampleWord s.cfg := by
  have hs : ¬ s.state.toNat ≤ 5 := fun hle => by simp [h.devInHandshake hle] at hdev
  unfold requestOf at hw
  split_ifs at hw with hid hpwr hwrite hpoll
  · simp [hid] at hs
  · obtain hc | hc := hpwr <;> simp [hc] at hs
  · simp [hwrite] at hs
  · exact (Option.some.inj hw).symm

/-- The issue step adds the state's own word, in the handshake and in the poll loop. -/
theorem RequestTrace.issueRequest {s : State} {w : RequestWord} (h : RequestTrace s) (hinv : Inv s)
    (hp : s.pending = none) (hw : requestOf s = some w) : RequestTrace (issueRequest w s) where
  measureBit := h.measureBit
  inHandshake hs := by simp [txnWords_append, txnWords, h.inHandshake hs, hp]
  measuring hdev := by
    obtain ⟨n, hn⟩ := h.measuring hdev
    refine ⟨n + 1, ?_⟩
    simp [txnWords_append, txnWords, hn, hinv.request_of_measuring hw hdev, List.replicate_succ']

/-- What the trace asks where the handshake goes on to its next state. -/
theorem RequestTrace.of_handshake {s : State} (hdev : s.devState = false) (hp : s.pending = none)
    (hnew : s.state = stPwrWrite → s.pwrNew.val = setMeasureBit s.pwrOld.val)
    (htxn : txnWords s.events = (handshakeWords s.cfg s.pwrOld.val).take (handshakeDone s.state)) : RequestTrace s where
  measureBit := hnew
  inHandshake _ := by simp [htxn, hp]
  measuring h := by simp [hdev] at h

/-- What the trace asks of a step to a state outside the handshake. -/
theorem RequestTrace.outside_handshake {s t : State} (h : RequestTrace s) (ht : 6 ≤ t.state.toNat)
    (hcfg : t.cfg = s.cfg) (hold : t.pwrOld = s.pwrOld) (hdev : t.devState = s.devState)
    (htxn : txnWords t.events = txnWords s.events) : RequestTrace t where
  measureBit hs := by simp [hs] at ht
  inHandshake hs := by omega
  measuring hd := by
    rw [htxn, hcfg, hold]
    exact h.measuring (hdev ▸ hd)

/-- Between two transactions of the handshake the completed ones stand alone. -/
theorem RequestTrace.words_of_none {s : State} {c : StateCode} (h : RequestTrace s) (hp : s.pending = none)
    (hs : s.state = c) (hc : c.toNat ≤ 5) :
    txnWords s.events = (handshakeWords s.cfg s.pwrOld.val).take (handshakeDone c) := by
  subst hs
  simpa [hp] using h.inHandshake hc

/-- When its answer comes the pending transaction is one more complete one. -/
theorem RequestTrace.words_of_some {s : State} {w : RequestWord} {c : StateCode} (h : RequestTrace s) (hinv : Inv s)
    (hp : s.pending = some w) (hs : s.state = c) (hc : c.toNat ≤ 5) :
    txnWords s.events = (handshakeWords s.cfg s.pwrOld.val).take (handshakeDone c + 1) := by
  subst hs
  rw [h.inHandshake hc, hp]
  exact h.take_append_request (hinv.pendingWord w hp) hc

/-- Each operation passes the trace on: an issue step adds the word of its state, an answer step completes it, and no other
step makes a request. -/
theorem Effect.keeps_requestTrace {s t : State} (h : RequestTrace s) (hinv : Inv s) (he : Effect s t) :
    RequestTrace t := by
  have notMeasuring {c : StateCode} (hs : s.state = c) (hc : c.toNat ≤ 5) : s.devState = false :=
    hinv.devInHandshake (hs ▸ hc)
  cases he with
  | noStep => exact h
  | issue w hp hw => exact h.issueRequest hinv hp hw
  | issueWrite w hp hw hs =>
    rw [Reg.unmarkedName_of_valid _ (hinv.pwrNewValid hs), noteReads_nil]
    exact h.issueRequest hinv hp hw
  | idRead w b hp hr hs | pwrRead w b hp hr hs | pwrWrite w hp hr hs =>
    have hdone := h.words_of_some hinv hp hs (by decide)
    exact .of_handshake (notMeasuring hs (by decide)) rfl nofun hdone
  | idMatch hp hs =>
    have hdone := h.words_of_none hp hs (by decide)
    exact .of_handshake (notMeasuring hs (by decide)) hp nofun hdone
  | pwrSet hp hs =>
    have hdone := h.words_of_none hp hs (by decide)
    exact .of_handshake (notMeasuring hs (by decide)) hp (fun _ => rfl) hdone
  | pwrVerify w b hp hr hs =>
    have hdone := h.words_of_some hinv hp hs (by decide)
    refine ⟨nofun, nofun, fun _ => ⟨0, ?_⟩⟩
    simp [txnWords_append, txnWords, hdone, handshakeDone, handshakeWords]
  | badAnswer | idMismatch | stop | pollRead | decode | map | publish | wait =>
    refine h.outside_handshake (by simp) rfl rfl rfl ?_
    simp [txnWords_append, txnWords_publishEvents, txnWords]

/-- A turn of another agent makes no request. -/
theorem RequestTrace.takeTurn {s : State} (h : RequestTrace s) (turn : Turn) : RequestTrace (takeTurn turn s) := by
  rw [takeTurn_frame]
  exact ⟨h.measureBit, h.inHandshake, h.measuring⟩

/-- What every state of a run without a second reset satisfies. -/
structure FirstRun (cfg : Config) (s : State) : Prop where
  inv : Inv s
  noRst : s.rst = false
  noReset : NoReset s.schedule
  cfg_eq : s.cfg = cfg
  trace : RequestTrace s

theorem firstRun_launch (cfg : Config) {turns : List Turn} (h : NoReset turns) : FirstRun cfg (launch cfg turns) where
  inv := inv_launch cfg turns
  noRst := rfl
  noReset := h
  cfg_eq := rfl
  trace := .of_handshake rfl rfl nofun rfl

theorem FirstRun.step {cfg : Config} {s t : State} (h : FirstRun cfg s) (hstep : step s = .next t) :
    FirstRun cfg t := by
  obtain ⟨hrst, hn⟩ := step_keeps_noReset h.inv.noCall h.inv.legal h.noRst h.noReset hstep
  refine ⟨stepKeepsInvariant s t h.inv hstep, hrst, hn, (configurationConstant s t hstep).trans h.cfg_eq, ?_⟩
  have before (later : List Turn) : RequestTrace { s with schedule := later } := { h.trace with }
  obtain ⟨later, -, ⟨turn, -, rfl⟩ | he⟩ := step_effect_of_noRst h.inv.noCall h.inv.legal h.noRst hstep
  · exact (before later).takeTurn turn
  · exact he.keeps_requestTrace (before later) (h.inv.withSchedule later)

/-- Settles O57, by induction on the run: with DEV_STATE 1 the trace is the handshake and then sample reads. -/
theorem handshakeMakesFourTransactions : Obligations.HandshakeMakesFourTransactions := by
  intro cfg turns k t hn hrun hdev
  obtain ⟨-, -, -, rfl, htrace⟩ :=
    run_next_keeps (FirstRun cfg) (fun _ _ => FirstRun.step) k (firstRun_launch cfg hn) hrun
  exact htrace.measuring hdev

end Sys2Proof.Machine
end

section
/-! The encoding of the operations (30_encoding.md R70 to R81): a request word is its five fields, so the encoder and the
decoder are inverse to each other. -/

namespace Sys2Proof

/-! ### A request word is its five fields -/

/-- Equal fields have equal bits. -/
theorem getLsbD_eq_of_extractLsb'_eq {n start len i : Nat} {v w : BitVec n}
    (h : v.extractLsb' start len = w.extractLsb' start len) (hlo : start ≤ i) (hhi : i < start + len) :
    v.getLsbD i = w.getLsbD i := by
  have hbit := congrArg (BitVec.getLsbD · (i - start)) h
  have hlen : i - start < len := by omega
  simpa [hlen, Nat.add_sub_cancel' hlo] using hbit

/-- The five fields of 30_encoding.md R71 cover the 32 bits of a request word. -/
theorem requestWord_ext {v w : RequestWord} (hop : reqIsWrite v = reqIsWrite w) (hdev : reqDev v = reqDev w)
    (hreg : reqReg v = reqReg w) (hcount : reqCount v = reqCount w) (hdata : reqData v = reqData w) : v = w := by
  refine BitVec.eq_of_getLsbD_eq fun i hi => ?_
  obtain hhi | ⟨hlo, hhi⟩ | ⟨hlo, hhi⟩ | ⟨hlo, hhi⟩ | rfl :
      i < 8 ∨ (8 ≤ i ∧ i < 16) ∨ (16 ≤ i ∧ i < 24) ∨ (24 ≤ i ∧ i < 31) ∨ i = 31 := by omega
  · exact getLsbD_eq_of_extractLsb'_eq hdata (Nat.zero_le i) hhi
  · exact getLsbD_eq_of_extractLsb'_eq hcount hlo hhi
  · exact getLsbD_eq_of_extractLsb'_eq hreg hlo hhi
  · exact getLsbD_eq_of_extractLsb'_eq hdev hlo hhi
  · exact hop

/-- A READ word with DATA 0 is the word R74 makes of its fields. -/
theorem readWord_of_fields {w : RequestWord} (hop : reqIsWrite w = false) (hdata : reqData w = 0#8) :
    readWord (reqDev w) (reqReg w) (reqCount w) = w :=
  requestWord_ext (by simp [hop]) (by simp) (by simp) (by simp) (by simp [hdata])

/-- A WRITE word with COUNT 1 is the word R75 makes of its fields. -/
theorem writeWord_of_fields {w : RequestWord} (hop : reqIsWrite w = true) (hcount : reqCount w = 1#8) :
    writeWord (reqDev w) (reqReg w) (reqData w) = w :=
  requestWord_ext (by simp [hop]) (by simp) (by simp) (by simp [hcount]) (by simp)

/-! ### What the decoder makes of the two kinds of word -/

theorem decodeRequest_readWord (dev : DevAddr) (reg : Byte) {count : Byte} (h : count ≠ 0#8) :
    decodeRequest (readWord dev reg count) = .ok (.accRead dev reg count) := by
  simp [decodeRequest, h]

theorem decodeRequest_writeWord (dev : DevAddr) (reg v : Byte) :
    decodeRequest (writeWord dev reg v) = .ok (.accWrite dev reg v) := by
  simp [decodeRequest]

/-- The decoder refuses a word exactly when it is reserved (30_encoding.md R76). -/
theorem decodeRequest_error_iff (w : RequestWord) :
    (∃ e, decodeRequest w = .error e) ↔
      (reqIsWrite w = false ∧ reqCount w = 0#8) ∨ (reqIsWrite w = false ∧ reqData w ≠ 0#8) ∨
      (reqIsWrite w = true ∧ reqCount w ≠ 1#8) := by
  obtain ⟨hop, hcount, hd⟩ | ⟨hop, hcount, hdata, hd⟩ | ⟨hreserved, herr⟩ := decodeRequest_cases w
  · simp [hop, hcount, hd]
  · simp [hop, hcount, hdata, hd]
  · exact iff_of_true herr hreserved

/-- A STATE code selects an operation that has an encoding (30_encoding.md R80, R81). -/
theorem wellFormed_decodeStateCode (c : StateCode) : (decodeStateCode c).wellFormed = true := by
  revert c
  decide

/-! ### The two round trips -/

/-- Settles O1: an accessor operation is decoded from the fields of its word, and a state operation from its code. -/
theorem decodeEncodeRoundTrip : Obligations.DecodeEncodeRoundTrip := by
  intro i hwf
  cases i with
  | accRead dev reg count => exact decodeRequest_readWord dev reg (by simpa [Instr.wellFormed] using hwf)
  | accWrite dev reg v => exact decodeRequest_writeWord dev reg v
  | sIdRead | sIdCheck | sPwrRead | sPwrSet | sPwrWrite | sPwrVerify | sPollRead | sDecode | sMap | sPublish | sWait
  | sStopped | sTerminated | reservedStateD | reservedStateE | reservedStateF => rfl

/-- Settles O2: a word that decodes is put together again from its fields, and a STATE code from the table of R80. -/
theorem encodeDecodeRoundTrip : Obligations.EncodeDecodeRoundTrip := by
  intro c i h
  cases c with
  | state c =>
    obtain rfl : decodeStateCode c = i := Except.ok.inj h
    exact ⟨Machine.encode_decodeStateCode c, wellFormed_decodeStateCode c⟩
  | request w =>
    replace h : decodeRequest w = .ok i := h
    obtain ⟨hop, hcount, hd⟩ | ⟨hop, hcount, hdata, hd⟩ | ⟨-, e, hd⟩ := decodeRequest_cases w <;>
      (rw [hd] at h; cases h)
    · exact ⟨congrArg Code.request (writeWord_of_fields hop hcount), rfl⟩
    · exact ⟨congrArg Code.request (readWord_of_fields hop hdata), by simpa [Instr.wellFormed] using hcount⟩

/-- Settles O4: the two words and the six codes, decoded by evaluation. -/
theorem sampleWordsDecode : Obligations.SampleWordsDecode :=
  ⟨rfl, rfl, rfl, rfl, rfl, rfl, rfl, rfl⟩

end Sys2Proof

namespace Sys2Proof.Machine

/-! ### The block issues no reserved word -/

/-- The request of a state is a word the decoder accepts (30_encoding.md R76, R82). -/
theorem decodeRequest_of_requestOf {s : State} {w : RequestWord} (h : requestOf s = some w) :
    ∃ i, decodeRequest w = .ok i := by
  unfold requestOf at h
  split_ifs at h <;> cases h
  · exact ⟨_, decodeRequest_readWord _ _ (by decide)⟩
  · exact ⟨_, decodeRequest_readWord _ _ (by decide)⟩
  · exact ⟨_, decodeRequest_writeWord _ _ _⟩
  · exact ⟨_, decodeRequest_readWord _ _ (by decide)⟩

/-- With an empty call port the sequencer makes no request, or it is the one of the state. -/
theorem runSequencer_request_cases {s t : State} (hc : s.call = none) (h : runSequencer s = .next t) :
    txnWords t.events = txnWords s.events ∨ ∃ w, requestOf s = some w ∧ t.events = s.events ++ [.txn w] := by
  rw [runSequencer_of_noCall hc] at h
  by_cases hl : LegalCode s.state
  · obtain hsame | ⟨w, hw, -, -, hev⟩ := (exec_effect hl h).request_cases
    · exact .inl hsame
    · exact .inr ⟨w, hw, hev⟩
  · rw [exec_reserved hl] at h
    cases h
    exact .inl (by simp [txnWords_append, txnWords])

/-- With an empty call port a step makes no request, or it is the one of the state: neither a reset nor a turn of another
agent makes one. -/
theorem step_request_cases {s t : State} (hc : s.call = none) (h : step s = .next t) :
    txnWords t.events = txnWords s.events ∨ ∃ w, requestOf s = some w ∧ t.events = s.events ++ [.txn w] := by
  obtain ⟨-, rfl⟩ | ⟨-, turn, later, -, -, rfl⟩ | ⟨-, later, -, hrun⟩ := step_next h
  · exact .inl rfl
  · exact .inl (by simp)
  · exact runSequencer_request_cases (s := { s with schedule := later }) hc hrun

/-- Settles O3: the words the decoder refuses are those of R76, and the request of a state is none of them. -/
theorem reservedRequestWords : Obligations.ReservedRequestWords := by
  refine ⟨decodeRequest_error_iff, fun s t w hc hstep hev => ?_⟩
  obtain hsame | ⟨v, hv, hev'⟩ := step_request_cases hc hstep
  · simp [hev, txnWords_append, txnWords] at hsame
  · obtain rfl : v = w := by simpa [hev] using hev'.symm
    exact decodeRequest_of_requestOf hv

end Sys2Proof.Machine
end

section
/-! Samples, answers and the STATUS word as numbers and as words (30_encoding.md R77, R84, R85), and the steps that take or
drop an answer (60_exceptions.md R222 to R225, 70_reset_and_hazards.md R253). -/

namespace Sys2Proof.Machine

/-! ### Fields side by side as a number -/

/-- The number of two fields side by side (00_scope.md R9). -/
theorem toNat_append_eq_add {m n : Nat} (x : BitVec m) (y : BitVec n) :
    (x ++ y).toNat = x.toNat * 2 ^ n + y.toNat := by
  rw [BitVec.toNat_append, ← Nat.shiftLeft_add_eq_or_of_lt y.isLt, Nat.shiftLeft_eq]

/-! ### The decoder of samples -/

/-- DECODE16 is the two's complement reading of the high byte above the low one (30_encoding.md R85). -/
theorem decode16_eq_toInt (lo hi : Byte) : decode16 lo hi = (hi ++ lo).toInt := by
  rw [decode16_eq, BitVec.toInt_eq_toNat_cond, toNat_append_eq_add]
  split <;> split <;> omega

/-- The AX word of a sample is its two bytes, the low byte first (42_sample_decoder.md R142). -/
@[simp] theorem ofInt_decode16 (lo hi : Byte) : BitVec.ofInt 16 (decode16 lo hi) = hi ++ lo := by
  rw [decode16_eq_toInt, BitVec.ofInt_toInt]

/-- The three AX registers after S_DECODE: each holds its own two bytes of RAW (42_sample_decoder.md R142). -/
theorem written_samplesOf (b : RawBytes) :
    Axes.written ((samplesOf b).map (BitVec.ofInt 16)) =
      { x := ⟨b.b1 ++ b.b0, true⟩, y := ⟨b.b3 ++ b.b2, true⟩, z := ⟨b.b5 ++ b.b4, true⟩ } := by
  simp [Axes.written, Axes.map, samplesOf, Reg.written]

/-- Settles O18: with PENDING = NONE the state acts, and `written_samplesOf` says what it writes. -/
theorem decodeFillsSamples : Obligations.DecodeFillsSamples := by
  intro s hp
  simp only [exec, execSDecode, whenIdle_of_none _ hp, written_samplesOf, unmarkedReadsOf_sDecode]
  rfl

/-! ### Exceptions -/

/-- Settles O32: each of the three operations raises IllegalState, whatever is pending. -/
theorem reservedStatesRaise : Obligations.ReservedStatesRaise := by
  intro s
  simp only [List.forall_mem_cons]
  exact ⟨rfl, rfl, rfl, nofun⟩

/-- A read whose answer raises takes the fatal-error sequence and writes no register (60_exceptions.md R224). -/
theorem runRead_of_raised {s : State} {w : RequestWord} {count : Byte} {e : Exc} (reg : Byte)
    (onBytes : List Byte → State → State) (hp : s.pending = some w)
    (hr : readReply count.toNat w s.response = .raised e) :
    runRead reg count onBytes s = fatalEnd (excCode e) e s := by
  simp [runRead, hp, hr, raiseFatal_takeAnswer]

/-- The answer step of S_PWR_WRITE does the same (60_exceptions.md R224). -/
theorem exec_sPwrWrite_of_raised {s : State} {w : RequestWord} {e : Exc} (hp : s.pending = some w)
    (hr : writeReply w s.response = .raised e) : exec .sPwrWrite s = .next (fatalEnd (excCode e) e s) := by
  simp [exec, execSPwrWrite, hp, finishWrite, hr, raiseFatal_takeAnswer]

/-- The three handshake reads, whose answer is one byte (41_handshake.md R120, R122, R125). -/
theorem exec_handshakeRead_of_raised {s : State} {w : RequestWord} {e : Exc} (hp : s.pending = some w)
    (hr : readReply 1 w s.response = .raised e) :
    ∀ i ∈ [Instr.sIdRead, .sPwrRead, .sPwrVerify], exec i s = .next (fatalEnd (excCode e) e s) := by
  have read (reg onBytes) : (.next (runRead reg 1#8 onBytes s) : Result) = .next (fatalEnd (excCode e) e s) :=
    congrArg _ (runRead_of_raised reg onBytes hp hr)
  simp only [List.forall_mem_cons]
  exact ⟨read _ _, read _ _, read _ _, nofun⟩

/-- S_POLL_READ, whose answer is six bytes (42_sample_decoder.md R141). -/
theorem exec_sPollRead_of_raised {s : State} {w : RequestWord} {e : Exc} (hp : s.pending = some w)
    (hr : readReply 6 w s.response = .raised e) : exec .sPollRead s = .next (fatalEnd (excCode e) e s) := by
  rw [exec_sPollRead_of_not_stop (by simp [hp])]
  exact congrArg _ (runRead_of_raised _ _ hp hr)

/-- Settles O33: FAIL raises in every answer phase, and an illegal answer in the phase it is illegal for. -/
theorem badAnswersAreFatal : Obligations.BadAnswersAreFatal := by
  intro s w hp
  refine ⟨fun hr => ?_, fun a hr hfail hlen => ?_, fun a hr hfail hlen => ?_, fun a hr hfail hack => ?_⟩
  · have reads := exec_handshakeRead_of_raised (e := .transportFailure w) hp (by rw [hr]; rfl)
    simp only [List.forall_mem_cons] at reads ⊢
    obtain ⟨hid, hpwr, hverify, -⟩ := reads
    refine ⟨hid, hpwr, ?_, hverify, ?_, nofun⟩
    · exact exec_sPwrWrite_of_raised (e := .transportFailure w) hp (by rw [hr]; rfl)
    · exact exec_sPollRead_of_raised (e := .transportFailure w) hp (by rw [hr]; rfl)
  · exact exec_handshakeRead_of_raised (e := .malformedResponse w) hp (hr ▸ readReply_malformed w hfail hlen)
  · exact exec_sPollRead_of_raised (e := .malformedResponse w) hp (hr ▸ readReply_malformed w hfail hlen)
  · exact exec_sPwrWrite_of_raised (e := .malformedResponse w) hp (hr ▸ writeReply_malformed w hfail hack)

/-! ### The legal answers -/

/-- The answer phase of a write raises on everything but ACK (30_encoding.md R77). -/
theorem writeReply_raises_iff (w : RequestWord) (a : Answer) :
    (∃ e, writeReply w (some a) = .raised e) ↔ a ≠ .ack := by
  cases a <;> simp [writeReply]

/-- The answer phase of a read raises on everything but DATA of its length (30_encoding.md R77). -/
theorem readReply_raises_iff (count : Nat) (w : RequestWord) (a : Answer) :
    (∃ e, readReply count w (some a) = .raised e) ↔ ∀ bs, a = .data bs → bs.length ≠ count := by
  cases a with
  | data bs => by_cases h : bs.length = count <;> simp [readReply, h]
  | ack | fail | reserved _ => simp [readReply]

/-- An answer to a write is illegal when it is neither ACK nor FAIL (30_encoding.md R77). -/
theorem legalAnswer_write_eq_false_iff {w : RequestWord} (hop : reqIsWrite w = true) (a : Answer) :
    legalAnswer w a = false ↔ a ≠ .ack ∧ a ≠ .fail := by
  cases a <;> simp [legalAnswer, hop]

/-- An answer to a read of COUNT bytes is illegal when it is neither FAIL nor DATA of that length (30_encoding.md R77). -/
theorem legalAnswer_read_eq_false_iff {w : RequestWord} (hop : reqIsWrite w = false) (hcount : reqCount w ≠ 0#8)
    (a : Answer) :
    legalAnswer w a = false ↔ a ≠ .fail ∧ ∀ bs, a = .data bs → bs.length ≠ (reqCount w).toNat := by
  have hpos : (reqCount w).toNat ≠ 0 := fun h => hcount (BitVec.eq_of_toNat_eq h)
  cases a with
  | data bs => by_cases h : bs.length = (reqCount w).toNat <;> simp [legalAnswer, hop, h, hpos]
  | ack | fail | reserved _ => simp [legalAnswer, hop]

/-- Settles O34: a word that decodes is a WRITE or a READ of at least one byte, and each has its own legal answers. -/
theorem answerLegality : Obligations.AnswerLegality := by
  intro w a i hi
  obtain ⟨hop, -, -⟩ | ⟨hop, hcount, -, -⟩ | ⟨-, e, hd⟩ := decodeRequest_cases w
  · rw [if_pos hop, writeReply_raises_iff, legalAnswer_write_eq_false_iff hop]
    by_cases h : a = .fail <;> simp [h]
  · rw [if_neg (by simp [hop]), readReply_raises_iff, legalAnswer_read_eq_false_iff hop hcount]
    by_cases h : a = .fail <;> simp [h]
  · rw [hd] at hi
    cases hi

/-! ### A reset drops the answer -/

/-- An answer that is not accepted changes nothing (30_encoding.md R72). -/
theorem takeTurn_answer_of_not_accepted {n : Nat} {s : State} (a : Answer) (h : ¬ answerAccepted n s = true) :
    takeTurn (.answer n a) s = s := by
  simp [takeTurn, h]

/-- Settles O41: after the reset nothing is pending, and the request issued next has a number of its own (log 7). -/
theorem resetAbandonsTransaction : Obligations.ResetAbandonsTransaction := by
  intro s w hr _
  refine ⟨takeReset s, step_of_rst hr, rfl, rfl, fun n a => ?_,
    issueRequest (readWord s.cfg.deviceAddr s.cfg.devidReg 1#8) (takeReset s), ?_, rfl, rfl, fun n a hn => ?_⟩
  · exact takeTurn_answer_of_not_accepted a (by simp [answerAccepted_iff])
  · exact congrArg _ (runRead_of_none _ _ _ rfl)
  · refine takeTurn_answer_of_not_accepted a fun hacc => ?_
    obtain ⟨-, -, hnum⟩ := (answerAccepted_iff _ _).mp hacc
    simp only [issueRequest_txnCount, takeReset_txnCount] at hnum
    omega

/-! ### The STATUS word -/

/-- STATUS as the sum of its fields (30_encoding.md R84). -/
theorem status_toNat (s : State) :
    (status s).toNat = s.state.toNat + 16 * s.devState.toNat + 32 * s.pending.isSome.toNat + 64 * s.err.toNat := by
  simp only [status, busy, toNat_append_eq_add, BitVec.toNat_ofBool, BitVec.toNat_ofNat]
  omega

/-- STATUS after the fatal-error sequence: S_TERMINATED, not busy, with the code and the kept DEV_STATE
(60_exceptions.md R224). -/
theorem status_fatalEnd (code : ErrCode) (e : Exc) (s : State) :
    status (fatalEnd code e s) = 0#7 ++ code ++ 0#1 ++ BitVec.ofBool s.devState ++ 0xC#4 := rfl

/-- Settles O42: the sum of the fields, and the four examples of the rule. -/
theorem statusWord : Obligations.StatusWord := by
  refine ⟨status_toNat, rfl, fun s b hdev => ?_, fun s hstate hdev herr hbusy => ?_, fun s w hdev => ?_⟩
  · rw [status_fatalEnd, hdev]
    rfl
  · rw [status, hstate, hdev, herr, busy, hbusy]
    rfl
  · rw [status_fatalEnd, hdev]
    rfl

end Sys2Proof.Machine
end

section
/-! The statements of 40_bus_accessor.md about the calls that make no transaction: the empty read (R101), and where the
accessor run by itself stops (R100, R102, R105). -/

namespace Sys2Proof.Machine

/-! ### The empty read -/

/-- A read of no bytes returns before it looks at the device or at PENDING (40_bus_accessor.md R101, log 30). -/
theorem exec_accRead_empty (dev : DevAddr) (reg : Byte) (s : State) :
    exec (.accRead dev reg 0#8) s = .next (returnCall [] s) := rfl

/-- An empty read in the call port is run without decoding, since it has no word (40_bus_accessor.md R101, log 14). -/
theorem runSequencer_of_emptyRead {s : State} {reg : Byte} (hc : s.call = some (.emptyRead reg)) :
    runSequencer s = exec (.accRead s.cfg.deviceAddr reg 0#8) s := by
  simp [runSequencer, fetch, hc]

/-- Settles O8: the step takes the turn off, fetches the empty read and runs it. -/
theorem emptyReadReturnsAtOnce : Obligations.EmptyReadReturnsAtOnce := by
  refine ⟨fun s dev reg => exec_accRead_empty dev reg s, fun s reg later hr hs hc => ?_⟩
  have hrun := runSequencer_of_emptyRead (s := { s with schedule := later }) hc
  rw [step_of_sequencer_turn hr hs, hrun, exec_accRead_empty]
  rfl

/-! ### Where the accessor stops -/

/-- A read of at least one byte of another device is refused (40_bus_accessor.md R105, log 15). -/
theorem exec_accRead_foreign {s : State} {dev : DevAddr} {count : Byte} (reg : Byte) (hcount : count ≠ 0#8)
    (hdev : dev ≠ s.cfg.deviceAddr) : exec (.accRead dev reg count) s = .refused (.foreignDevice dev) := by
  simp [exec, execAccRead, hcount, hdev]

/-- A write to another device is refused (40_bus_accessor.md R105, log 15). -/
theorem exec_accWrite_foreign {s : State} {dev : DevAddr} (reg v : Byte) (hdev : dev ≠ s.cfg.deviceAddr) :
    exec (.accWrite dev reg v) s = .refused (.foreignDevice dev) := by
  simp [exec, execAccWrite, hdev]

/-- A call while another word than its own is pending breaks the assertion of the issue phase (40_bus_accessor.md R100,
R102, log 16). -/
theorem runCall_of_otherPending {s : State} {w p : RequestWord} (reply : Option Answer → Reply) (hp : s.pending = some p)
    (hne : p ≠ w) : runCall w reply s = .fault (.accessorBusy p) := by
  simp [runCall, hp, hne]

/-- Settles O10: the device decides first, and a call to the block's own device then stops on the other word. -/
theorem accessorStops : Obligations.AccessorStops := by
  intro s dev reg count v hcount
  refine ⟨fun hdev => ⟨exec_accRead_foreign reg hcount hdev, exec_accWrite_foreign reg v hdev⟩, ?_, ?_⟩
  · rintro p rfl hp hne
    rw [exec_accRead_of_count reg hcount]
    exact runCall_of_otherPending _ hp hne
  · rintro p rfl hp hne
    rw [exec_accWrite_own]
    exact runCall_of_otherPending _ hp hne

end Sys2Proof.Machine
end

section
/-! The statements of 41_handshake.md about the two states that act on a byte without a transaction (R121, R123). -/

namespace Sys2Proof.Machine

/-- Settles O12: with PENDING = NONE the state acts, and the comparison decides between the transfer and the fatal-error
sequence. -/
theorem idCheckComparesExactly : Obligations.IdCheckComparesExactly := by
  refine fun s hp => ⟨fun heq => ?_, fun hne => ?_⟩
  · simp only [exec, execSIdCheck, whenIdle_of_none _ hp, if_pos heq, unmarkedReadsOf_sIdCheck]
    rfl
  · simp only [exec, execSIdCheck, whenIdle_of_none _ hp, if_neg hne, unmarkedReadsOf_sIdCheck]
    rfl

/-- The measure bit is bit 3, and the mask has no other (30_encoding.md R79). -/
theorem setMeasureBit_getLsbD (b : Byte) (i : Nat) :
    (setMeasureBit b).getLsbD i = (b.getLsbD i || decide (i = 3)) := by
  have hmask : Config.measureMask = BitVec.twoPow 8 3 := rfl
  simp [setMeasureBit, hmask, BitVec.getLsbD_twoPow, eq_comm]

/-- With PENDING = NONE, S_PWR_SET writes PWR_NEW from PWR_OLD and goes on (41_handshake.md R123). -/
theorem exec_sPwrSet_of_none {s : State} (hp : s.pending = none) :
    exec .sPwrSet s =
      .next { s with
        pwrNew := ⟨setMeasureBit s.pwrOld.val, true⟩
        state := stPwrWrite
        unmarkedReads := s.unmarkedReads ++ unmarkedReadsOf .sPwrSet s } := by
  simp only [exec, execSPwrSet, whenIdle_of_none _ hp, unmarkedReadsOf_sPwrSet]
  rfl

/-- Settles O14: the byte the state writes is `setMeasureBit` of PWR_OLD, taken bit by bit. -/
theorem pwrSetSetsBitThree : Obligations.PwrSetSetsBitThree := by
  refine fun s hp => ⟨setMeasureBit s.pwrOld.val, exec_sPwrSet_of_none hp, ?_, fun i hi => ?_⟩
  · simp [setMeasureBit_getLsbD]
  · simp [setMeasureBit_getLsbD, hi]

end Sys2Proof.Machine
end

section
/-! Runs of the handshake turn by turn (41_handshake.md R120 to R126): what each state makes of its turns, and the whole
handshake as the chain of its six states. -/

namespace Sys2Proof.Machine

/-! ### Turns -/

/-- A run goes on where its first part stopped. -/
theorem run_add {m : Nat} (n : Nat) {s t : State} (h : Host.Core.run Sys2Proof.core m s = .next t) :
    Host.Core.run Sys2Proof.core (m + n) s = Host.Core.run Sys2Proof.core n t := by
  induction m generalizing s with
  | zero => cases h; rw [Nat.zero_add]
  | succ m ih =>
    rw [Nat.succ_add]
    simp only [Host.Core.run] at h ⊢
    cases hs : Sys2Proof.core.step s with
    | next u => rw [hs] at h; exact ih h
    | fault r | refused r => rw [hs] at h; cases h

/-- One step is a run of length 1. -/
theorem run_one_of_step {s t : State} (h : step s = .next t) : Host.Core.run Sys2Proof.core 1 s = .next t := by
  have hcore : Sys2Proof.core.step s = .next t := h
  simp only [Host.Core.run, hcore]

/-- The block stands in a state with nothing pending or requested, and these turns come next. -/
structure Ready (s : State) (c : StateCode) (turns : List Turn) : Prop where
  state_eq : s.state = c
  noPending : s.pending = none
  noResponse : s.response = none
  noCall : s.call = none
  noRst : s.rst = false
  schedule_eq : s.schedule = turns

/-- The sequencer's turn with an empty call port is the operation of STATE (10_state.md R20). -/
theorem step_of_state_turn {s : State} {later : List Turn} (hr : s.rst = false) (hc : s.call = none)
    (hs : s.schedule = .sequencer :: later) :
    step s = exec (decodeStateCode s.state) { s with schedule := later } := by
  rw [step_of_sequencer_turn hr (.inr hs)]
  exact runSequencer_of_noCall (s := { s with schedule := later }) hc

/-- The transport's turn brings the answer that has the number of the pending transaction (30_encoding.md R72). -/
theorem step_of_answer_turn {s : State} {w : RequestWord} {a : Answer} {later : List Turn} (hr : s.rst = false)
    (hp : s.pending = some w) (hn : s.response = none) (hs : s.schedule = .answer s.txnCount a :: later) :
    step s = .next { s with schedule := later, response := some a } := by
  simp [step, hr, hs, takeTurn, answerAccepted, hp, hn]

/-- One turn of a state: what its operation does. -/
theorem run_of_exec {s t : State} {c : StateCode} {later : List Turn} (h : Ready s c (.sequencer :: later))
    (hexec : exec (decodeStateCode c) { s with schedule := later } = .next t) :
    Host.Core.run Sys2Proof.core 1 s = .next t := by
  obtain ⟨rfl, -, -, hc, hr, hs⟩ := h
  exact run_one_of_step ((step_of_state_turn hr hc hs).trans hexec)

/-- The three turns of a transaction: the issue step, the transport's answer and the answer step (20_memory.md R55). -/
theorem run_transaction {s t : State} {c : StateCode} {w : RequestWord} {a : Answer} {later : List Turn}
    (h : Ready s c ([.sequencer, .answer (s.txnCount + 1) a, .sequencer] ++ later))
    (hissue : ∀ rest, exec (decodeStateCode c) { s with schedule := rest } =
      .next (issueRequest w { s with schedule := rest }))
    (hdone : exec (decodeStateCode c) { issueRequest w s with schedule := later, response := some a } = .next t) :
    Host.Core.run Sys2Proof.core 3 s = .next t := by
  have issue := run_of_exec h (hissue _)
  obtain ⟨rfl, -, hn, hc, hr, -⟩ := h
  have answer := step_of_answer_turn (s := issueRequest w { s with
    schedule := .answer (s.txnCount + 1) a :: .sequencer :: later }) hr rfl hn rfl
  have finish := step_of_state_turn (s := { issueRequest w s with
    schedule := .sequencer :: later, response := some a }) hr hc rfl
  calc Host.Core.run Sys2Proof.core (1 + (1 + 1)) s
    _ = Host.Core.run Sys2Proof.core (1 + 1) _ := run_add _ issue
    _ = Host.Core.run Sys2Proof.core 1 _ := run_add _ (run_one_of_step answer)
    _ = .next t := run_one_of_step (finish.trans hdone)

/-! ### The six states -/

section

variable {s : State} {later : List Turn}

/-- S_ID_READ with its answer (41_handshake.md R120). -/
theorem run_idRead {b : Byte}
    (h : Ready s stIdRead ([.sequencer, .answer (s.txnCount + 1) (.data [b]), .sequencer] ++ later)) :
    Host.Core.run Sys2Proof.core 3 s =
      .next { s with
        state := stIdCheck
        idByte := ⟨b, true⟩
        events := s.events ++ [.txn (readWord s.cfg.deviceAddr s.cfg.devidReg 1#8)]
        txnCount := s.txnCount + 1
        schedule := later
        pending := none
        response := none } :=
  run_transaction h (fun _ => (idReadTransaction _).1 _ h.noPending rfl) ((idReadTransaction _).2 _ b rfl rfl)

/-- S_ID_CHECK with the expected byte (41_handshake.md R121). -/
theorem run_idCheck_of_eq (h : Ready s stIdCheck (.sequencer :: later)) (hv : s.idByte = ⟨s.cfg.expectedDevid, true⟩) :
    Host.Core.run Sys2Proof.core 1 s = .next { s with state := stPwrRead, schedule := later } := by
  have hgo := (idCheckComparesExactly { s with schedule := later } h.noPending).1 (congrArg Reg.val hv)
  refine run_of_exec h (hgo.trans ?_)
  simp [hv]

/-- S_ID_CHECK with another byte (41_handshake.md R121, 60_exceptions.md R224). -/
theorem run_idCheck_of_ne (h : Ready s stIdCheck (.sequencer :: later)) (hv : s.idByte.valid = true)
    (hne : s.idByte.val ≠ s.cfg.expectedDevid) :
    Host.Core.run Sys2Proof.core 1 s =
      .next (fatalEnd 1#3 (.deviceNotFound s.idByte.val) { s with schedule := later }) := by
  have hstop := (idCheckComparesExactly { s with schedule := later } h.noPending).2 hne
  refine run_of_exec h (hstop.trans ?_)
  simp [hv]

/-- S_PWR_READ with its answer (41_handshake.md R122). -/
theorem run_pwrRead {b : Byte}
    (h : Ready s stPwrRead ([.sequencer, .answer (s.txnCount + 1) (.data [b]), .sequencer] ++ later)) :
    Host.Core.run Sys2Proof.core 3 s =
      .next { s with
        state := stPwrSet
        pwrOld := ⟨b, true⟩
        events := s.events ++ [.txn (readWord s.cfg.deviceAddr s.cfg.powerCtlReg 1#8)]
        txnCount := s.txnCount + 1
        schedule := later
        pending := none
        response := none } :=
  run_transaction h (fun _ => (pwrReadTransaction _).1 _ h.noPending rfl) ((pwrReadTransaction _).2 _ b rfl rfl)

/-- S_PWR_SET (41_handshake.md R123). -/
theorem run_pwrSet (h : Ready s stPwrSet (.sequencer :: later)) (hv : s.pwrOld.valid = true) :
    Host.Core.run Sys2Proof.core 1 s =
      .next { s with state := stPwrWrite, pwrNew := ⟨setMeasureBit s.pwrOld.val, true⟩, schedule := later } := by
  have hset := exec_sPwrSet_of_none (s := { s with schedule := later }) h.noPending
  refine run_of_exec h (hset.trans ?_)
  simp [hv]

/-- S_PWR_WRITE with its ACK (41_handshake.md R124). -/
theorem run_pwrWrite (h : Ready s stPwrWrite ([.sequencer, .answer (s.txnCount + 1) .ack, .sequencer] ++ later))
    (hv : s.pwrNew.valid = true) :
    Host.Core.run Sys2Proof.core 3 s =
      .next { s with
        state := stPwrVerify
        events := s.events ++ [.txn (writeWord s.cfg.deviceAddr s.cfg.powerCtlReg s.pwrNew.val)]
        txnCount := s.txnCount + 1
        schedule := later
        pending := none
        response := none } := by
  refine run_transaction h (fun rest => ?_) ((pwrWriteTransaction _).2 _ rfl rfl)
  refine ((pwrWriteTransaction { s with schedule := rest }).1 _ h.noPending rfl).trans ?_
  simp [hv, issueRequest, writeWord]

/-- S_PWR_VERIFY with its answer (41_handshake.md R125). -/
theorem run_pwrVerify {b : Byte}
    (h : Ready s stPwrVerify ([.sequencer, .answer (s.txnCount + 1) (.data [b]), .sequencer] ++ later)) :
    Host.Core.run Sys2Proof.core 3 s =
      .next { s with
        state := stPollRead
        devState := true
        pwrVerify := ⟨b, true⟩
        events := s.events ++ [.txn (readWord s.cfg.deviceAddr s.cfg.powerCtlReg 1#8)] ++ [.log b]
        txnCount := s.txnCount + 1
        schedule := later
        pending := none
        response := none } :=
  run_transaction h (fun _ => (pwrVerifyTransaction _).1 _ h.noPending rfl) ((pwrVerifyTransaction _).2 _ b rfl rfl)

end

/-- Settles O58: the run is the chain of the six states, each of which leaves the block ready for the next. -/
theorem handshakeSucceeds : Obligations.HandshakeSucceeds := by
  intro cfg old verify later
  refine ⟨_,
    (run_add 11 (run_idRead ⟨rfl, rfl, rfl, rfl, rfl, rfl⟩)).trans <|
    (run_add 10 (run_idCheck_of_eq ⟨rfl, rfl, rfl, rfl, rfl, rfl⟩ rfl)).trans <|
    (run_add 7 (run_pwrRead ⟨rfl, rfl, rfl, rfl, rfl, rfl⟩)).trans <|
    (run_add 6 (run_pwrSet ⟨rfl, rfl, rfl, rfl, rfl, rfl⟩ rfl)).trans <|
    (run_add 3 (run_pwrWrite ⟨rfl, rfl, rfl, rfl, rfl, rfl⟩ rfl)).trans <|
    run_pwrVerify ⟨rfl, rfl, rfl, rfl, rfl, rfl⟩,
    rfl, rfl, rfl, rfl, rfl, rfl, rfl, rfl, rfl, rfl⟩

end Sys2Proof.Machine
end

section
/-! The end of a run whose ID byte is not the expected one (41_handshake.md R127). -/

namespace Sys2Proof.Machine

/-! ### What a step can do in the states around the comparison

In the case splits the effects not named belong to other states. -/

/-- In S_ID_READ the block waits, issues its request, fails on the answer, or takes the byte (41_handshake.md R120). -/
theorem Effect.cases_of_idRead {s t : State} (h : Effect s t) (hs : s.state = stIdRead) :
    t = s ∨
    (∃ w, s.pending = none ∧ t = issueRequest w s) ∨
    (∃ e, t = raiseFatal e (takeAnswer s)) ∨
    (∃ w b, s.pending = some w ∧ t = gotoState stIdCheck { takeAnswer s with idByte := Reg.written b }) := by
  cases h with
  | noStep => exact .inl rfl
  | issue w hp => exact .inr (.inl ⟨w, hp, rfl⟩)
  | badAnswer e => exact .inr (.inr (.inl ⟨e, rfl⟩))
  | idRead w b hp => exact .inr (.inr (.inr ⟨w, b, hp, rfl⟩))
  | _ => simp_all

/-- In S_ID_CHECK the block has no step, or the byte matches, or it raises DeviceNotFound (41_handshake.md R121). -/
theorem Effect.cases_of_idCheck {s t : State} (h : Effect s t) (hs : s.state = stIdCheck) :
    t = s ∨
    (s.idByte.val = s.cfg.expectedDevid ∧
      t = gotoState stPwrRead (noteReads (s.idByte.unmarkedName .idByte) s)) ∨
    t = raiseFatal (.deviceNotFound s.idByte.val) (noteReads (s.idByte.unmarkedName .idByte) s) := by
  cases h with
  | noStep => exact .inl rfl
  | idMatch _ _ heq => exact .inr (.inl ⟨heq, rfl⟩)
  | idMismatch => exact .inr (.inr rfl)
  | _ => simp_all [requestOf]

/-- S_TERMINATED has no step (60_exceptions.md R226). -/
theorem Effect.eq_of_terminated {s t : State} (h : Effect s t) (hs : s.state = stTerminated) : t = s := by
  cases h with
  | noStep => rfl
  | _ => simp_all [requestOf]

/-- Only S_ID_READ writes ID_BYTE (10_state.md R25). -/
theorem Effect.idByte_eq {s t : State} (h : Effect s t) (hs : s.state ≠ stIdRead) : t.idByte = s.idByte := by
  cases h with
  | idRead _ _ _ _ hc => exact absurd hc hs
  | _ => rfl

/-- Only a reset leads back to S_ID_READ (10_state.md R21). -/
theorem Effect.state_ne_idRead {s t : State} (h : Effect s t) (hs : s.state ≠ stIdRead) : t.state ≠ stIdRead := by
  have hback : ∀ p ∈ legalTransitions, p.2 ≠ stIdRead := by simp [legalTransitions]
  obtain hsame | hmove := h.state_cases
  · rwa [hsame]
  · exact hback _ hmove

/-! ### The ID byte along a run -/

/-- The run has made W_ID and nothing more: the block is about to compare the byte, or the comparison has ended the run. -/
def OnlyIdRead (s : State) : Prop :=
  s.devState = false ∧
  ((s.state = stIdCheck ∧ s.events = [.txn (readWord s.cfg.deviceAddr s.cfg.devidReg 1#8)]) ∨
   (s.state = stTerminated ∧ s.err = 1#3 ∧
    s.events = [.txn (readWord s.cfg.deviceAddr s.cfg.devidReg 1#8), .diag 1#3]))

/-- Where a run without a second reset stands with its ID byte: it is being read, its transaction has failed, it has matched, or
W_ID is all the run has made. -/
def IdPhase (s : State) : Prop :=
  (s.state = stIdRead ∧ s.idByte.valid = false ∧ s.events = s.pending.toList.map .txn) ∨
  (s.state = stTerminated ∧ s.idByte.valid = false) ∨
  (s.state ≠ stIdRead ∧ s.idByte.val = s.cfg.expectedDevid) ∨
  OnlyIdRead s

/-- From S_ID_READ: the word pending when the byte arrives is W_ID, and it is the one event so far. -/
theorem Effect.idPhase_of_reading {s t : State} (he : Effect s t) (hinv : Inv s) (hs : s.state = stIdRead)
    (hv : s.idByte.valid = false) (hev : s.events = s.pending.toList.map .txn) : IdPhase t := by
  obtain rfl | ⟨w, hp, rfl⟩ | ⟨e, rfl⟩ | ⟨w, b, hp, rfl⟩ := he.cases_of_idRead hs
  · exact .inl ⟨hs, hv, hev⟩
  · exact .inl ⟨hs, hv, by simp [hev, hp]⟩
  · exact .inr (.inl ⟨rfl, hv⟩)
  · have hw : w = readWord s.cfg.deviceAddr s.cfg.devidReg 1#8 := by
      simpa [requestOf, hs, eq_comm] using hinv.pendingWord w hp
    have hdev : s.devState = false := hinv.devInHandshake (by simp [hs])
    exact .inr (.inr (.inr ⟨hdev, .inl ⟨rfl, by simp [hev, hp, hw]⟩⟩))

/-- From S_ID_CHECK: the byte matches, or DIAG(1) is the second event and the last. -/
theorem OnlyIdRead.effect {s t : State} (h : OnlyIdRead s) (he : Effect s t) : IdPhase t := by
  obtain ⟨hdev, ⟨hs, hev⟩ | ⟨hs, herr, hev⟩⟩ := h
  · obtain rfl | ⟨heq, rfl⟩ | rfl := he.cases_of_idCheck hs
    · exact .inr (.inr (.inr ⟨hdev, .inl ⟨hs, hev⟩⟩))
    · exact .inr (.inr (.inl ⟨by simp, heq⟩))
    · exact .inr (.inr (.inr ⟨hdev, .inr ⟨rfl, rfl, by simp [hev, excCode]⟩⟩))
  · obtain rfl := he.eq_of_terminated hs
    exact .inr (.inr (.inr ⟨hdev, .inr ⟨hs, herr, hev⟩⟩))

theorem Effect.keeps_idPhase {s t : State} (he : Effect s t) (hinv : Inv s) (h : IdPhase s) : IdPhase t := by
  obtain ⟨hs, hv, hev⟩ | ⟨hs, hv⟩ | ⟨hs, heq⟩ | honly := h
  · exact he.idPhase_of_reading hinv hs hv hev
  · obtain rfl := he.eq_of_terminated hs
    exact .inr (.inl ⟨hs, hv⟩)
  · exact .inr (.inr (.inl ⟨he.state_ne_idRead hs, by rw [he.idByte_eq hs, he.cfg_eq, heq]⟩))
  · exact honly.effect he

/-- A step of a run without a second reset keeps the phase: the other agents write none of the registers it speaks of. -/
theorem FirstRun.keeps_idPhase {cfg : Config} {s t : State} (h : FirstRun cfg s) (hphase : IdPhase s)
    (hstep : Machine.step s = .next t) : IdPhase t := by
  obtain ⟨later, -, ⟨turn, -, rfl⟩ | he⟩ := step_effect_of_noRst h.inv.noCall h.inv.legal h.noRst hstep
  · rw [takeTurn_frame]
    exact hphase
  · exact he.keeps_idPhase (h.inv.withSchedule later) hphase

/-- A run starts with nothing sent and ID_BYTE unmarked (70_reset_and_hazards.md R250). -/
theorem idPhase_launch (cfg : Config) (turns : List Turn) : IdPhase (launch cfg turns) := .inl ⟨rfl, rfl, rfl⟩

/-- With a marked ID byte other than the expected one, W_ID is all the run has made. -/
theorem IdPhase.onlyIdRead {s : State} {b : Byte} (h : IdPhase s) (hb : s.idByte = ⟨b, true⟩)
    (hne : b ≠ s.cfg.expectedDevid) : OnlyIdRead s := by
  obtain ⟨-, hv, -⟩ | ⟨-, hv⟩ | ⟨-, heq⟩ | honly := h
  · simp [hb] at hv
  · simp [hb] at hv
  · exact absurd heq (by simpa [hb] using hne)
  · exact honly

/-- Settles O59: the first part by induction on the run with `IdPhase`, the second by the turns of S_ID_READ and S_ID_CHECK. -/
theorem wrongIdEndsTheRun : Obligations.WrongIdEndsTheRun := by
  refine ⟨fun cfg turns k t b hn hrun hb hne => ?_, fun cfg b later hne => ?_⟩
  · obtain ⟨hfirst, hphase⟩ := run_next_keeps (fun s => FirstRun cfg s ∧ IdPhase s)
      (fun _ _ ⟨hfirst, hphase⟩ hstep => ⟨hfirst.step hstep, hfirst.keeps_idPhase hphase hstep⟩) k
      ⟨firstRun_launch cfg hn, idPhase_launch cfg turns⟩ hrun
    obtain rfl := hfirst.cfg_eq
    exact hphase.onlyIdRead hb hne
  · exact ⟨_,
      (run_add 1 (run_idRead ⟨rfl, rfl, rfl, rfl, rfl, rfl⟩)).trans
        (run_idCheck_of_ne ⟨rfl, rfl, rfl, rfl, rfl, rfl⟩ rfl hne),
      rfl, rfl, rfl⟩

end Sys2Proof.Machine
end

section
/-! The decoder is a bijection between six-byte blocks and triples of samples (42_sample_decoder.md R144): DECODE16 is
injective, and the two bytes of an AxisSample decode to it. -/

namespace Sys2Proof.Machine

/-- Two bytes side by side determine each of them (00_scope.md R9). -/
theorem byte_append_injective {hi lo hi' lo' : Byte} (h : hi ++ lo = hi' ++ lo') : hi = hi' ∧ lo = lo' := by
  have hnat := congrArg BitVec.toNat h
  rw [toNat_append_eq_add, toNat_append_eq_add] at hnat
  exact ⟨BitVec.eq_of_toNat_eq (by omega), BitVec.eq_of_toNat_eq (by omega)⟩

/-- The two bytes of a number side by side are its 16-bit word (42_sample_decoder.md R144). -/
theorem ofInt_shift_append_ofInt (v : Int) :
    BitVec.ofInt 8 (v >>> (8 : Nat)) ++ BitVec.ofInt 8 v = BitVec.ofInt 16 v := by
  apply BitVec.eq_of_toNat_eq
  rw [toNat_append_eq_add]
  simp only [BitVec.toNat_ofInt, Int.shiftRight_eq_div_pow]
  omega

/-- DECODE16 is injective (42_sample_decoder.md R144). -/
theorem decode16_injective {lo hi lo' hi' : Byte} (h : decode16 lo hi = decode16 lo' hi') : lo = lo' ∧ hi = hi' := by
  rw [decode16_eq_toInt, decode16_eq_toInt] at h
  exact (byte_append_injective (BitVec.eq_of_toInt_eq h)).symm

/-- The two bytes of an AxisSample, the low byte first, decode to it (42_sample_decoder.md R144). -/
theorem decode16_ofInt {v : Int} (hlow : -32768 ≤ v) (hhigh : v ≤ 32767) :
    decode16 (BitVec.ofInt 8 v) (BitVec.ofInt 8 (v >>> (8 : Nat))) = v := by
  rw [decode16_eq_toInt, ofInt_shift_append_ofInt]
  exact BitVec.toInt_ofInt_eq_self (by decide) hlow (Int.lt_add_one_of_le hhigh)

/-- Settles O20: each axis has two bytes of its own, so the three clauses about DECODE16 are clauses about a block. -/
theorem decodeIsBijective : Obligations.DecodeIsBijective := by
  refine ⟨fun a b h => ?_, fun v0 v1 v2 low0 high0 low1 high1 low2 high2 => ?_, fun b a => ?_, ?_⟩
  · obtain ⟨a0, a1, a2, a3, a4, a5⟩ := a
    obtain ⟨b0, b1, b2, b3, b4, b5⟩ := b
    simp only [samplesOf, Axes.mk.injEq] at h
    obtain ⟨hx, hy, hz⟩ := h
    obtain ⟨rfl, rfl⟩ := decode16_injective hx
    obtain ⟨rfl, rfl⟩ := decode16_injective hy
    obtain ⟨rfl, rfl⟩ := decode16_injective hz
    rfl
  · simp only [samplesOf, decode16_ofInt low0 high0, decode16_ofInt low1 high1, decode16_ofInt low2 high2]
  · cases a <;> exact decode16_range _ _
  · simp [samplesOf, decode16_eq]

end Sys2Proof.Machine
end

section
/-! One iteration of the poll loop turn by turn (44_poll_loop.md R190 to R194): what each of its states makes of its turns,
and the iteration as the chain of its five states. -/

namespace Sys2Proof.Machine

/-! ### MAPPED and the display text -/

/-- MAPPED holds the value MAPRANGE gives of a 16-bit sample: it fits 32 bits (43_range_mapper.md R166, R167). -/
theorem toInt_ofInt_mapRange (v : BitVec 16) : (BitVec.ofInt 32 (mapRange v.toInt)).toInt = mapRange v.toInt := by
  have hlow : -32768 ≤ v.toInt := BitVec.le_toInt v
  have hhigh : v.toInt < 32768 := BitVec.toInt_lt
  have heq := mapRange_eq v.toInt
  exact BitVec.toInt_ofInt_eq_self (by decide) (by omega) (by omega)

/-- LINE(A) of a mapped sample (44_poll_loop.md R193). -/
theorem displayLine_ofInt_mapRange (a : Axis) (v : BitVec 16) :
    displayLine a (BitVec.ofInt 32 (mapRange v.toInt)) =
      [axisLetter a, 0x3A#8, 0x20#8] ++ fmt2 (max (mapRange v.toInt) 0).toNat := by
  rw [displayLine, toInt_ofInt_mapRange]

/-- The events of S_PUBLISH for the registers S_DECODE and S_MAP fill from a raw block (44_poll_loop.md R192, R193, R199). -/
theorem publishEvents_of_block (b : RawBytes) :
    let samples := (samplesOf b).map (BitVec.ofInt 16)
    publishEvents (samples.map fun v => BitVec.ofInt 32 (mapRange v.toInt)) (samples.map fun v => outVal v.toInt)
        (samples.map fun v => compl (outVal v.toInt)) =
      [ .displayClear,
        .displayText
          [ [0x58#8, 0x3A#8, 0x20#8] ++ fmt2 (max (mapRange (decode16 b.b0 b.b1)) 0).toNat,
            [0x59#8, 0x3A#8, 0x20#8] ++ fmt2 (max (mapRange (decode16 b.b2 b.b3)) 0).toNat,
            [0x5A#8, 0x3A#8, 0x20#8] ++ fmt2 (max (mapRange (decode16 b.b4 b.b5)) 0).toNat ],
        .analogSet 1#3 (outVal (decode16 b.b0 b.b1)), .analogSet 2#3 (outVal (decode16 b.b2 b.b3)),
        .analogSet 3#3 (outVal (decode16 b.b4 b.b5)),
        .analogSet 4#3 (compl (outVal (decode16 b.b0 b.b1))), .analogSet 5#3 (compl (outVal (decode16 b.b2 b.b3))),
        .analogSet 6#3 (compl (outVal (decode16 b.b4 b.b5))) ] := by
  simp [publishEvents, displayLines, displayLine_ofInt_mapRange, axisLetter, samplesOf, decode16_eq_toInt]

/-! ### The states of an iteration -/

/-- S_MAP with nothing pending (43_range_mapper.md R166). -/
theorem exec_sMap_of_none {s : State} (hp : s.pending = none) :
    exec .sMap s =
      .next { s with
        state := stPublish
        mapped := Axes.written (s.ax.vals.map fun v => BitVec.ofInt 32 (mapRange v.toInt))
        out := Axes.written (s.ax.vals.map fun v => outVal v.toInt)
        comp := Axes.written (s.ax.vals.map fun v => compl (outVal v.toInt))
        unmarkedReads := s.unmarkedReads ++ s.ax.unmarkedNames .ax } := by
  simp only [exec, execSMap, whenIdle_of_none _ hp]
  rfl

/-- S_PUBLISH with nothing pending (44_poll_loop.md R192, R194). -/
theorem exec_sPublish_of_none {s : State} (hp : s.pending = none) :
    exec .sPublish s =
      .next { s with
        state := stWait
        timer := .running s.cfg.pollInterval
        unmarkedReads := s.unmarkedReads ++
          (s.mapped.unmarkedNames .mapped ++ s.out.unmarkedNames .out ++ s.comp.unmarkedNames .comp)
        events := s.events ++ publishEvents s.mapped.vals s.out.vals s.comp.vals } := by
  simp only [exec, execSPublish, whenIdle_of_none _ hp]
  rfl

/-- S_WAIT with nothing pending and the timer expired (44_poll_loop.md R194). -/
theorem exec_sWait_of_expired {s : State} (hp : s.pending = none) (ht : s.timer = .expired) :
    exec .sWait s = .next { s with state := stPollRead } := by
  simp only [exec, execSWait, whenIdle_of_none _ hp, if_pos ht]
  rfl

section

variable {s : State} {later : List Turn}

/-- S_POLL_READ with CANCEL 0 and its answer (42_sample_decoder.md R141). -/
theorem run_pollRead {b0 b1 b2 b3 b4 b5 : Byte} (hcancel : s.cancel = false)
    (h : Ready s stPollRead
      ([.sequencer, .answer (s.txnCount + 1) (.data [b0, b1, b2, b3, b4, b5]), .sequencer] ++ later)) :
    Host.Core.run Sys2Proof.core 3 s =
      .next { s with
        state := stDecode
        raw := rawOfAnswer [b0, b1, b2, b3, b4, b5]
        events := s.events ++ [.txn (readWord s.cfg.deviceAddr s.cfg.dataStart 6#8)]
        txnCount := s.txnCount + 1
        schedule := later
        pending := none
        response := none } :=
  run_transaction h (fun _ => (pollReadTransaction _).2.1 _ h.noPending hcancel rfl)
    ((pollReadTransaction _).2.2 _ b0 b1 b2 b3 b4 b5 rfl rfl)

/-- S_DECODE (42_sample_decoder.md R142). -/
theorem run_decode (h : Ready s stDecode (.sequencer :: later)) (hv : s.raw.AllValid) :
    Host.Core.run Sys2Proof.core 1 s =
      .next { s with
        state := stMap
        ax := Axes.written ((samplesOf s.raw.bytes).map (BitVec.ofInt 16))
        schedule := later } := by
  have hdecode := decodeFillsSamples { s with schedule := later } h.noPending
  refine run_of_exec h (hdecode.trans ?_)
  simp [Raw.unmarkedNames_of_valid hv, written_samplesOf]

/-- S_MAP (43_range_mapper.md R166). -/
theorem run_map (h : Ready s stMap (.sequencer :: later)) (hv : s.ax.AllValid) :
    Host.Core.run Sys2Proof.core 1 s =
      .next { s with
        state := stPublish
        mapped := Axes.written (s.ax.vals.map fun v => BitVec.ofInt 32 (mapRange v.toInt))
        out := Axes.written (s.ax.vals.map fun v => outVal v.toInt)
        comp := Axes.written (s.ax.vals.map fun v => compl (outVal v.toInt))
        schedule := later } := by
  have hmap := exec_sMap_of_none (s := { s with schedule := later }) h.noPending
  refine run_of_exec h (hmap.trans ?_)
  simp [Axes.unmarkedNames_of_valid _ hv]

/-- S_PUBLISH (44_poll_loop.md R192, R194). -/
theorem run_publish (h : Ready s stPublish (.sequencer :: later)) (hmapped : s.mapped.AllValid) (hout : s.out.AllValid)
    (hcomp : s.comp.AllValid) :
    Host.Core.run Sys2Proof.core 1 s =
      .next { s with
        state := stWait
        timer := .running s.cfg.pollInterval
        events := s.events ++ publishEvents s.mapped.vals s.out.vals s.comp.vals
        schedule := later } := by
  have hpublish := exec_sPublish_of_none (s := { s with schedule := later }) h.noPending
  refine run_of_exec h (hpublish.trans ?_)
  simp [Axes.unmarkedNames_of_valid _ hmapped, Axes.unmarkedNames_of_valid _ hout,
    Axes.unmarkedNames_of_valid _ hcomp]

/-- The timer's turn and then S_WAIT's, in which the expiry ends the wait (44_poll_loop.md R194). -/
theorem run_wait {n : Nat} (h : Ready s stWait ([.timerExpires, .sequencer] ++ later)) (ht : s.timer = .running n) :
    Host.Core.run Sys2Proof.core 2 s =
      .next { s with state := stPollRead, timer := .expired, schedule := later } := by
  obtain ⟨hstate, hp, hn, hc, hr, hs⟩ := h
  have expire : step s = .next { s with timer := .expired, schedule := .sequencer :: later } := by
    simp [step, hr, hs, takeTurn, ht, expireTimer]
  have leave := run_of_exec (s := { s with timer := .expired, schedule := .sequencer :: later })
    ⟨hstate, hp, hn, hc, hr, rfl⟩ (exec_sWait_of_expired hp rfl)
  exact (run_add 1 (run_one_of_step expire)).trans leave

end

/-- Settles O60: the run is the chain of the five states of an iteration, and the events of S_PUBLISH are read back to the
bytes of the answer. -/
theorem iterationPublishesItsSamples : Obligations.IterationPublishesItsSamples := by
  intro s b0 b1 b2 b3 b4 b5 later hstate hp hn hc hcancel hr hs
  have hrun := calc Host.Core.run Sys2Proof.core 8 s
    _ = Host.Core.run Sys2Proof.core 5 _ := run_add 5 (run_pollRead hcancel ⟨hstate, hp, hn, hc, hr, hs⟩)
    _ = Host.Core.run Sys2Proof.core 4 _ := run_add 4 (run_decode ⟨rfl, rfl, rfl, hc, hr, rfl⟩ (rawOfAnswer_allValid _))
    _ = Host.Core.run Sys2Proof.core 3 _ := run_add 3 (run_map ⟨rfl, rfl, rfl, hc, hr, rfl⟩ (Axes.written_allValid _))
    _ = Host.Core.run Sys2Proof.core 2 _ := run_add 2 (run_publish ⟨rfl, rfl, rfl, hc, hr, rfl⟩
          (Axes.written_allValid _) (Axes.written_allValid _) (Axes.written_allValid _))
    _ = .next _ := run_wait ⟨rfl, rfl, rfl, hc, hr, rfl⟩ rfl
  refine ⟨_, hrun, rfl, rfl, rfl, rfl, rfl, ?_⟩
  have hsent := publishEvents_of_block ⟨b0, b1, b2, b3, b4, b5⟩
  exact (List.append_assoc _ _ _).trans (congrArg (s.events ++ ·) (congrArg (List.cons _) hsent))

end Sys2Proof.Machine
end

section
/-! What a rounded result keeps of the exact one (00_scope.md R10): it is finite while the exact one is below 2^1023, rounding
is monotone, and a finite word bounds what is rounded from its own side. -/

namespace Sys2Proof.Machine

/-! ### Finite results -/

/-- The fraction that is rounded to a significand is below 2^53. -/
theorem scaleNum_lt {num den : Nat} (hn : 0 < num) (hd : 0 < den) {e : Int} (he : ratioExp num den ≤ e) :
    scaleNum num (e - 52) < 9007199254740992 * scaleDen den (e - 52) := by
  have hden : (0 : ℚ) < den := by exact_mod_cast hd
  have hscale : (0 : ℚ) < scaleDen den (e - 52) := by exact_mod_cast scaleDen_pos hd _
  have hpow : (2 : ℚ) ^ (e + 1) = 2 ^ (e - 52) * 9007199254740992 := by
    rw [show e + 1 = (e - 52) + (53 : ℕ) by omega, zpow_add₀ two_ne_zero, zpow_natCast]; norm_num
  have hnum : (num : ℚ) < den * 2 ^ (e + 1) := (ratioExp_spec hn hd).2.trans_le
    (mul_le_mul_of_nonneg_left (zpow_le_zpow_right₀ one_le_two (by omega)) hden.le)
  have hlt := calc (scaleNum num (e - 52) : ℚ) * (den * 2 ^ (e - 52))
    _ = num * scaleDen den (e - 52) := by rw [← mul_assoc, scale_eq]
    _ < den * 2 ^ (e + 1) * scaleDen den (e - 52) := mul_lt_mul_of_pos_right hnum hscale
    _ = (9007199254740992 * scaleDen den (e - 52)) * (den * 2 ^ (e - 52)) := by rw [hpow]; ring
  exact_mod_cast lt_of_mul_lt_mul_right hlt (by positivity)

theorem nearestMagnitude_lt {num den : Nat} (hn : 0 < num) (hd : 0 < den) (h : (num : ℚ) / den < 2 ^ 1023) :
    nearestMagnitude num den < f64InfMagnitude := by
  have hden : (0 : ℚ) < den := by exact_mod_cast hd
  have hpow : (2 : ℚ) ^ ratioExp num den < 2 ^ (1023 : ℤ) :=
    ((le_div_iff₀' hden).mpr (ratioExp_spec hn hd).1).trans_lt h
  have hratio : ratioExp num den < 1023 := (zpow_lt_zpow_iff_right₀ one_lt_two).mp hpow
  have hexp : roundExp num den ≤ 1022 := by unfold roundExp; omega
  have hround := roundDiv_le (scaleNum_lt hn hd (e := roundExp num den) (le_max_left _ _))
  simp only [nearestMagnitude, f64InfMagnitude]
  omega

theorem roundRatio_finite (neg : Bool) (num : Nat) {den : Nat} (hd : 0 < den) (h : (num : ℚ) / den < 2 ^ 1023) :
    f64IsFinite (roundRatio neg num den) = true := by
  refine (f64OfMagnitude_finite neg ?_).1
  split
  case isTrue => norm_num [f64InfMagnitude]
  case isFalse h0 => exact nearestMagnitude_lt (Nat.pos_of_ne_zero h0) hd h

theorem abs_signed (neg : Bool) (x : ℚ) : |(if neg then -1 else 1) * x| = |x| := by
  cases neg <;> simp

/-- A quotient below 2^1023 is finite and has the sign of the two operands' signs. -/
theorem f64Div_finite_sign {a b : F64} (ha : f64IsFinite a = true) (hb : f64IsFinite b = true) (h0 : f64Value b ≠ 0)
    (h : |f64Value a / f64Value b| < 2 ^ 1023) :
    f64IsFinite (f64Div a b) = true ∧ f64Sign (f64Div a b) = (f64Sign a ^^ f64Sign b) := by
  have hz : f64IsZero b = false := Bool.eq_false_iff.mpr (h0 ∘ f64Value_of_isZero)
  have hn : 0 < f64Num b := Nat.pos_of_ne_zero fun hb0 => h0 (by simp [f64Value_eq_num_div_den, hb0])
  have hden : 0 < f64Den a * f64Num b := Nat.mul_pos (f64Den_pos a) hn
  rw [f64Value_div, abs_signed] at h
  have hfin := roundRatio_finite (f64Sign a ^^ f64Sign b) _ hden ((le_abs_self _).trans_lt h)
  rw [f64Div_eq_roundRatio ha hb hz]
  exact ⟨hfin, (roundRatio_nearest _ _ hden hfin).1⟩

theorem f64Sub_finite {a b : F64} (ha : f64IsFinite a = true) (hb : f64IsFinite b = true)
    (h : |f64Value a - f64Value b| < 2 ^ 1023) : f64IsFinite (f64Sub a b) = true := by
  obtain ⟨neg, heq, -⟩ := f64Sub_eq_roundRatio ha hb
  rw [f64Value_sub, abs_div, Nat.abs_cast, ← Int.cast_abs, ← Nat.cast_natAbs] at h
  rw [heq]
  exact roundRatio_finite neg _ (Nat.mul_pos (f64Den_pos a) (f64Den_pos b)) h

theorem f64Sign_ofInt {n : Int} (h : n.natAbs < 2 ^ 53) : f64Sign (f64OfInt n) = decide (n < 0) :=
  (roundRatio_nearest _ _ Nat.one_pos (f64OfInt_exact h).1).1

/-! ### Rounding and the order of the values -/

theorem IsNearestEven.value_le {v u : F64} {x : ℚ} (hv : IsNearestEven v x) (hu : f64IsFinite u = true)
    (h : x ≤ f64Value u) : f64Value v ≤ f64Value u := by
  have hnear := (hv.2 u hu).1
  rw [abs_of_nonneg (sub_nonneg.mpr h)] at hnear
  linarith [le_abs_self (f64Value v - x)]

theorem IsNearestEven.le_value {v u : F64} {x : ℚ} (hv : IsNearestEven v x) (hu : f64IsFinite u = true)
    (h : f64Value u ≤ x) : f64Value u ≤ f64Value v := by
  have hnear := (hv.2 u hu).1
  rw [abs_of_nonpos (sub_nonpos.mpr h)] at hnear
  linarith [neg_abs_le (f64Value v - x)]

/-- Of two numbers the greater is not rounded to the lesser value: else to exchange the two words would bring one of them
nearer. -/
theorem IsNearestEven.value_le_of_lt {v w : F64} {x y : ℚ} (hv : IsNearestEven v x) (hw : IsNearestEven w y)
    (h : x < y) : f64Value v ≤ f64Value w := by
  have hvw := sq_le_sq.mpr (hv.2 w hw.1).1
  have hwv := sq_le_sq.mpr (hw.2 v hv.1).1
  by_contra hlt
  have hgap : 0 < (f64Value v - f64Value w) * (y - x) := mul_pos (by linarith) (by linarith)
  linarith

theorem f64Order_le_iff {a b : F64} (ha : f64IsFinite a = true) (hb : f64IsFinite b = true) :
    f64Order a ≤ f64Order b ↔ f64Value a ≤ f64Value b := by
  rw [← not_lt, f64Order_lt_iff_units hb ha, ← f64Value_lt_iff_units, not_lt]

theorem f64Lt_posZero {v : F64} (h : f64IsFinite v = true) : f64Lt v f64PosZero = decide (f64Order v < 0) := by
  have hzero : f64IsNaN f64PosZero = false := by decide
  have horder : f64Order f64PosZero = 0 := by decide
  simp [f64Lt, f64IsNaN_of_finite h, hzero, horder]

theorem f64Order_nonneg_of_sign {v : F64} (h : f64Sign v = false) : 0 ≤ f64Order v := by
  simp [f64Order, h]

end Sys2Proof.Machine
end

section
/-! MAPRANGE and S_MAP (43_range_mapper.md R160, R161, R166). -/

namespace Sys2Proof.Machine

/-- The bounds of MAPRANGE over every AxisSample (43_range_mapper.md R167). -/
theorem mapRange_bounds {s : Int} (hlow : -32768 ≤ s) (hhigh : s ≤ 32767) :
    -31500 ≤ mapRange s ∧ mapRange s ≤ 32499 := by
  rw [mapRange_eq]
  omega

theorem mapRange_mono {s t : Int} (h : s ≤ t) : mapRange s ≤ mapRange t := by
  rw [mapRange_eq, mapRange_eq]
  omega

/-- The three shifted terms of the shift form are 1000 (s + 512), since 1000 = 1024 - 16 - 8 (43_range_mapper.md R161). -/
theorem shiftTerms_eq (s : Int) : (s + 512) * 2 ^ 10 - (s + 512) * 2 ^ 4 - (s + 512) * 2 ^ 3 = (s + 512) * 1000 := by
  ring

theorem shiftRight_ten (n : Int) : n >>> (10 : Nat) = n / 1024 := Int.shiftRight_eq_div_pow n 10

/-- Settles O21: both divisions are the Euclidean one, as 1024 is positive. -/
theorem mapRangeShiftForm : Obligations.MapRangeShiftForm := by
  refine ⟨fun n => ?_, fun s _ _ => ?_⟩
  · rw [shiftRight_ten, Int.fdiv_eq_ediv_of_nonneg n (by decide)]
  · rw [mapRange_eq, shiftTerms_eq, shiftRight_ten]

/-- Settles O22: the two inequalities are those of the Euclidean division. -/
theorem mapRangeIsFloor : Obligations.MapRangeIsFloor := by
  refine ⟨fun s => ?_, by decide⟩
  rw [mapRange_eq]
  omega

/-- Settles O19: MAPPED is the 32-bit word of MAPRANGE, which an AxisSample cannot overflow. -/
theorem mapFillsOutputs : Obligations.MapFillsOutputs := by
  intro s hp
  refine ⟨Axes.written (s.ax.vals.map fun v => BitVec.ofInt 32 (mapRange v.toInt)), ?_, Axes.written_allValid _, ?_⟩
  · rw [exec_sMap_of_none hp, unmarkedReadsOf_sMap]
    rfl
  · simp [toInt_ofInt_mapRange, -BitVec.toInt_ofInt]

end Sys2Proof.Machine
end

section
/-! TOOUT, OUTVAL and COMPL (43_range_mapper.md R162 to R169). What the statements turn on is that CLAMP may be moved before the
division: OUTVAL(s) is TOOUT of max(MAPRANGE(s), 0). -/

namespace Sys2Proof.Machine

/-! ### TOOUT -/

/-- The operands of TOOUT are the exact numerator and the exact divisor (43_range_mapper.md R162). -/
theorem f64Value_toOut_operands {m : Int} (hm : m.natAbs < 2 ^ 53) :
    f64Value (f64OfInt m) / f64Value (f64OfInt Config.outDivisor) = (m : ℚ) / 100 := by
  rw [(f64OfInt_exact hm).2, (f64OfInt_exact (by decide)).2]
  norm_num

theorem f64Value_outDivisor_ne_zero : f64Value (f64OfInt Config.outDivisor) ≠ 0 := by
  rw [(f64OfInt_exact (by decide)).2]
  norm_num

/-- The bound of the finite results is far above every number the mapper meets. -/
theorem lt_two_pow_1023 {x : ℚ} (h : x < 2 ^ 53) : x < 2 ^ 1023 :=
  h.trans_le (pow_le_pow_right₀ one_le_two (by norm_num))

theorem toOut_finite_sign {m : Int} (hm : m.natAbs < 2 ^ 53) :
    f64IsFinite (toOut m) = true ∧ f64Sign (toOut m) = decide (m < 0) := by
  have habs : |(m : ℚ)| < 2 ^ 53 := by
    rw [← Int.cast_abs, ← Nat.cast_natAbs]
    exact_mod_cast hm
  have hquot : |f64Value (f64OfInt m) / f64Value (f64OfInt Config.outDivisor)| < 2 ^ 1023 := by
    rw [f64Value_toOut_operands hm, abs_div, abs_of_pos (show (0 : ℚ) < 100 by norm_num)]
    exact lt_two_pow_1023 (by linarith [abs_nonneg (m : ℚ)])
  obtain ⟨hfin, hsign⟩ := f64Div_finite_sign (f64OfInt_exact hm).1 (f64OfInt_exact (by decide)).1
    f64Value_outDivisor_ne_zero hquot
  refine ⟨hfin, hsign.trans ?_⟩
  rw [f64Sign_ofInt hm, f64Sign_ofInt (by decide)]
  exact Bool.xor_false _

theorem toOut_nearest {m : Int} (hm : m.natAbs < 2 ^ 53) : IsNearestEven (toOut m) ((m : ℚ) / 100) := by
  rw [← f64Value_toOut_operands hm]
  exact f64Div_nearest (f64OfInt_exact hm).1 (f64OfInt_exact (by decide)).1 f64Value_outDivisor_ne_zero
    (toOut_finite_sign hm).1

theorem toOut_mono {m n : Int} (hm : m.natAbs < 2 ^ 53) (hn : n.natAbs < 2 ^ 53) (h : m ≤ n) :
    f64Order (toOut m) ≤ f64Order (toOut n) := by
  obtain rfl | hlt := h.eq_or_lt
  · rfl
  · have hquot : (m : ℚ) / 100 < n / 100 := div_lt_div_of_pos_right (by exact_mod_cast hlt) (by norm_num)
    rw [f64Order_le_iff (toOut_finite_sign hm).1 (toOut_finite_sign hn).1]
    exact (toOut_nearest hm).value_le_of_lt (toOut_nearest hn) hquot

/-! ### CLAMP and OUTVAL -/

theorem clamp_toOut_of_nonneg {m : Int} (hm : m.natAbs < 2 ^ 53) (h : 0 ≤ m) : clamp (toOut m) = toOut m := by
  obtain ⟨hfin, hsign⟩ := toOut_finite_sign hm
  have horder : 0 ≤ f64Order (toOut m) := f64Order_nonneg_of_sign (by simpa [h.not_gt] using hsign)
  simp [clamp, f64Lt_posZero hfin, horder.not_gt]

/-- A negative number of hundredths is at most TOOUT(-1), which is below zero. -/
theorem clamp_toOut_of_neg {m : Int} (hm : m.natAbs < 2 ^ 53) (h : m < 0) : clamp (toOut m) = f64PosZero := by
  have hone : f64Order (toOut (-1)) < 0 := by decide
  have horder : f64Order (toOut m) < 0 := (toOut_mono hm (by decide) (by omega)).trans_lt hone
  simp [clamp, f64Lt_posZero (toOut_finite_sign hm).1, horder]

theorem clamp_toOut {m : Int} (hm : m.natAbs < 2 ^ 53) : clamp (toOut m) = toOut (max m 0) := by
  rcases lt_or_ge m 0 with h | h
  · have hzero : toOut 0 = f64PosZero := by decide
    rw [clamp_toOut_of_neg hm h, max_eq_right h.le, hzero]
  · rw [clamp_toOut_of_nonneg hm h, max_eq_left h]

section

variable {s : Int}

/-- The result of MAPRANGE, and what CLAMP makes of it, are integers that f64 holds exactly. -/
theorem natAbs_mapRange_lt (hlow : -32768 ≤ s) (hhigh : s ≤ 32767) :
    (mapRange s).natAbs < 2 ^ 53 ∧ (max (mapRange s) 0).natAbs < 2 ^ 53 := by
  have hbounds := mapRange_bounds hlow hhigh
  omega

theorem outVal_eq_toOut_max (hlow : -32768 ≤ s) (hhigh : s ≤ 32767) : outVal s = toOut (max (mapRange s) 0) :=
  clamp_toOut (natAbs_mapRange_lt hlow hhigh).1

theorem outVal_finite_sign (hlow : -32768 ≤ s) (hhigh : s ≤ 32767) :
    f64IsFinite (outVal s) = true ∧ f64Sign (outVal s) = false := by
  rw [outVal_eq_toOut_max hlow hhigh]
  simpa using toOut_finite_sign (natAbs_mapRange_lt hlow hhigh).2

theorem outVal_mono {t : Int} (hlow : -32768 ≤ s) (h : s ≤ t) (hhigh : t ≤ 32767) :
    f64Order (outVal s) ≤ f64Order (outVal t) := by
  rw [outVal_eq_toOut_max hlow (h.trans hhigh), outVal_eq_toOut_max (hlow.trans h) hhigh]
  exact toOut_mono (natAbs_mapRange_lt hlow (h.trans hhigh)).2 (natAbs_mapRange_lt (hlow.trans h) hhigh).2
    (max_le_max_right 0 (mapRange_mono h))

theorem f64Order_outVal_le (hlow : -32768 ≤ s) (hhigh : s ≤ 32767) :
    f64Order (outVal s) ≤ f64Order 0x40744FD70A3D70A4#64 := by
  have hmax : outVal 32767 = 0x40744FD70A3D70A4#64 := by decide
  exact hmax ▸ outVal_mono hlow hhigh le_rfl

/-- OUTVAL is 10.0 at 513 and above it at 514 (43_range_mapper.md R167). -/
theorem f64Order_outVal_le_ten_iff (hlow : -32768 ≤ s) (hhigh : s ≤ 32767) :
    f64Order (outVal s) ≤ f64Order 0x4024000000000000#64 ↔ s ≤ 513 := by
  have hat : outVal 513 = 0x4024000000000000#64 := by decide
  have habove : f64Order 0x4024000000000000#64 < f64Order (outVal 514) := by decide
  refine ⟨fun h => ?_, fun h => hat ▸ outVal_mono hlow h (by decide)⟩
  by_contra hlt
  exact (h.trans_lt habove).not_ge (outVal_mono (by decide) (by omega) hhigh)

/-- OUTVAL lies in [0, 324.99] (43_range_mapper.md R167). -/
theorem f64Value_outVal_mem (hlow : -32768 ≤ s) (hhigh : s ≤ 32767) :
    0 ≤ f64Value (outVal s) ∧ f64Value (outVal s) ≤ f64Value 0x40744FD70A3D70A4#64 := by
  obtain ⟨hfin, hsign⟩ := outVal_finite_sign hlow hhigh
  refine ⟨?_, (f64Order_le_iff hfin (by decide)).mp (f64Order_outVal_le hlow hhigh)⟩
  have hzero : f64Value f64PosZero = 0 := f64Value_of_isZero (by decide)
  rw [← hzero, ← f64Order_le_iff (by decide) hfin]
  exact f64Order_nonneg_of_sign hsign

end

/-! ### COMPL -/

theorem f64Value_ten : f64Value 0x4024000000000000#64 = 10 := by
  have hten : f64OfInt 10 = 0x4024000000000000#64 := by decide
  rw [← hten, (f64OfInt_exact (by decide)).2]
  rfl

/-- The least complement is exact: 10 less the word of 324.99 is the word 0xC073AFD70A3D70A4 (43_range_mapper.md R167). -/
theorem f64Value_leastCompl :
    f64Value 0xC073AFD70A3D70A4#64 = 10 - f64Value 0x40744FD70A3D70A4#64 := by
  have hcross : f64SignedNum 0xC073AFD70A3D70A4#64 *
        (f64Den 0x4024000000000000#64 * f64Den 0x40744FD70A3D70A4#64 : ℕ) =
      f64ExactDiff 0x4024000000000000#64 0x40744FD70A3D70A4#64 * f64Den 0xC073AFD70A3D70A4#64 := by decide
  have hden : ∀ v : F64, (f64Den v : ℚ) ≠ 0 := fun v => by exact_mod_cast (f64Den_pos v).ne'
  rw [← f64Value_ten, f64Value_sub, f64Value,
    div_eq_div_iff (hden _) (by rw [Nat.cast_mul]; exact mul_ne_zero (hden _) (hden _))]
  exact_mod_cast hcross

theorem f64Value_maxOut_lt : f64Value 0x40744FD70A3D70A4#64 < 325 := by
  have hcross : f64SignedNum 0x40744FD70A3D70A4#64 < 325 * f64Den 0x40744FD70A3D70A4#64 := by decide
  rw [f64Value, div_lt_iff₀ (by exact_mod_cast f64Den_pos _)]
  exact_mod_cast hcross

theorem compl_nearest {v : F64} (hv : f64IsFinite v = true) (h : |10 - f64Value v| < 2 ^ 1023) :
    IsNearestEven (compl v) (10 - f64Value v) := by
  obtain ⟨hfin, hten⟩ := f64OfInt_exact (n := Config.complCeiling) (by decide)
  have hten : f64Value (f64OfInt Config.complCeiling) = 10 := hten
  rw [← hten] at h ⊢
  exact f64Sub_nearest hfin hv (f64Sub_finite hfin hv h)

section

variable {s : Int}

theorem compl_outVal_nearest (hlow : -32768 ≤ s) (hhigh : s ≤ 32767) :
    IsNearestEven (compl (outVal s)) (10 - f64Value (outVal s)) := by
  obtain ⟨hnonneg, hle⟩ := f64Value_outVal_mem hlow hhigh
  have hmax := f64Value_maxOut_lt
  refine compl_nearest (outVal_finite_sign hlow hhigh).1 (lt_two_pow_1023 (abs_lt.mpr ⟨?_, ?_⟩)) <;> linarith

/-- COMPL(OUTVAL(s)) lies in [-314.99, 10.0] (43_range_mapper.md R167). -/
theorem f64Order_compl_outVal_mem (hlow : -32768 ≤ s) (hhigh : s ≤ 32767) :
    f64Order 0xC073AFD70A3D70A4#64 ≤ f64Order (compl (outVal s)) ∧
    f64Order (compl (outVal s)) ≤ f64Order 0x4024000000000000#64 := by
  obtain ⟨hnonneg, hle⟩ := f64Value_outVal_mem hlow hhigh
  have hnear := compl_outVal_nearest hlow hhigh
  rw [f64Order_le_iff (by decide) hnear.1, f64Order_le_iff hnear.1 (by decide)]
  refine ⟨hnear.le_value (by decide) ?_, hnear.value_le (by decide) ?_⟩
  · rw [f64Value_leastCompl]
    linarith
  · rw [f64Value_ten]
    linarith

end

/-! ### The statements -/

/-- Settles O23: MAPRANGE by its division; OUTVAL by monotonicity and its values at 513, 514 and 32767; COMPL as the rounding
of a difference between two finite words. -/
theorem mapperRanges : Obligations.MapperRanges := by
  refine ⟨fun s hlow hhigh => ?_, by decide, by decide⟩
  obtain ⟨hfin, hsign⟩ := outVal_finite_sign hlow hhigh
  obtain ⟨hleast, hgreatest⟩ := f64Order_compl_outVal_mem hlow hhigh
  have heq := mapRange_eq s
  exact ⟨mapRange_bounds hlow hhigh, by omega, by omega, hfin, hsign, f64Order_outVal_le hlow hhigh,
    f64Order_outVal_le_ten_iff hlow hhigh, (compl_outVal_nearest hlow hhigh).1, hleast, hgreatest⟩

/-- Settles O24: MAPRANGE, TOOUT and so OUTVAL are monotone, and COMPL is one rounding of 10 - v. -/
theorem mapperLaws : Obligations.MapperLaws := by
  refine ⟨fun s t hlow h hhigh => ⟨mapRange_mono h, outVal_mono hlow h hhigh⟩, by decide, by decide,
    by decide, fun s hlow hhigh => ⟨?_, fun h => ?_, compl_outVal_nearest hlow hhigh⟩⟩
  · obtain ⟨hfin, hsign⟩ := outVal_finite_sign hlow hhigh
    rw [f64Lt_posZero hfin]
    exact decide_eq_false (f64Order_nonneg_of_sign hsign).not_gt
  · have hnonneg : 0 ≤ mapRange s := (show mapRange (-512) = 0 by decide) ▸ mapRange_mono h
    exact clamp_toOut_of_nonneg (natAbs_mapRange_lt hlow hhigh).1 hnonneg

/-- Truncating division is the floor, or one above it where the dividend is negative (43_range_mapper.md R169). -/
theorem tdiv_cases (n : Int) : n.tdiv 1024 = n / 1024 ∨ (n < 0 ∧ n.tdiv 1024 = n / 1024 + 1) := by
  rw [Int.tdiv_eq_ediv]
  split
  case isTrue => exact .inl (add_zero _)
  case isFalse h => exact .inr ⟨by omega, rfl⟩

/-- Settles O25: the divisions differ only on negative dividends, where the floor is negative and truncation at most 0, so
that CLAMP makes the same of both. -/
theorem truncationChangesNoOutput : Obligations.TruncationChangesNoOutput := by
  intro s hlow hhigh
  have hfloor := mapRange_eq s
  have hcases := tdiv_cases ((s + 512) * 1000)
  generalize Int.tdiv ((s + 512) * 1000) 1024 = n at hcases ⊢
  have hmax : max n 0 = max (mapRange s) 0 := by omega
  refine ⟨?_, hmax, by omega⟩
  rw [clamp_toOut (by omega), hmax, outVal_eq_toOut_max hlow hhigh]

/-- Settles O26: TOOUT is one rounding of the quotient of two exact operands, and OUTVAL is TOOUT of the clamped number. -/
theorem outputsAreNearest : Obligations.OutputsAreNearest := by
  refine ⟨fun m hlow hhigh => toOut_nearest (by omega), fun s hlow hhigh => ?_⟩
  rw [outVal_eq_toOut_max hlow hhigh]
  exact toOut_nearest (natAbs_mapRange_lt hlow hhigh).2

end Sys2Proof.Machine
end

section
/-! The poll loop's own states (44_poll_loop.md): what S_PUBLISH sends (R192, R197), when S_WAIT ends (R194), that the final
states have no step (R195), and that only the issue step of S_POLL_READ reads CANCEL (R196). -/

namespace Sys2Proof.Machine

/-! ### The three states -/

/-- Settles O28: the events of `publishEvents` written out, and the reads in the order of the rule. -/
theorem publishSendsEight : Obligations.PublishSendsEight := by
  intro s hp
  rw [exec_sPublish_of_none hp, unmarkedReadsOf_sPublish]
  rfl

/-- S_WAIT before the expiry (44_poll_loop.md R194, log 4). -/
theorem exec_sWait_of_not_expired {s : State} (ht : s.timer ≠ .expired) : exec .sWait s = .next s := by
  simp only [exec, execSWait, if_neg ht]
  obtain ⟨-, h⟩ | ⟨-, h⟩ := whenIdle_cases s s <;> rw [h]

/-- Settles O30: the timer decides. -/
theorem waitEndsOnExpiry : Obligations.WaitEndsOnExpiry := fun _ hp =>
  ⟨exec_sWait_of_expired hp, exec_sWait_of_not_expired⟩

/-- Settles O31: neither operation writes anything. -/
theorem finalStatesStay : Obligations.FinalStatesStay := fun _ => ⟨rfl, rfl⟩

/-! ### What the sinks hear -/

theorem sinkEvents_append (es fs : List Event) : sinkEvents (es ++ fs) = sinkEvents es ++ sinkEvents fs := by
  induction es with
  | nil => rfl
  | cons e es ih => cases e <;> simp [sinkEvents, ih]

/-- An effect sends the sinks nothing, or it is the publish (44_poll_loop.md R197). -/
theorem Effect.sink_cases {s t : State} (h : Effect s t) :
    sinkEvents t.events = sinkEvents s.events ∨
    (s.state = stPublish ∧ ∃ m o c, t.events = s.events ++ publishEvents m o c) := by
  cases h with
  | publish m o c _ hs => exact .inr ⟨hs, m, o, c, rfl⟩
  | _ => exact .inl (by simp [sinkEvents_append, sinkEvents])

/-- With an empty call port the sequencer's step is an effect of a legal state, or IllegalState in a reserved one. -/
theorem runSequencer_noCall_cases {s t : State} (hc : s.call = none) (h : runSequencer s = .next t) :
    Effect s t ∨ t = raiseFatal .illegalState s := by
  rw [runSequencer_of_noCall hc] at h
  by_cases hl : LegalCode s.state
  · exact .inl (exec_effect hl h)
  · rw [exec_reserved hl] at h
    exact .inr (Host.Outcome.next.inj h).symm

/-- Settles O51: a reset, a turn of another agent and IllegalState send the sinks nothing, and of the effects only the
publish does. -/
theorem sinksHearOnlyPublish : Obligations.SinksHearOnlyPublish := by
  intro s t hc hstep
  obtain ⟨-, rfl⟩ | ⟨-, turn, later, -, -, rfl⟩ | ⟨-, later, -, hrun⟩ := step_next hstep
  · exact .inl rfl
  · exact .inl (by simp)
  · obtain he | rfl := runSequencer_noCall_cases (s := { s with schedule := later }) hc hrun
    · obtain hsame | ⟨hs, m, o, c, hev⟩ := he.sink_cases
      · exact .inl hsame
      · exact .inr ⟨hs, publishEvents m o c, hev, rfl, rfl⟩
    · exact .inl (by simp [sinkEvents_append, sinkEvents])

/-! ### Who reads CANCEL

Each shared operation is shown once not to read CANCEL: changing CANCEL before it and after it is the same. -/

/-- The CANCEL input at a level (10_state.md R36). -/
def withCancel (level : Bool) (s : State) : State := { s with cancel := level }

section

variable (level : Bool) (s : State)

theorem whenIdle_withCancel {act act' : State} (hact : act' = withCancel level act) :
    whenIdle (withCancel level s) act' = withCancel level (whenIdle s act) := by
  obtain ⟨hp, h⟩ | ⟨⟨w, hp⟩, h⟩ := whenIdle_cases s act <;> rw [h]
  · exact (whenIdle_of_none act' (s := withCancel level s) hp).trans hact
  · exact whenIdle_of_some act' (s := withCancel level s) hp

theorem runRead_withCancel (reg count : Byte) {onBytes : List Byte → State → State}
    (hok : ∀ bs u, onBytes bs (withCancel level u) = withCancel level (onBytes bs u)) :
    runRead reg count onBytes (withCancel level s) = withCancel level (runRead reg count onBytes s) := by
  cases hp : s.pending with
  | none => rw [runRead_of_none _ _ _ hp, runRead_of_none _ _ _ (s := withCancel level s) hp]; rfl
  | some w =>
    have hp' : (withCancel level s).pending = some w := hp
    have hr : (withCancel level s).response = s.response := rfl
    simp only [runRead, hp, hp', hr]
    cases readReply count.toNat w s.response with
    | waiting | raised e => rfl
    | returned bs => exact hok bs (takeAnswer s)

theorem finishWrite_withCancel (w : RequestWord) {onDone : State → State}
    (hok : ∀ u, onDone (withCancel level u) = withCancel level (onDone u)) :
    finishWrite w onDone (withCancel level s) = withCancel level (finishWrite w onDone s) := by
  have hr : (withCancel level s).response = s.response := rfl
  simp only [finishWrite, hr]
  cases writeReply w s.response with
  | waiting | raised e => rfl
  | returned bs => exact hok (takeAnswer s)

theorem runCall_withCancel (w : RequestWord) (reply : Option Answer → Reply) :
    runCall w reply (withCancel level s) = onNext (withCancel level) (runCall w reply s) := by
  cases hp : s.pending with
  | none => rw [runCall_of_none w reply hp, runCall_of_none w reply (s := withCancel level s) hp]; rfl
  | some p =>
    have hp' : (withCancel level s).pending = some p := hp
    have hr : (withCancel level s).response = s.response := rfl
    simp only [runCall, hp, hp', hr]
    split
    · cases reply s.response <;> rfl
    · rfl

theorem execAccRead_withCancel (dev : DevAddr) (reg count : Byte) :
    execAccRead dev reg count (withCancel level s) = onNext (withCancel level) (execAccRead dev reg count s) := by
  have hcfg : (withCancel level s).cfg = s.cfg := rfl
  simp only [execAccRead, hcfg]
  split_ifs
  · rfl
  · exact runCall_withCancel level s _ _
  · rfl

theorem execAccWrite_withCancel (dev : DevAddr) (reg v : Byte) :
    execAccWrite dev reg v (withCancel level s) = onNext (withCancel level) (execAccWrite dev reg v s) := by
  have hcfg : (withCancel level s).cfg = s.cfg := rfl
  simp only [execAccWrite, hcfg]
  split_ifs
  · exact runCall_withCancel level s _ _
  · rfl

theorem execSPwrWrite_withCancel :
    execSPwrWrite (withCancel level s) = onNext (withCancel level) (execSPwrWrite s) := by
  cases hp : s.pending with
  | none =>
    have hp' : (withCancel level s).pending = none := hp
    simp only [execSPwrWrite, hp, hp']
    rfl
  | some w =>
    have hp' : (withCancel level s).pending = some w := hp
    simp only [execSPwrWrite, hp, hp']
    exact congrArg _ (finishWrite_withCancel level s w fun _ => rfl)

/-- The operations one by one: each is a call, a read, a write or an act while nothing is pending. -/
theorem exec_withCancel {i : Instr} (hi : ¬ (i = .sPollRead ∧ s.pending = none)) :
    exec i (withCancel level s) = onNext (withCancel level) (exec i s) := by
  have read (reg count : Byte) {onBytes : List Byte → State → State}
      (hok : ∀ bs u, onBytes bs (withCancel level u) = withCancel level (onBytes bs u)) :
      (.next (runRead reg count onBytes (withCancel level s)) : Result) =
        onNext (withCancel level) (.next (runRead reg count onBytes s)) :=
    congrArg _ (runRead_withCancel level s reg count hok)
  have idle {act act' : State} (hact : act' = withCancel level act) :
      (.next (whenIdle (withCancel level s) act') : Result) = onNext (withCancel level) (.next (whenIdle s act)) :=
    congrArg _ (whenIdle_withCancel level s hact)
  cases i with
  | accRead dev reg count => exact execAccRead_withCancel level s dev reg count
  | accWrite dev reg v => exact execAccWrite_withCancel level s dev reg v
  | sIdRead | sPwrRead | sPwrVerify => exact read _ _ fun _ _ => rfl
  | sPwrWrite => exact execSPwrWrite_withCancel level s
  | sIdCheck | sWait =>
    refine idle ?_
    rw [apply_ite (withCancel level)]
    rfl
  | sPwrSet | sDecode | sMap | sPublish => exact idle rfl
  | sPollRead =>
    have hp : s.pending ≠ none := fun h => hi ⟨rfl, h⟩
    rw [exec_sPollRead_of_not_stop (s := s) fun h => hp h.1,
      exec_sPollRead_of_not_stop (s := withCancel level s) fun h => hp h.1]
    exact read _ _ fun _ _ => rfl
  | sStopped | sTerminated | reservedStateD | reservedStateE | reservedStateF => rfl

end

/-- Settles O52: with S_POLL_READ's issue step left out, every operation is built of shared ones that do not
read CANCEL. -/
theorem cancelReadOnlyAtPollIssue : Obligations.CancelReadOnlyAtPollIssue :=
  fun _ s level hi => exec_withCancel level s hi

/-! ### The final states -/

/-- S_STOPPED has no step (44_poll_loop.md R195). -/
theorem Effect.eq_of_stopped {s t : State} (h : Effect s t) (hs : s.state = stStopped) : t = s := by
  cases h with
  | noStep => rfl
  | _ => simp_all [requestOf]

/-- The states a block in a final state can come to without a reset: only the schedule, the inputs CANCEL and the response,
and the timer differ. -/
def OnlyInputsDiffer (s t : State) : Prop :=
  ∃ turns level response timer,
    t = { s with schedule := turns, cancel := level, response := response, timer := timer } ∧ NoReset turns

/-- A step of a final state, with no reset requested or scheduled, is a turn of another agent or changes nothing. -/
theorem step_of_final {s : State} (hs : s.state = stTerminated ∨ s.state = stStopped) (hc : s.call = none)
    (hrst : s.rst = false) (hn : NoReset s.schedule) : ∃ t, step s = .next t ∧ OnlyInputsDiffer s t := by
  have hl : LegalCode s.state := by obtain h | h := hs <;> rw [h] <;> simp [LegalCode]
  obtain ⟨t, hstep⟩ := step_next_of_noCall hc
  obtain ⟨later, hsuf, hcase⟩ := step_effect_of_noRst hc hl hrst hstep
  refine ⟨t, hstep, later, ?_⟩
  have hn' : NoReset later := fun hm => hn (hsuf.mem hm)
  obtain ⟨turn, hmem, rfl⟩ | he := hcase
  · have hturn : turn ≠ .raiseRst := fun e => hn (e ▸ hmem)
    have hframe := takeTurn_frame turn { s with schedule := later }
    rw [takeTurn_rst _ hturn] at hframe
    exact ⟨_, _, _, hframe, hn'⟩
  · have hsame : t = { s with schedule := later } := hs.elim he.eq_of_terminated he.eq_of_stopped
    exact ⟨s.cancel, s.response, s.timer, hsame, hn'⟩

/-- Settles O55, by induction on the run: every state of it differs from the first in its inputs and timer only. -/
theorem finalStatesAbsorb : Obligations.FinalStatesAbsorb := by
  intro s k hs hc hrst hn
  have start : OnlyInputsDiffer s s := ⟨s.schedule, s.cancel, s.response, s.timer, rfl, hn⟩
  have keeps (t : State) (h : OnlyInputsDiffer s t) : ∃ u, step t = .next u ∧ OnlyInputsDiffer s u := by
    obtain ⟨turns, level, response, timer, rfl, hn⟩ := h
    obtain ⟨u, hstep, later, level', response', timer', rfl, hn'⟩ := step_of_final
      (s := { s with schedule := turns, cancel := level, response := response, timer := timer }) hs hc hrst hn
    exact ⟨_, hstep, later, level', response', timer', rfl, hn'⟩
  obtain ⟨t, hrun, later, level, response, timer, rfl, -⟩ := run_keeps (OnlyInputsDiffer s) keeps k start
  exact ⟨later, level, response, timer, hrun⟩

end Sys2Proof.Machine
end

section
/-! FMT2 spells hundredths (44_poll_loop.md R193): the digits of a number are built from the right, one for each division by
ten, and so spell it with no leading zero. -/

namespace Sys2Proof.Machine

/-! ### One digit -/

theorem digit_toNat (n : Nat) : (digit n).toNat = 0x30 + n % 10 := by
  simp only [digit, BitVec.toNat_ofNat]
  omega

theorem isDigit_digit (n : Nat) : IsDigit (digit n) := by
  rw [IsDigit, digit_toNat]
  omega

/-- A digit more at the right: ten times the number and the digit. -/
theorem digitsValue_append_digit (ds : Ascii) (n : Nat) :
    digitsValue (ds ++ [digit n]) = 10 * digitsValue ds + n % 10 := by
  simp [digitsValue, List.foldl_append, digit_toNat]

/-! ### The digits of a number -/

/-- One or more digits that spell `n`, the first of them no zero unless it stands alone. -/
structure Spells (first : Byte) (ds : Ascii) (n : Nat) : Prop where
  digits : ∀ b ∈ first :: ds, IsDigit b
  value : digitsValue (first :: ds) = n
  noLeadingZero : first = 0x30#8 → ds = []

theorem spells_digit {n : Nat} (h : n < 10) : Spells (digit n) [] n where
  digits := by simpa using isDigit_digit n
  value := by
    rw [← List.nil_append [digit n], digitsValue_append_digit]
    have : digitsValue [] = 0 := rfl
    omega
  noLeadingZero := fun _ => rfl

/-- From 10 on the quotient is not 0, so its numeral begins with no zero, and one digit more keeps it so. -/
theorem Spells.append_digit {first : Byte} {ds : Ascii} {n : Nat} (h : Spells first ds (n / 10)) (hn : 10 ≤ n) :
    Spells first (ds ++ [digit n]) n where
  digits := by
    rw [← List.cons_append, List.forall_mem_append]
    exact ⟨h.digits, by simpa using isDigit_digit n⟩
  value := by
    rw [← List.cons_append, digitsValue_append_digit, h.value]
    omega
  noLeadingZero := fun hzero => by
    have hvalue := h.value
    rw [hzero, h.noLeadingZero hzero] at hvalue
    have : digitsValue [0x30#8] = 0 := rfl
    omega

/-- With fuel above `n`, the digits put before `tail` spell `n`. -/
theorem decimalOnto_spells (fuel : Nat) {n : Nat} (tail : Ascii) (h : n < fuel) :
    ∃ first ds, decimalOnto fuel n tail = (first :: ds) ++ tail ∧ Spells first ds n := by
  induction fuel generalizing n tail with
  | zero => omega
  | succ fuel ih =>
    rw [decimalOnto]
    split
    · exact ⟨digit n, [], rfl, spells_digit ‹_›⟩
    · obtain ⟨first, ds, heq, hspells⟩ := ih (n := n / 10) (digit n :: tail) (by omega)
      exact ⟨first, ds ++ [digit n], by simp [heq], hspells.append_digit (by omega)⟩

theorem decimal_spells (n : Nat) : ∃ first ds, decimal n = first :: ds ∧ Spells first ds n := by
  simpa [decimal] using decimalOnto_spells (n + 1) [] (Nat.lt_succ_self n)

/-- Two digits that spell a number below a hundred. -/
theorem digitsValue_two_digits (k : Nat) : digitsValue [digit (k % 100 / 10), digit (k % 10)] = k % 100 := by
  simp only [digitsValue, List.foldl_cons, List.foldl_nil, digit_toNat]
  omega

/-- Settles O29: the numeral of k // 100, the point, and the two digits of k mod 100. -/
theorem fmt2SpellsHundredths : Obligations.Fmt2SpellsHundredths := by
  intro k hk
  obtain ⟨first, ds, heq, hspells⟩ := decimal_spells (k / 100)
  exact ⟨first, ds, digit (k % 100 / 10), digit (k % 10), by rw [fmt2, if_pos hk, heq], hspells.digits,
    isDigit_digit _, isDigit_digit _, hspells.value, digitsValue_two_digits k, hspells.noLeadingZero⟩

end Sys2Proof.Machine
end

section
/-! The reset step: its effect in every state, and the step of the block that follows it (70_reset_and_hazards.md R250, R251). -/

namespace Sys2Proof.Machine

/-- Settles O39: nothing is pending after reset, so the step is the issue step of S_ID_READ. -/
theorem firstStepReadsId : Obligations.FirstStepReadsId := by
  have hturn : step State.reset = exec .sIdRead State.reset :=
    (step_of_sequencer_turn rfl (.inl ⟨rfl, rfl⟩)).trans (runSequencer_of_noCall rfl)
  have hissue := (idReadTransaction State.reset).1 _ rfl rfl
  exact ⟨_, hturn.trans hissue, rfl, rfl, rfl⟩

/-- Every register of a file that reset leaves is unmarked. -/
theorem Axes.unmarked_get (w : Nat) (a : Axis) : (Axes.unmarked w).get a = Reg.unmarked w := by
  cases a <;> rfl

/-- The reset step leaves no register of the four files with a value (10_state.md R34). -/
theorem takeReset_axes_invalid (s : State) (a : Axis) :
    ((takeReset s).ax.get a).valid = false ∧ ((takeReset s).mapped.get a).valid = false ∧
    ((takeReset s).out.get a).valid = false ∧ ((takeReset s).comp.get a).valid = false := by
  simp [Axes.unmarked_get]

/-- Settles O40: a requested reset is the step, and each register, port and input is the one `takeReset` gives. -/
theorem resetTakesPriority : Obligations.ResetTakesPriority := fun s hr =>
  ⟨takeReset s, step_of_rst hr, rfl, rfl, rfl, rfl, rfl, rfl, rfl, rfl, rfl, rfl, rfl, rfl, rfl, rfl,
    takeReset_axes_invalid s, rfl, rfl, rfl, rfl⟩

end Sys2Proof.Machine
end
